-- ==== Sys2Proof/Word.lean ====
section
/-! DEFINITION. The byte and pixel types of GBP-FE (rule R8) and the answer of one link exchange (rule R93). -/

namespace Sys2Proof

/-- A byte: 8 bits, unsigned (R8). -/
abbrev Byte := BitVec 8

/-- A pixel: 2 bits, values 0 to 3 (R25, R190). -/
abbrev Pixel := BitVec 2

/-- What one `LinkXfer` returns (R93): a reply byte, or no byte within the per-byte timeout. -/
inductive LinkReply where
  | reply (r : Byte)
  | timeout
  deriving DecidableEq, Repr, Inhabited

end Sys2Proof
end

