-- ==== Sys2Proof/Config.lean ====
section
/-! DEFINITION. What an implementation fixes and the source leaves open (R7), the literals of R6, and the free values:
constants without a body, of which no proof can see a value. -/

namespace Sys2Proof.Config

/-- Largest payload length, the 16-bit length field (R6). -/
def lenMax : Nat := 65535

/-- Size of a strip, the decompressor's output (R6). -/
def stripBytes : Nat := 640

/-- Matrix width in pixels (R6). -/
def width : Nat := 160

/-- Bytes of one band of 8 rows (R6, C1). -/
def bandBytes : Nat := 320

/-- Strips the device buffer holds, a host-side constant (R6). -/
def batchStrips : Nat := 9

/-- How many bands H_MAX has beyond the two it has at least.
OPEN in the spec (R7, D22). UNVERIFIED upper limit: TILE_H has 16 bits, so H_MAX is at most 65528 (log 9). -/
opaque extraBands : Fin 8190

/-- H_MAX, the largest matrix height: a multiple of 8, at least 16 (R7, R198; log 9). -/
def hMax : Nat := 8 * extraBands.val + 16

/-- The link peer's answer to the `n`-th `LinkXfer` where no answer is fixed beforehand (R93; log 5). A free value. -/
opaque linkReply : Nat → LinkReply

/-- An unspecified byte: RESP0, RESP1 after a faulting EXCHANGE (R91, U5; log 8). A free value. -/
opaque freeByte : Nat → Byte

/-- An unspecified 17-bit number: TX_FLEN after a faulting ENCODE (R90, U5; log 8). A free value. -/
opaque freeFlen : Nat → BitVec 17

/-- The compression flag that means "payload is raw" (R65). -/
def compRaw : Byte := 0x00

/-- PRESUMED (G1, D9; log 20): the compression flag that means "payload is a run-length stream". Only the host action
`routeRxData` reads it; TX and RX never do (R65). -/
def compRle : Byte := 0x01

end Sys2Proof.Config
end

