-- ==== Sys2Proof/Machine/Operands.lean ====
section
/-! DEFINITION. How bytes become numbers, frames, counts and pixels: the pure functions of rules R9, R61, R63, R68, R72, R74
and R75 that the decoder, the encoder and the meanings share. -/

namespace Sys2Proof.Machine

/-- Little-endian assembly, `lo + 256 * hi` (R9, R42). -/
def le16 (lo hi : Byte) : BitVec 16 := hi ++ lo

/-- `v mod 256` (R8). -/
def lo8 (v : Nat) : Byte := BitVec.ofNat 8 v

/-- `(v div 256) mod 256` (R8). -/
def hi8 (v : Nat) : Byte := BitVec.ofNat 8 (v / 256)

/-- The arithmetic sum of the bytes, an unbounded natural (R8). -/
def byteSum : List Byte → Nat
  | [] => 0
  | b :: bs => b.toNat + byteSum bs

/-- The frame check: header bytes and payload added modulo 65536 (R9, R63, R102). -/
def frameSum (cmd comp : Byte) (payload : List Byte) : BitVec 16 :=
  BitVec.ofNat 16
    (cmd.toNat + comp.toNat + (lo8 payload.length).toNat + (hi8 payload.length).toNat + byteSum payload)

/-- The frame of R61: magic, command, compression flag, length, payload, check, multi-byte values little-endian. -/
def frameBytes (cmd comp : Byte) (payload : List Byte) : List Byte :=
  [0x88, 0x33, cmd, comp, lo8 payload.length, hi8 payload.length] ++ payload ++
    [lo8 (frameSum cmd comp payload).toNat, hi8 (frameSum cmd comp payload).toNat]

/-- The margin byte of PRINT, `(top << 4) | bottom` (R68). -/
def marginByte (top bottom : BitVec 4) : Byte := top ++ bottom

/-- PRINT's payload, in the order of R67. -/
def printPayload (sheets : Byte) (top bottom : BitVec 4) (palette exposure : Byte) : List Byte :=
  [sheets, marginByte top bottom, palette, exposure]

/-- Bit 7 of a control byte selects the repeated run (R72). -/
def isRep (c : Byte) : Bool := c.getLsbD 7

/-- How many bytes follow the control byte `c` in the stream (R72, R73): 1 for REP, `c + 1` for LIT. -/
def runOperands (c : Byte) : Nat := if isRep c then 1 else c.toNat + 1

/-- How many copies the count field `n` of a REP stands for, `n + 2` (R72, R151). -/
def repCount (n : BitVec 7) : Nat := n.toNat + 2

/-- One bitplane byte of eight pixels, leftmost pixel in bit 7 (R74): lane `i` is bit `7 - i` (R199). -/
def planeByte (bit0to7 : List Bool) : Byte :=
  BitVec.ofNat 8 (bit0to7.foldl (fun acc b => 2 * acc + b.toNat) 0)

/-- The two bytes of one tile row: low bitplane, then high bitplane (R45, R74). -/
def tileRowBytes (px : List Pixel) : List Byte :=
  [planeByte (px.map fun p => p.getLsbD 0), planeByte (px.map fun p => p.getLsbD 1)]

/-- Lane `i` of a tile row's two bytes as a pixel (R192, R199). -/
def tileRowPixel (lo hi : Byte) (i : Nat) : Pixel :=
  BitVec.ofBool (hi.getLsbD (7 - i)) ++ BitVec.ofBool (lo.getLsbD (7 - i))

/-- Where the low plane byte of pixel `(y, x)` lies in a tile buffer (R75, R194); the high plane byte is the next one. -/
def tileIndex (y x : Nat) : Nat := 320 * (y / 8) + 16 * (x / 8) + 2 * (y % 8)

/-- The bytes of `v`, least significant first, `k` of them. -/
def leBytes : Nat → Nat → List Byte
  | 0, _ => []
  | k + 1, v => lo8 v :: leBytes k (v / 256)

end Sys2Proof.Machine
end

