-- ==== Sys2Proof/Syntax.lean ====
section
/-! DEFINITION. The instructions of GBP-FE in the sense of rule R4: one constructor for each row of the opcode table. -/

namespace Sys2Proof

/-- The three instruction families (R4): a number written to OP, a wire command frame, a run of the compressed stream. -/
inductive Family where
  | op
  | frame
  | run
  deriving DecidableEq, Repr

/-- One instruction (R4, R76, R64, R72). Family OP has no operands in its word; family FRAME carries the fields of its frame;
family RLE carries the run's control count and data. -/
inductive Instr where
  /-- OP 0x1 (R90). -/
  | encode
  /-- OP 0x2 (R91). -/
  | exchange
  /-- OP 0x3 (R94). -/
  | decodeStatus
  /-- OP 0x4 (R120). -/
  | addByte
  /-- OP 0x5 (R133). -/
  | verify
  /-- OP 0x6 (R134). -/
  | rxReset
  /-- OP 0x7 (R150). -/
  | decompress
  /-- OP 0x8 (R191). -/
  | pack
  /-- OP 0x9 (R192). -/
  | unpack
  /-- OP 0xA (R232). -/
  | faultClear
  /-- Wire command 0x01 (R95). -/
  | init
  /-- Wire command 0x02 (R96, R67, R68). -/
  | print (sheets : Byte) (top bottom : BitVec 4) (palette exposure : Byte)
  /-- Wire command 0x04 (R97): compression flag and payload. -/
  | data (comp : Byte) (payload : List Byte)
  /-- Wire command 0x08 (R98). -/
  | brk
  /-- Wire command 0x0F (R99). -/
  | status
  /-- Control byte `1nnnnnnn` and the value byte (R151): `n + 2` copies. -/
  | rep (n : BitVec 7) (value : Byte)
  /-- Control byte `0nnnnnnn` and its `n + 1` data bytes (R152). -/
  | lit (bytes : List Byte)
  deriving DecidableEq, Repr

/-- The family of an instruction (R4). -/
def Instr.family : Instr → Family
  | .encode => .op
  | .exchange => .op
  | .decodeStatus => .op
  | .addByte => .op
  | .verify => .op
  | .rxReset => .op
  | .decompress => .op
  | .pack => .op
  | .unpack => .op
  | .faultClear => .op
  | .init => .frame
  | .print _ _ _ _ _ => .frame
  | .data _ _ => .frame
  | .brk => .frame
  | .status => .frame
  | .rep _ _ => .run
  | .lit _ => .run

end Sys2Proof
end

