-- ==== Sys2Proof/Machine/State.lean ====
section
/-! DEFINITION. The state of GBP-FE as plain data (10_state.md): every register of R11, every buffer of R25, what the spec keeps
without a register, the model's own fields for host and link peer, the reasons to stop, and the state after reset (R36). -/

namespace Sys2Proof.Machine

/-- A buffer: index and content pairs, indexes strictly rising; an index not listed has no value (R37, D34; log 6).
`Memory 8` is a list of `Host.Cell`. -/
abbrev Memory (n : Nat) := List (Nat × BitVec n)

/-- The seven buffers (R25, R40). -/
inductive BufName where
  | txp
  | txf
  | rxb
  | rli
  | rlo
  | til
  | pix
  deriving DecidableEq, Repr

/-- The eleven parser states in GBP's order (R23). Codes 11 to 15 never occur, so they are no value of this type (log 16). -/
inductive RxState where
  | empty
  | preamblePartial
  | preambleDone
  | headerPartial
  | headerDone
  | dataPartial
  | dataDone
  | checksumPartial
  | checksumDone
  | responsePartial
  | complete
  deriving DecidableEq, Repr

/-- The nine operation faults (R217). -/
inductive OpFault where
  | payloadTooLarge
  | readTimeout
  | alreadyComplete
  | truncated
  | lengthMismatch
  | badHeight
  | badLength
  | illegalOp
  | notReady
  deriving DecidableEq, Repr

/-- What the write to OP returns (R13, R216): `ok`, or the fault's code with its `info` where the fault has one (log 11). -/
inductive OpResult where
  | ok
  | fault (code : BitVec 8) (info : Option Nat)
  deriving DecidableEq, Repr

/-- Which operation is in progress step by step (R92, R157). Whole operations begin and end idle (log 3). -/
inductive Activity where
  | idle
  | exchanging
  | decompressing
  deriving DecidableEq, Repr

/-- The read-only views of the packet (R28). -/
inductive View where
  | type
  | comp
  | dsize
  | data
  | chk
  | resp0
  | resp1
  deriving DecidableEq, Repr

/-- Where the host takes a number from that it writes to a register (R57). -/
inductive HostVal where
  | lit (v : Nat)
  | reg (n : Nat)
  | buf (b : BufName) (i : Nat)
  | view (v : View)
  deriving DecidableEq, Repr

/-- One action of the host (R34, R57, R80, R173; log 1). -/
inductive HostAction where
  /-- Write OP: the operation runs whole (R13, R91, R150). -/
  | opWrite (w : BitVec 4)
  /-- Write OP: EXCHANGE and DECOMPRESS run in the step form (R92, R157); every other number as `opWrite` (log 3). -/
  | opWriteStepped (w : BitVec 4)
  /-- Write a register by number; number 0 is OP (R11). -/
  | regWrite (n : Nat) (v : HostVal)
  /-- Read a register by number (R11, R34). -/
  | regRead (n : Nat)
  /-- Write bytes to a byte buffer from index `i` on (R34). -/
  | bufWrite (b : BufName) (i : Nat) (bytes : List Byte)
  /-- Read one byte of a byte buffer (R34). -/
  | bufRead (b : BufName) (i : Nat)
  /-- Write one pixel (R34). -/
  | pixWrite (y x : Nat) (p : Pixel)
  /-- Read one pixel (R34). -/
  | pixRead (y x : Nat)
  /-- Read a view of the packet (R28, R34). -/
  | viewRead (v : View)
  /-- Copy `n` bytes between byte buffers (R57). -/
  | copy (src : BufName) (i : Nat) (dst : BufName) (j n : Nat)
  /-- Take the packet's data where its compression flag sends it: RLI with RLE_ILEN, or TIL (R57, R65; log 20). -/
  | routeRxData
  /-- SEND a frame of an assigned command id, given as its bytes (R80, R101; logs 2, 25). -/
  | send (frame : List Byte)
  /-- Poll until the printing flag clears (R173 step 5, R176; log 14). -/
  | waitPrinted
  /-- The exit test of `waitPrinted` (R173; log 14). -/
  | testPrinted
  deriving DecidableEq, Repr

/-- Why the machine stops with a fault. No state a run reaches does so: R48 says that no operation computes such an index. -/
inductive Fault where
  /-- Raised by ADD_BYTE whose RX_N lies at or beyond the size of RXB (R48). Safe: the model stops (log 13). -/
  | noSuchIndex (b : BufName) (i : Nat)
  /-- Raised by the step form of EXCHANGE when TX_IDX is past the last exchange, and by the whole form of DECOMPRESS if its
  runs did not end within the input's length. Safe: the model stops (log 13). -/
  | sequenceLost
  deriving DecidableEq, Repr

/-- Why the model gives no meaning. -/
inductive Refusal where
  /-- An instruction without a meaning yet; answered by `exec` only. Safe. -/
  | notModelled (mnemonic : String)
  /-- An operation or the host reads a buffer index that has no value (R37, U5, U7). Safe (log 6). -/
  | unwritten (b : BufName)
  /-- A host access outside a buffer (R48, U11). Safe. -/
  | outOfRange (b : BufName) (i : Nat)
  /-- A host write to TXF, RXB or RLO (R34, U11). Safe. -/
  | bufferReadOnly (b : BufName)
  /-- A byte access to PIX, or a copy that names it: PIX holds pixels (R40, R46). Safe. -/
  | notAByteBuffer
  /-- A register number 21 or above (R11). Safe. -/
  | noSuchRegister (n : Nat)
  /-- A host read of OP (R13, U11). Safe. -/
  | registerWriteOnly (n : Nat)
  /-- A host write to a register that is read-only to the host (R11). Safe. -/
  | registerReadOnly (n : Nat)
  /-- A host write of a number the register's width does not hold. Safe (log 12). -/
  | valueTooWide (n : Nat)
  /-- A host read of TX_FLEN, RESP0 or RESP1 while its value is unspecified (U5). Safe (log 8). -/
  | registerUnspecified (n : Nat)
  /-- A host read of a view that is not valid (R28, U11). Safe. -/
  | invalidView (v : View)
  /-- A view of several bytes used as one number. Safe. -/
  | notANumber
  /-- A SEND of a command id that R64 does not assign (R77, D36, U9). Safe. -/
  | unassignedCommand (cmd : Byte)
  /-- A SEND of bytes that are not one frame: magic, length or check are not those of R61 to R63 (R77, R80). Safe (log 25). -/
  | notAFrame
  /-- The packet's data under a reserved compression flag (R77, U8). Safe. -/
  | reservedCompression
  /-- Routing the data of a packet that is no DATA command: the flag has no meaning there (R65). Safe (log 20). -/
  | notADataPacket
  deriving DecidableEq, Repr

/-- The state. Registers by the names of R11; the last eight fields are the model's own (log 10). -/
structure State where
  /-- FAULT (R14). -/
  fault : BitVec 8
  /-- TX_CMD (R15). -/
  txCmd : Byte
  /-- TX_COMP (R15). -/
  txComp : Byte
  /-- TX_PLEN (R16). -/
  txPlen : BitVec 17
  /-- TX_FLEN (R17). -/
  txFlen : BitVec 17
  /-- TX_STAT: bit 0 FVALID, bit 1 RVALID (R18). -/
  txStat : BitVec 2
  /-- TX_IDX (R19). -/
  txIdx : BitVec 17
  /-- RESP0, the keepalive (R20). -/
  resp0 : Byte
  /-- RESP1, the flags (R20). -/
  resp1 : Byte
  /-- COND (R21). -/
  cond : BitVec 10
  /-- RX_IN (R22). -/
  rxIn : Byte
  /-- RX_STATE (R23). -/
  rxState : RxState
  /-- RX_N (R24). -/
  rxN : BitVec 17
  /-- RX_SUM (R26). -/
  rxSum : BitVec 16
  /-- RX_STAT: bit 0 CVALID, bit 1 COK (R27). -/
  rxStat : BitVec 2
  /-- RLE_ILEN (R29). -/
  rleIlen : BitVec 16
  /-- RLE_IP (R12, R29). -/
  rleIp : BitVec 17
  /-- RLE_OCNT (R29). -/
  rleOcnt : BitVec 24
  /-- TILE_H (R30). -/
  tileH : BitVec 16
  /-- TILE_LEN (R30). -/
  tileLen : BitVec 24
  /-- TXP, the payload for ENCODE (R25). -/
  txp : Memory 8
  /-- TXF, the encoded frame (R25). -/
  txf : Memory 8
  /-- RXB, the incoming packet (R25). -/
  rxb : Memory 8
  /-- RLI, the compressed input (R25). -/
  rli : Memory 8
  /-- RLO, the decompressed output (R25). -/
  rlo : Memory 8
  /-- TIL, the tile buffer (R25). -/
  til : Memory 8
  /-- PIX, pixel `(y, x)` at index `160 * y + x` (R25; log 23). -/
  pix : Memory 2
  /-- The result of the last write to OP (R13, R216). -/
  result : Option OpResult
  /-- The operation in progress step by step (R92, R157). -/
  activity : Activity
  /-- What the host does next (log 1). -/
  host : List HostAction
  /-- What the host's last read returned (log 11). -/
  readback : List Nat
  /-- The link peer's replies fixed so far, next first (R93; log 5). -/
  peer : List LinkReply
  /-- How many `LinkXfer` calls there were (log 5). -/
  linkN : Nat
  /-- The bytes the link peer has received, oldest first (R50; log 24). -/
  sent : List Byte
  /-- The counter the free values are applied to (log 8). -/
  freeN : Nat
  /-- False while TX_FLEN is unspecified (R90, U5; log 8). -/
  txFlenKnown : Bool
  /-- False while RESP0 and RESP1 are unspecified (R91, U5; log 8). -/
  respKnown : Bool
  deriving DecidableEq, Repr

/-- The state after the block-wide reset (R36, R246): every register zero, the parser EMPTY, no buffer byte with a value, the
block idle. -/
def State.reset : State where
  fault := 0
  txCmd := 0
  txComp := 0
  txPlen := 0
  txFlen := 0
  txStat := 0
  txIdx := 0
  resp0 := 0
  resp1 := 0
  cond := 0
  rxIn := 0
  rxState := .empty
  rxN := 0
  rxSum := 0
  rxStat := 0
  rleIlen := 0
  rleIp := 0
  rleOcnt := 0
  tileH := 0
  tileLen := 0
  txp := []
  txf := []
  rxb := []
  rli := []
  rlo := []
  til := []
  pix := []
  result := none
  activity := .idle
  host := []
  readback := []
  peer := []
  linkN := 0
  sent := []
  freeN := 0
  txFlenKnown := true
  respKnown := true

end Sys2Proof.Machine
end

