-- ==== Sys2Proof/Machine/Ops.lean ====
section
/-! DEFINITION. The shared operations: reading and writing buffers (R8, R46, R48), ending an operation, taking a fault (R216)
and clearing one (R232), and one exchange on the link (R93). -/

namespace Sys2Proof.Machine

/-! ### Buffers -/

/-- The content at an index; an index not listed has no value (R37). -/
def Memory.read {n : Nat} : Memory n → Nat → Option (BitVec n)
  | [], _ => none
  | (k, v) :: m, a => if a = k then some v else Memory.read m a

/-- `MemRead(BUF, i, n)` (R8): the `len` contents from index `i` on, if each of them has a value. -/
def Memory.readRange {n : Nat} (m : Memory n) (i : Nat) : Nat → Option (List (BitVec n))
  | 0 => some []
  | len + 1 =>
    match Memory.read m i, Memory.readRange m (i + 1) len with
    | some v, some vs => some (v :: vs)
    | _, _ => none

/-- Consecutive cells from index `i` on. -/
def cellsFrom {n : Nat} : Nat → List (BitVec n) → Memory n
  | _, [] => []
  | i, v :: vs => (i, v) :: cellsFrom (i + 1) vs

/-- `MemWrite(BUF, i, n, s)` (R8): the sequence `vs` stored from index `i` on; every other index as before. -/
def Memory.splice {n : Nat} (m : Memory n) (i : Nat) (vs : List (BitVec n)) : Memory n :=
  m.filter (fun c => decide (c.1 < i)) ++ cellsFrom i vs ++ m.filter (fun c => decide (i + vs.length ≤ c.1))

/-- Indexes strictly rising: the one form of a buffer's contents. Every listed index has a value, so no entry repeats what an
unlisted index reads as (log 6). -/
abbrev Memory.wf {n : Nat} (m : Memory n) : Prop := m.Pairwise (fun a b => a.1 < b.1)

/-- Every listed index lies below `size` (R48). -/
abbrev Memory.below {n : Nat} (m : Memory n) (size : Nat) : Prop := ∀ c ∈ m, c.1 < size

/-- Sizes of the buffers (R25): bytes, and pixels for PIX. -/
def BufName.size : BufName → Nat
  | .txp => 65535
  | .txf => 65543
  | .rxb => 65545
  | .rli => 65535
  | .rlo => 640
  | .til => 40 * Config.hMax
  | .pix => 160 * Config.hMax

/-- `for k in 0 .. count-1` over pieces of a sequence, each of which may lack a value. -/
def collect {α : Type} : (count : Nat) → (Nat → Option (List α)) → Option (List α)
  | 0, _ => some []
  | count + 1, f =>
    match collect count f, f count with
    | some xs, some ys => some (xs ++ ys)
    | _, _ => none

/-! ### How an operation ends -/

/-- Fault codes (R217). -/
def OpFault.code : OpFault → BitVec 8
  | .payloadTooLarge => 0x01
  | .readTimeout => 0x02
  | .alreadyComplete => 0x03
  | .truncated => 0x04
  | .lengthMismatch => 0x05
  | .badHeight => 0x06
  | .badLength => 0x07
  | .illegalOp => 0x08
  | .notReady => 0x09

/-- Taking a fault (R216): FAULT takes the code if it holds none, the result of the write to OP is the fault, the block is
idle. Nothing is saved and nothing else changes. -/
def State.raise (f : OpFault) (info : Option Nat) (s : State) : State :=
  { s with
    fault := if s.fault = 0x00 then f.code else s.fault
    result := some (.fault f.code info)
    activity := .idle }

/-- An operation ends `ok` (R13): the block is idle. -/
def State.endOk (s : State) : State :=
  { s with result := some .ok, activity := .idle }

/-- The counterpart of `State.raise`, FAULT_CLEAR's effect (R232): it restores nothing, because a fault saves nothing. -/
def State.clearFault (s : State) : State :=
  { s with fault := 0x00 }

/-! ### The link -/

/-- The reply the next `LinkXfer` gets: the first one fixed beforehand, else the oracle's (R93; log 5). -/
def State.nextReply (s : State) : LinkReply :=
  match s.peer with
  | r :: _ => r
  | [] => Config.linkReply s.linkN

/-- `LinkXfer(b)` (R93): the byte goes out, exactly one answer comes back. A byte without an answer counts as sent (R91). -/
def linkXfer (b : Byte) (s : State) : LinkReply × State :=
  (s.nextReply, { s with peer := s.peer.tail, linkN := s.linkN + 1, sent := s.sent ++ [b] })

end Sys2Proof.Machine
end

