-- ==== Sys2Proof/Machine/Control.lean ====
section
/-! DEFINITION. FAULT_CLEAR, the return from a fault (R232). -/

namespace Sys2Proof.Machine

open Host (Outcome)

/-- FAULT_CLEAR (R232). -/
def execFaultClear (s : State) : Outcome State Fault Refusal := .next (State.endOk s.clearFault)

end Sys2Proof.Machine
end

