-- ==== Sys2Proof/WellFormed.lean ====
section
/-! DEFINITION. Which instructions have an encoding: the checks the types of `Instr` do not make. -/

namespace Sys2Proof

/-- A DATA payload has at most 65535 bytes (R62, R97); a literal run has 1 to 128 bytes (R72, R152).
Every other field is in range by its type. -/
def Instr.wf : Instr → Bool
  | .encode => true
  | .exchange => true
  | .decodeStatus => true
  | .addByte => true
  | .verify => true
  | .rxReset => true
  | .decompress => true
  | .pack => true
  | .unpack => true
  | .faultClear => true
  | .init => true
  | .print _ _ _ _ _ => true
  | .data _ payload => decide (payload.length ≤ Config.lenMax)
  | .brk => true
  | .status => true
  | .rep _ _ => true
  | .lit bytes => decide (1 ≤ bytes.length) && decide (bytes.length ≤ 128)

end Sys2Proof
end

