-- ==== Sys2Proof/Decode.lean ====
section
/-! DEFINITION. The decoder, total on any bytes and rejecting by name, and the encoder, both from rules R61 to R68 (frames), R72,
R73 (runs) and R76 (operation numbers); the opcode table's rows as data; and the host's reading of a table word. -/

namespace Sys2Proof

open Sys2Proof.Machine

/-- Why bytes are no instruction. -/
inductive DecodeError where
  /-- There is no byte to decode. -/
  | empty
  /-- An operation number 0x0 or 0xB to 0xF (R77). -/
  | reservedOp
  /-- The first two bytes are not 0x88 0x33 (R61). -/
  | badMagic
  /-- The bytes end inside the frame or the run (R73, R78). -/
  | truncated
  /-- The two check bytes are not the frame sum (R63). -/
  | badChecksum
  /-- A command id that is not assigned (R64, R77). -/
  | unassignedCommand
  /-- The payload or the flag is not the shape the command has (R65, R66, R95 to R99). -/
  | badShape
  deriving DecidableEq, Repr

/-- The operation a 4-bit number selects (R76). -/
def decodeOp (w : BitVec 4) : Except DecodeError Instr :=
  match w.toNat with
  | 1 => .ok .encode
  | 2 => .ok .exchange
  | 3 => .ok .decodeStatus
  | 4 => .ok .addByte
  | 5 => .ok .verify
  | 6 => .ok .rxReset
  | 7 => .ok .decompress
  | 8 => .ok .pack
  | 9 => .ok .unpack
  | 10 => .ok .faultClear
  | _ => .error .reservedOp

/-- A command without a payload: flag 0x00 and length 0 (R66, R95, R98, R99). -/
def bareCommand (i : Instr) (comp : Byte) (payload : List Byte) : Except DecodeError Instr :=
  if comp = 0x00 ∧ payload = [] then .ok i else .error .badShape

/-- PRINT's fields from its flag and payload (R67, R68, R96). -/
def printCommand (comp : Byte) : List Byte → Except DecodeError Instr
  | [sheets, margin, palette, exposure] =>
    if comp = 0x00 then
      .ok (.print sheets (margin.extractLsb' 4 4) (margin.extractLsb' 0 4) palette exposure)
    else .error .badShape
  | _ => .error .badShape

/-- The wire command with this id, flag and payload (R64 to R68). -/
def decodeCommand (cmd comp : Byte) (payload : List Byte) : Except DecodeError Instr :=
  match cmd.toNat with
  | 0x01 => bareCommand .init comp payload
  | 0x02 => printCommand comp payload
  | 0x04 => .ok (.data comp payload)
  | 0x08 => bareCommand .brk comp payload
  | 0x0F => bareCommand .status comp payload
  | _ => .error .unassignedCommand

/-- The command ids R64 assigns. -/
def assignedCommand (cmd : Byte) : Bool :=
  match cmd.toNat with
  | 0x01 => true
  | 0x02 => true
  | 0x04 => true
  | 0x08 => true
  | 0x0F => true
  | _ => false

/-- What a frame says: command id, compression flag, payload (R61). -/
structure Frame where
  cmd : Byte
  comp : Byte
  payload : List Byte
  deriving DecidableEq, Repr

/-- After the header: payload, check, and whatever follows the frame (R61, R63, R78). -/
def readFrameBody (cmd comp : Byte) (len : Nat) (rest : List Byte) : Except DecodeError (Frame × List Byte) :=
  match rest.drop len with
  | cl :: ch :: tail =>
    if le16 cl ch = frameSum cmd comp (rest.take len) then .ok ({ cmd, comp, payload := rest.take len }, tail)
    else .error .badChecksum
  | _ => .error .truncated

/-- The frame at the head of a byte stream, whatever its command id and payload shape (R61, R62, R66, R78). -/
def readFrame : List Byte → Except DecodeError (Frame × List Byte)
  | m0 :: m1 :: cmd :: comp :: lo :: hi :: rest =>
    if m0 = 0x88 ∧ m1 = 0x33 then readFrameBody cmd comp (le16 lo hi).toNat rest else .error .badMagic
  | [] => .error .empty
  | _ => .error .truncated

/-- The wire command at the head of a byte stream: a frame whose id, flag and payload are those of a row of the table (R64 to
R68). -/
def decodeFrame (bytes : List Byte) : Except DecodeError (Instr × List Byte) :=
  match readFrame bytes with
  | .ok (f, tail) => (decodeCommand f.cmd f.comp f.payload).map fun i => (i, tail)
  | .error e => .error e

/-- The run at the head of a compressed stream (R72, R73). -/
def decodeRun : List Byte → Except DecodeError (Instr × List Byte)
  | [] => .error .empty
  | c :: rest =>
    if rest.length < runOperands c then .error .truncated
    else if isRep c then .ok (.rep (c.setWidth 7) (rest.headD 0), rest.drop 1)
    else .ok (.lit (rest.take (runOperands c)), rest.drop (runOperands c))

/-- The operation in a byte that holds a 4-bit number (R13, R76). -/
def decodeOpByte : List Byte → Except DecodeError (Instr × List Byte)
  | [] => .error .empty
  | b :: rest =>
    if b.toNat < 16 then (decodeOp (b.setWidth 4)).map fun i => (i, rest) else .error .reservedOp

/-- The decoder: a family is selected by where the bytes come from (the OP register, the wire, the compressed stream; R60). -/
def decode (f : Family) (bytes : List Byte) : Except DecodeError (Instr × List Byte) :=
  match f with
  | .op => decodeOpByte bytes
  | .frame => decodeFrame bytes
  | .run => decodeRun bytes

/-- The bytes of an instruction: its operation number (R76), its frame (R61, R95 to R99), its run (R72, R79). -/
def encode : Instr → List Byte
  | .encode => [0x01]
  | .exchange => [0x02]
  | .decodeStatus => [0x03]
  | .addByte => [0x04]
  | .verify => [0x05]
  | .rxReset => [0x06]
  | .decompress => [0x07]
  | .pack => [0x08]
  | .unpack => [0x09]
  | .faultClear => [0x0A]
  | .init => frameBytes 0x01 0x00 []
  | .print sheets top bottom palette exposure =>
    frameBytes 0x02 0x00 (printPayload sheets top bottom palette exposure)
  | .data comp payload => frameBytes 0x04 comp payload
  | .brk => frameBytes 0x08 0x00 []
  | .status => frameBytes 0x0F 0x00 []
  | .rep n value => [1#1 ++ n, value]
  | .lit bytes => lo8 (bytes.length - 1) :: bytes

/-- A row of the opcode table: at which byte of the encoding the pattern is matched, under which mask, to which value. -/
structure TableRow where
  mnemonic : String
  family : Family
  offset : Nat
  mask : Byte
  value : Byte
  deriving DecidableEq, Repr

/-- The row of the opcode table an instruction belongs to (R64, R72, R76). -/
def Instr.row : Instr → TableRow
  | .encode => ⟨"ENCODE", .op, 0, 0x0F, 0x01⟩
  | .exchange => ⟨"EXCHANGE", .op, 0, 0x0F, 0x02⟩
  | .decodeStatus => ⟨"DECODE_STATUS", .op, 0, 0x0F, 0x03⟩
  | .addByte => ⟨"ADD_BYTE", .op, 0, 0x0F, 0x04⟩
  | .verify => ⟨"VERIFY", .op, 0, 0x0F, 0x05⟩
  | .rxReset => ⟨"RX_RESET", .op, 0, 0x0F, 0x06⟩
  | .decompress => ⟨"DECOMPRESS", .op, 0, 0x0F, 0x07⟩
  | .pack => ⟨"PACK", .op, 0, 0x0F, 0x08⟩
  | .unpack => ⟨"UNPACK", .op, 0, 0x0F, 0x09⟩
  | .faultClear => ⟨"FAULT_CLEAR", .op, 0, 0x0F, 0x0A⟩
  | .init => ⟨"INIT", .frame, 2, 0xFF, 0x01⟩
  | .print _ _ _ _ _ => ⟨"PRINT", .frame, 2, 0xFF, 0x02⟩
  | .data _ _ => ⟨"DATA", .frame, 2, 0xFF, 0x04⟩
  | .brk => ⟨"BREAK", .frame, 2, 0xFF, 0x08⟩
  | .status => ⟨"STATUS", .frame, 2, 0xFF, 0x0F⟩
  | .rep _ _ => ⟨"REP", .run, 0, 0x80, 0x80⟩
  | .lit _ => ⟨"LIT", .run, 0, 0x80, 0x00⟩

/-- The encoding of the instruction carries its row's pattern at its row's byte. -/
def Instr.matchesRow (i : Instr) : Bool :=
  match (Sys2Proof.encode i)[i.row.offset]? with
  | some b => b &&& i.row.mask == i.row.value
  | none => false

/-- Which family a table word is read as. The table's families overlap as bare words, so a word of one byte is read as the
first row, in the table's order, that it matches (log 4). -/
def tableFamily (nbits w : Nat) : Family :=
  if nbits < 8 then .op
  else if nbits = 8 then
    if 1 ≤ w ∧ w ≤ 10 then .op else if w = 0x0F then .frame else .run
  else if w % 65536 = 0x3388 then .frame
  else .run

/-- The bytes a table word stands for. A one-byte word of family FRAME is the command id (the table's `matched_byte`), inside
a frame whose operands are 0; a run's operand bytes are 0 (log 4). -/
def tableBytes (nbits w : Nat) : List Byte :=
  match tableFamily nbits w with
  | .op => [lo8 (w % 16)]
  | .frame =>
    if nbits = 8 then frameBytes (lo8 w) 0x00 [] else leBytes ((nbits + 7) / 8) w
  | .run => leBytes ((nbits + 7) / 8) w ++ List.replicate (runOperands (lo8 w)) 0x00

/-- The instruction the decoder reads from a word of the opcode table (log 4). -/
def decodeTableWord (nbits w : Nat) : Option Instr :=
  match decode (tableFamily nbits w) (tableBytes nbits w) with
  | .ok (i, _) => some i
  | .error _ => none

end Sys2Proof
end

