-- ==== Sys2Proof/Machine/Rle.lean ====
section
/-! DEFINITION. The RLE unit (43_decompressor.md): DECOMPRESS whole and run by run, the runs REP and LIT, and the unit as a pure
function of its input (R157). -/

namespace Sys2Proof.Machine

open Host (Outcome)

/-- `emit` of R150 for a sequence: what fits below index 640 is stored, all of it is counted (R155). -/
def emit (bs : List Byte) (s : State) : State :=
  { s with
    rlo := s.rlo.splice s.rleOcnt.toNat (bs.take (Config.stripBytes - s.rleOcnt.toNat))
    rleOcnt := s.rleOcnt + BitVec.ofNat 24 bs.length }

/-- RLE_IP moves past a run of `len` input bytes (R151, R152). -/
def advanceIp (len : Nat) (s : State) : State := { s with rleIp := s.rleIp + BitVec.ofNat 17 len }

/-- A REP run with its value byte present (R151). -/
def repRun (n : BitVec 7) (value : Byte) (s : State) : State :=
  advanceIp 2 (emit (List.replicate (repCount n) value) s)

/-- A LIT run with its data bytes present (R152). -/
def litRun (bytes : List Byte) (s : State) : State :=
  advanceIp (1 + bytes.length) (emit bytes s)

/-- The input ends inside the run at RLE_IP (R154, R221): RLO has no value (R155; log 7). -/
def rleTruncate (s : State) : State :=
  State.raise .truncated (some s.rleIp.toNat) { s with rlo := [] }

/-- The input is exhausted at a run boundary (R150, R153, R222). -/
def rleFinish (s : State) : State :=
  if s.rleOcnt.toNat = Config.stripBytes then State.endOk s
  else State.raise .lengthMismatch (some s.rleOcnt.toNat) { s with rlo := [] }

/-- DECOMPRESS starts (R150). -/
def rleStart (s : State) : State := { s with rleIp := 0, rleOcnt := 0 }

/-- What stands at RLI[RLE_IP]. -/
inductive RunFetch where
  | rep (n : BitVec 7) (value : Byte)
  | lit (bytes : List Byte)
  /-- The control byte's data bytes run past RLE_ILEN (R154). -/
  | truncated
  /-- A byte of the run has no value (R37). -/
  | unwritten
  deriving DecidableEq, Repr

/-- Reads the run at RLE_IP, below RLE_ILEN (R72, R150 to R152, R154). -/
def fetchRun (s : State) : RunFetch :=
  match s.rli.read s.rleIp.toNat with
  | none => .unwritten
  | some c =>
    if s.rleIlen.toNat < s.rleIp.toNat + 1 + runOperands c then .truncated
    else
      match s.rli.readRange s.rleIp.toNat (1 + runOperands c) with
      | none => .unwritten
      | some bytes =>
        match decodeRun bytes with
        | .ok (.rep n value, _) => .rep n value
        | .ok (.lit bs, _) => .lit bs
        | _ => .truncated

/-- The loop of R150, at most `fuel` runs. -/
def rleLoop : Nat → State → Outcome State Fault Refusal
  | 0, _ => .fault .sequenceLost
  | fuel + 1, s =>
    if s.rleIlen.toNat ≤ s.rleIp.toNat then .next (rleFinish s)
    else
      match fetchRun s with
      | .rep n value => rleLoop fuel (repRun n value s)
      | .lit bytes => rleLoop fuel (litRun bytes s)
      | .truncated => .next (rleTruncate s)
      | .unwritten => .refused (.unwritten .rli)

/-- DECOMPRESS (R150 to R156). Each run takes at least two input bytes, so RLE_ILEN + 1 rounds are enough. -/
def execDecompress (s : State) : Outcome State Fault Refusal :=
  rleLoop (s.rleIlen.toNat + 1) (rleStart s)

/-- The write of OP that starts DECOMPRESS run by run (R157; log 3). -/
def rleBegin (s : State) : State := { rleStart s with activity := .decompressing }

/-- REP (R151): the run at RLE_IP; Truncated when the control byte is the last input byte. -/
def execRep (n : BitVec 7) (value : Byte) (s : State) : Outcome State Fault Refusal :=
  if s.rleIlen.toNat ≤ s.rleIp.toNat + 1 then .next (rleTruncate s) else .next (repRun n value s)

/-- LIT (R152): the run at RLE_IP; Truncated when fewer bytes follow the control byte than it calls for. -/
def execLit (bytes : List Byte) (s : State) : Outcome State Fault Refusal :=
  if s.rleIlen.toNat < s.rleIp.toNat + 1 + bytes.length then .next (rleTruncate s)
  else .next (litRun bytes s)

/-! ### The unit as a pure function (R157) -/

/-- How DECOMPRESS of an input ends (R157): where the input pointer and the output count stand, and the output. -/
inductive Expansion where
  | ok (output : List Byte)
  | truncated (ip count : Nat)
  | lengthMismatch (count : Nat)
  deriving DecidableEq, Repr

/-- The expansion of the input that remains, with `ip` input bytes read and `out` emitted so far; `fuel` bounds the runs. -/
def expandFrom : Nat → Nat → List Byte → List Byte → Expansion
  | 0, ip, out, _ => .truncated ip out.length
  | _ + 1, _, out, [] => if out.length = 640 then .ok out else .lengthMismatch out.length
  | fuel + 1, ip, out, c :: rest =>
    if 0x80 ≤ c.toNat then
      match rest with
      | [] => .truncated ip out.length
      | v :: more => expandFrom fuel (ip + 2) (out ++ List.replicate (c.toNat - 0x80 + 2) v) more
    else if rest.length < c.toNat + 1 then .truncated ip out.length
    else expandFrom fuel (ip + 1 + (c.toNat + 1)) (out ++ rest.take (c.toNat + 1)) (rest.drop (c.toNat + 1))

/-- `decompress` of R157 as a function of the input bytes. -/
def expand (input : List Byte) : Expansion := expandFrom (input.length + 1) 0 [] input

end Sys2Proof.Machine
end

