-- ==== Sys2Proof/Machine/Flags.lean ====
section
/-! DEFINITION. Flag computations: the fields of TX_STAT (R18) and RX_STAT (R27), COND from a status pair (R21, R94) and the
names of conditions and fault classes (R20, R71, R228). -/

namespace Sys2Proof.Machine

/-- A two-bit register with bit 0 replaced. -/
def withBit0 (v : BitVec 2) (b : Bool) : BitVec 2 := BitVec.ofBool (v.getLsbD 1) ++ BitVec.ofBool b

/-- A two-bit register with bit 1 replaced. -/
def withBit1 (v : BitVec 2) (b : Bool) : BitVec 2 := BitVec.ofBool b ++ BitVec.ofBool (v.getLsbD 0)

/-- TX_STAT.FVALID: TXF holds an encoded frame (R18). -/
def State.fvalid (s : State) : Bool := s.txStat.getLsbD 0

/-- TX_STAT.RVALID: RESP0, RESP1 hold a status pair (R18). -/
def State.rvalid (s : State) : Bool := s.txStat.getLsbD 1

/-- RX_STAT.CVALID: VERIFY has run on the current packet (R27). -/
def State.cvalid (s : State) : Bool := s.rxStat.getLsbD 0

/-- RX_STAT.COK: at that VERIFY the received checksum equalled RX_SUM (R27). -/
def State.cok (s : State) : Bool := s.rxStat.getLsbD 1

/-- RX_STAT after a VERIFY that ended `ok`: CVALID is 1, COK the comparison (R133). -/
def verifyStat (matched : Bool) : BitVec 2 := BitVec.ofBool matched ++ 1#1

/-- The keepalive bytes of a live device (R6, R70). -/
def keepaliveLive (b : Byte) : Bool := b == 0x80 || b == 0x81

/-- COND from the status pair (R94): NotConnected comes first, OK only with no flag set, else the flags as bits 7:0. -/
def condOf (keepalive flags : Byte) : BitVec 10 :=
  if !keepaliveLive keepalive then 0b1000000000
  else if flags = 0x00 then 0b0100000000
  else flags.setWidth 10

/-- The ten conditions (R20, R21). -/
inductive Condition where
  | checksumError
  | busy
  | imageBufferFull
  | unprocessedData
  | packetError
  | paperJam
  | otherError
  | lowBattery
  | ok
  | notConnected
  deriving DecidableEq, Repr

/-- The condition of each bit of COND (R21). -/
def condNames : List (Nat × Condition) :=
  [(0, .checksumError), (1, .busy), (2, .imageBufferFull), (3, .unprocessedData), (4, .packetError),
   (5, .paperJam), (6, .otherError), (7, .lowBattery), (8, .ok), (9, .notConnected)]

/-- COND as GBP's list: the set bits in ascending bit index (R21, R94). -/
def conditions (c : BitVec 10) : List Condition :=
  (condNames.filter fun p => c.getLsbD p.1).map (·.2)

/-- The printing flag, bit 1 of the flags byte (R71, R175). -/
def printingFlag (flags : Byte) : Bool := flags.getLsbD 1

/-- GBP's classes of errors (R228). -/
inductive GbpClass where
  | transportError
  | protocolError
  | encodeError
  /-- A fault GBP does not have (R217). -/
  | none
  deriving DecidableEq, Repr

/-- GBP's class of each fault (R217, R228). -/
def OpFault.gbpClass : OpFault → GbpClass
  | .payloadTooLarge => .encodeError
  | .readTimeout => .transportError
  | .alreadyComplete => .protocolError
  | .truncated => .protocolError
  | .lengthMismatch => .protocolError
  | .badHeight => .none
  | .badLength => .none
  | .illegalOp => .none
  | .notReady => .none

end Sys2Proof.Machine
end

