-- ==== Sys2Proof/Machine/Rx.lean ====
section
/-! DEFINITION. The RX unit (42_packet_parser.md): ADD_BYTE with one rule per parser state, VERIFY, RX_RESET, and the views of the
packet (R28). -/

namespace Sys2Proof.Machine

open Host (Outcome)

/-- The numeric code of a parser state (R23). -/
def RxState.code : RxState → BitVec 4
  | .empty => 0
  | .preamblePartial => 1
  | .preambleDone => 2
  | .headerPartial => 3
  | .headerDone => 4
  | .dataPartial => 5
  | .dataDone => 6
  | .checksumPartial => 7
  | .checksumDone => 8
  | .responsePartial => 9
  | .complete => 10

/-- `data_size` from RXB[4] and RXB[5] (R28, R69). -/
def State.dataSize (s : State) : Option Nat :=
  match s.rxb.read 4, s.rxb.read 5 with
  | some lo, some hi => some (le16 lo hi).toNat
  | _, _ => none

/-- "store" of R120: the byte at RXB[RX_N], RX_N one more. -/
def rxStore (b : Byte) (s : State) : State :=
  { s with rxb := s.rxb.splice s.rxN.toNat [b], rxN := s.rxN + 1 }

/-- "store and sum" of R120 and R132. -/
def rxStoreSum (b : Byte) (s : State) : State :=
  { rxStore b s with rxSum := s.rxSum + b.setWidth 16 }

/-- The transition back to the initial state: RX_RESET's effect and the resync on a bad second preamble byte (R122, R134).
RXB's contents become unspecified: no value (U5; log 7). -/
def rxClear (s : State) : State :=
  { s with rxN := 0, rxSum := 0, rxStat := 0, rxState := .empty, rxb := [] }

/-- The byte has been accepted and the parser stands in `next`. -/
def rxAccept (next : RxState) (s : State) : Outcome State Fault Refusal :=
  .next (State.endOk { s with rxState := next })

/-- The sixth byte decides (R124): `len_hi` has been stored. -/
def rxHeaderByte (s : State) : Outcome State Fault Refusal :=
  if s.rxN = 6 then
    match s.dataSize with
    | some 0 => rxAccept .dataDone s
    | some _ => rxAccept .headerDone s
    | none => .refused (.unwritten .rxb)
  else rxAccept .headerPartial s

/-- A data byte has been stored (R125, R126): all `data_size` of them, or not yet. -/
def rxDataByte (s : State) : Outcome State Fault Refusal :=
  match s.dataSize with
  | some d => if s.rxN.toNat = 6 + d then rxAccept .dataDone s else rxAccept .dataPartial s
  | none => .refused (.unwritten .rxb)

/-- ADD_BYTE of the byte `b`, given that RXB has the index RX_N: rules R121 to R130 by parser state. -/
def rxByte (b : Byte) (s : State) : Outcome State Fault Refusal :=
  match s.rxState with
  | .empty =>
    if b = 0x88 then rxAccept .preamblePartial (rxStore b s) else .next (State.endOk s)
  | .preamblePartial =>
    if b = 0x33 then rxAccept .preambleDone (rxStore b s) else .next (State.endOk (rxClear s))
  | .preambleDone => rxAccept .headerPartial (rxStoreSum b s)
  | .headerPartial => rxHeaderByte (rxStoreSum b s)
  | .headerDone => rxDataByte (rxStoreSum b s)
  | .dataPartial => rxDataByte (rxStoreSum b s)
  | .dataDone => rxAccept .checksumPartial (rxStore b s)
  | .checksumPartial => rxAccept .checksumDone (rxStore b s)
  | .checksumDone => rxAccept .responsePartial (rxStore b s)
  | .responsePartial => rxAccept .complete (rxStore b s)
  | .complete => .next (State.raise .alreadyComplete (some b.toNat) s)

/-- ADD_BYTE (R120 to R132). In COMPLETE it faults and stores nothing (R131); in every other state RX_N is an index of RXB in
each state a run reaches (R48, R52), and the machine stops where it is not (log 13). -/
def execAddByte (s : State) : Outcome State Fault Refusal :=
  if s.rxState = .complete ∨ s.rxN.toNat < BufName.size .rxb then rxByte s.rxIn s
  else .fault (.noSuchIndex .rxb s.rxN.toNat)

/-- The two check bytes are in: VERIFY is legal (R133). -/
def RxState.checksumIn : RxState → Bool
  | .checksumDone => true
  | .responsePartial => true
  | .complete => true
  | .empty => false
  | .preamblePartial => false
  | .preambleDone => false
  | .headerPartial => false
  | .headerDone => false
  | .dataPartial => false
  | .dataDone => false
  | .checksumPartial => false

/-- The received check, `le16(RXB[6 + D], RXB[7 + D])` (R28, R133). -/
def State.receivedCheck (s : State) : Option (BitVec 16) :=
  match s.dataSize with
  | some d =>
    match s.rxb.read (6 + d), s.rxb.read (7 + d) with
    | some lo, some hi => some (le16 lo hi)
    | _, _ => none
  | none => none

/-- VERIFY (R133): a mismatch is a report, not a fault. -/
def execVerify (s : State) : Outcome State Fault Refusal :=
  if s.rxState.checksumIn then
    match s.receivedCheck with
    | some chk => .next (State.endOk { s with rxStat := verifyStat (chk == s.rxSum) })
    | none => .refused (.unwritten .rxb)
  else .next (State.raise .notReady none s)

/-- RX_RESET (R134), legal in every state. -/
def execRxReset (s : State) : Outcome State Fault Refusal := .next (State.endOk (rxClear s))

/-- FEED (R80): RX_IN and ADD_BYTE for each byte in order. -/
def feed : List Byte → State → Outcome State Fault Refusal
  | [], s => .next s
  | b :: bs, s =>
    match execAddByte { s with rxIn := b } with
    | .next s1 => feed bs s1
    | .fault f => .fault f
    | .refused r => .refused r

/-! ### Views (R28, R135) -/

/-- From which RX_N on a view is valid; none while `data_size` itself is not in (R28). -/
def State.viewNeeds (s : State) : View → Option Nat
  | .type => some 3
  | .comp => some 4
  | .dsize => some 6
  | .data => if 6 ≤ s.rxN.toNat then s.dataSize.map (6 + ·) else none
  | .chk => if 6 ≤ s.rxN.toNat then s.dataSize.map (8 + ·) else none
  | .resp0 => if 6 ≤ s.rxN.toNat then s.dataSize.map (10 + ·) else none
  | .resp1 => if 6 ≤ s.rxN.toNat then s.dataSize.map (10 + ·) else none

/-- Is the view valid (R28)? -/
def State.viewValid (s : State) (v : View) : Bool :=
  match s.viewNeeds v with
  | some k => decide (k ≤ s.rxN.toNat)
  | none => false

/-- The bytes a view is made of: first index and number (R28). -/
def viewBytes (d : Nat) : View → Nat × Nat
  | .type => (2, 1)
  | .comp => (3, 1)
  | .dsize => (4, 2)
  | .data => (6, d)
  | .chk => (6 + d, 2)
  | .resp0 => (8 + d, 1)
  | .resp1 => (9 + d, 1)

/-- The bytes of a view as the host reads them: RX_DSIZE and RX_CHK are one little-endian number, RX_DATA is its bytes. -/
def viewNumbers : View → List Byte → List Nat
  | .dsize, [lo, hi] => [(le16 lo hi).toNat]
  | .chk, [lo, hi] => [(le16 lo hi).toNat]
  | _, bs => bs.map BitVec.toNat

/-- Reading a view (R28, R34): an invalid one is refused (U11). -/
def State.readView (s : State) (v : View) : Except Refusal (List Nat) :=
  if s.viewValid v then
    match s.rxb.readRange (viewBytes (s.dataSize.getD 0) v).1 (viewBytes (s.dataSize.getD 0) v).2 with
    | some bs => .ok (viewNumbers v bs)
    | none => .error (.unwritten .rxb)
  else .error (.invalidView v)

end Sys2Proof.Machine
end

