-- ==== Sys2Proof/Machine/Tile.lean ====
section
/-! DEFINITION. The TILE unit (45_tile_repacker.md): PACK and UNPACK. -/

namespace Sys2Proof.Machine

open Host (Outcome)

/-- Index of pixel `(y, x)` in PIX (log 23). -/
def pixIndex (y x : Nat) : Nat := 160 * y + x

/-- The two bytes of tile row `r` of tile `t` in band `s` (R191). -/
def packTileRow (m : Memory 2) (s t r : Nat) : Option (List Byte) :=
  (m.readRange (pixIndex (8 * s + r) (8 * t)) 8).map tileRowBytes

/-- The bytes PACK writes for `bands` bands: band by band, tile by tile, row by row (R75, R191). -/
def packBytes (m : Memory 2) (bands : Nat) : Option (List Byte) :=
  collect bands fun s => collect 20 fun t => collect 8 fun r => packTileRow m s t r

/-- TILE_H is legal for PACK (R30, R191). -/
def heightLegal (h : Nat) : Bool := decide (h % 8 = 0) && decide (h ≤ Config.hMax)

/-- PACK (R191, R195): the legality test comes before any access. -/
def execPack (s : State) : Outcome State Fault Refusal :=
  if heightLegal s.tileH.toNat then
    match packBytes s.pix (s.tileH.toNat / 8) with
    | some bytes =>
      .next (State.endOk
        { s with til := s.til.splice 0 bytes, tileLen := BitVec.ofNat 24 (40 * s.tileH.toNat) })
    | none => .refused (.unwritten .pix)
  else .next (State.raise .badHeight (some s.tileH.toNat) s)

/-- Pixel `(y, x)` from the two bytes it lives in (R192, R194). -/
def unpackPixel (m : Memory 8) (y x : Nat) : Option Pixel :=
  match m.read (tileIndex y x), m.read (tileIndex y x + 1) with
  | some lo, some hi => some (tileRowPixel lo hi (x % 8))
  | _, _ => none

/-- The pixels UNPACK writes for `rows` rows, row by row; each pixel has exactly one place (R192, R194; log 27). -/
def unpackPixels (m : Memory 8) (rows : Nat) : Option (List Pixel) :=
  collect rows fun y => collect 160 fun x => (unpackPixel m y x).map fun p => [p]

/-- TILE_LEN is legal for UNPACK (R30, R192). -/
def lengthLegal (l : Nat) : Bool := decide (l % 320 = 0) && decide (l ≤ 40 * Config.hMax)

/-- UNPACK (R192, R195): the legality test comes before any access; rows at and beyond the height keep their contents. -/
def execUnpack (s : State) : Outcome State Fault Refusal :=
  if lengthLegal s.tileLen.toNat then
    match unpackPixels s.til (s.tileLen.toNat / 40) with
    | some px =>
      .next (State.endOk
        { s with pix := s.pix.splice 0 px, tileH := BitVec.ofNat 16 (s.tileLen.toNat / 40) })
    | none => .refused (.unwritten .til)
  else .next (State.raise .badLength (some s.tileLen.toNat) s)

end Sys2Proof.Machine
end

