-- ==== Sys2Proof/Machine/Tx.lean ====
section
/-! DEFINITION. The TX unit (41_frame_codec.md): ENCODE, EXCHANGE whole and step by step, DECODE_STATUS. -/

namespace Sys2Proof.Machine

open Host (Outcome)

/-! ### ENCODE (R90) -/

/-- The state ENCODE leaves when TX_PLEN exceeds the length field (R90, R218): no frame; TXF has no value and TX_FLEN is a free
value (U5; logs 7, 8). -/
def encodeTooLarge (s : State) : State :=
  State.raise .payloadTooLarge (some s.txPlen.toNat)
    { s with
      txStat := withBit0 s.txStat false
      txf := []
      txFlen := Config.freeFlen s.freeN
      txFlenKnown := false
      freeN := s.freeN + 1 }

/-- The state ENCODE leaves with the payload `p` (R90): the frame in TXF, its length in TX_FLEN, FVALID set. -/
def encodeFrame (p : List Byte) (s : State) : State :=
  State.endOk
    { s with
      txf := s.txf.splice 0 (frameBytes s.txCmd s.txComp p)
      txFlen := BitVec.ofNat 17 (8 + s.txPlen.toNat)
      txStat := withBit0 s.txStat true
      txFlenKnown := true }

/-- ENCODE as an operation, shared with the wire commands (R90). -/
def encodeOp (s : State) : Outcome State Fault Refusal :=
  if Config.lenMax < s.txPlen.toNat then .next (encodeTooLarge s)
  else
    match s.txp.readRange 0 s.txPlen.toNat with
    | some p => .next (encodeFrame p s)
    | none => .refused (.unwritten .txp)

/-- ENCODE (R90). -/
def execEncode (s : State) : Outcome State Fault Refusal := encodeOp s

/-! ### EXCHANGE (R91, R92) -/

/-- EXCHANGE starts: no status pair, no exchange done (R91). -/
def exchangeStart (s : State) : State :=
  { s with txStat := withBit1 s.txStat false, txIdx := 0 }

/-- One more exchange has completed (R19). -/
def bumpIdx (s : State) : State := { s with txIdx := s.txIdx + 1 }

/-- No answer to exchange TX_IDX (R91, R219): the exchange ends; RESP0, RESP1 are free values (U5; log 8). -/
def exchangeTimeout (s : State) : State :=
  State.raise .readTimeout (some s.txIdx.toNat)
    { s with
      resp0 := Config.freeByte s.freeN
      resp1 := Config.freeByte (s.freeN + 1)
      respKnown := false
      freeN := s.freeN + 2 }

/-- Both replies are in (R91): the status pair is valid and the operation ends `ok`. -/
def exchangeDone (r0 r1 : Byte) (s : State) : State :=
  State.endOk
    { s with resp0 := r0, resp1 := r1, txStat := withBit1 s.txStat true, respKnown := true }

/-- The two exchanges after the frame: a zero byte each, the replies are the status pair (R91). -/
def exchangeReplies (s : State) : State :=
  match linkXfer 0x00 s with
  | (.timeout, s1) => exchangeTimeout s1
  | (.reply r0, s1) =>
    match linkXfer 0x00 (bumpIdx s1) with
    | (.timeout, s2) => exchangeTimeout s2
    | (.reply r1, s2) => exchangeDone r0 r1 (bumpIdx s2)

/-- The frame bytes that remain, one exchange each, the replies discarded; then the status pair (R91). -/
def exchangeBytes : List Byte → State → State
  | [], s => exchangeReplies s
  | b :: bs, s =>
    match linkXfer b s with
    | (.timeout, s1) => exchangeTimeout s1
    | (.reply _, s1) => exchangeBytes bs (bumpIdx s1)

/-- EXCHANGE as an operation, shared with the wire commands (R91; log 17). Without a frame only FAULT changes, as R91's pseudocode,
R226 and vector V54 (RESP0, RESP1 "unchanged") say, so RVALID stays; R252's "RVALID = 0" is read of ReadTimeout (DEDUCED;
log 32). -/
def exchangeOp (s : State) : Outcome State Fault Refusal :=
  if s.fvalid then
    match s.txf.readRange 0 s.txFlen.toNat with
    | some frame => .next (exchangeBytes frame (exchangeStart s))
    | none => .refused (.unwritten .txf)
  else .next (State.raise .notReady none s)

/-- EXCHANGE (R91). -/
def execExchange (s : State) : Outcome State Fault Refusal := exchangeOp s

/-- The write of OP that starts EXCHANGE in the step form (R92; without a frame as `exchangeOp`, log 32). -/
def exchangeBegin (s : State) : State :=
  if s.fvalid then { exchangeStart s with activity := .exchanging } else State.raise .notReady none s

/-- `step(k)` of R92 for `k < F`, with `b` = TXF[k]: the reply is discarded. -/
def exchangeFrameStep (b : Byte) (s : State) : State :=
  match linkXfer b s with
  | (.timeout, s1) => exchangeTimeout s1
  | (.reply _, s1) => bumpIdx s1

/-- `step(F)` of R92: the first reply is held in RESP0, which R92 allows since RVALID is still 0 (log 18). -/
def exchangeFirstReply (s : State) : State :=
  match linkXfer 0x00 s with
  | (.timeout, s1) => exchangeTimeout s1
  | (.reply r0, s1) => { bumpIdx s1 with resp0 := r0 }

/-- `step(F+1)` of R92: the second reply completes the status pair. -/
def exchangeSecondReply (s : State) : State :=
  match linkXfer 0x00 s with
  | (.timeout, s1) => exchangeTimeout s1
  | (.reply r1, s1) => exchangeDone s1.resp0 r1 (bumpIdx s1)

/-- One step of EXCHANGE (R92). -/
def exchangeStep (s : State) : Outcome State Fault Refusal :=
  if s.txIdx.toNat < s.txFlen.toNat then
    match s.txf.read s.txIdx.toNat with
    | some b => .next (exchangeFrameStep b s)
    | none => .refused (.unwritten .txf)
  else if s.txIdx.toNat = s.txFlen.toNat then .next (exchangeFirstReply s)
  else if s.txIdx.toNat = s.txFlen.toNat + 1 then .next (exchangeSecondReply s)
  else .fault .sequenceLost

/-! ### DECODE_STATUS (R94) -/

/-- DECODE_STATUS (R94). -/
def execDecodeStatus (s : State) : Outcome State Fault Refusal :=
  if s.rvalid then .next (State.endOk { s with cond := condOf s.resp0 s.resp1 })
  else .next (State.raise .notReady none s)

end Sys2Proof.Machine
end

