-- ==== Sys2Proof/Machine/Wire.lean ====
section
/-! DEFINITION. The five wire commands (R95 to R99). Executing one is SEND of its frame (R80, R101; log 2). -/

namespace Sys2Proof.Machine

open Host (Outcome)

/-- The register and buffer writes of SEND (R80, R101). -/
def loadTx (cmd comp : Byte) (payload : List Byte) (s : State) : State :=
  { s with
    txCmd := cmd
    txComp := comp
    txPlen := BitVec.ofNat 17 payload.length
    txp := s.txp.splice 0 payload }

/-- SEND (R101): load, ENCODE, EXCHANGE; if ENCODE faults nothing is sent. A payload that TXP does not hold cannot be loaded
(R48). -/
def sendFrame (cmd comp : Byte) (payload : List Byte) (s : State) : Outcome State Fault Refusal :=
  if payload.length ≤ Config.lenMax then
    match encodeOp (loadTx cmd comp payload s) with
    | .next s1 => if s1.fvalid then exchangeOp s1 else .next s1
    | .fault f => .fault f
    | .refused r => .refused r
  else .refused (.outOfRange .txp (payload.length - 1))

/-- INIT (R95). -/
def execInit (s : State) : Outcome State Fault Refusal := sendFrame 0x01 0x00 [] s

/-- PRINT (R96). -/
def execPrint (sheets : Byte) (top bottom : BitVec 4) (palette exposure : Byte) (s : State) :
    Outcome State Fault Refusal :=
  sendFrame 0x02 0x00 (printPayload sheets top bottom palette exposure) s

/-- DATA (R97). -/
def execData (comp : Byte) (payload : List Byte) (s : State) : Outcome State Fault Refusal :=
  sendFrame 0x04 comp payload s

/-- BREAK (R98). -/
def execBreak (s : State) : Outcome State Fault Refusal := sendFrame 0x08 0x00 [] s

/-- STATUS (R99). -/
def execStatus (s : State) : Outcome State Fault Refusal := sendFrame 0x0F 0x00 [] s

end Sys2Proof.Machine
end

