-- ==== Sys2Proof/Machine/Dispatch.lean ====
section
/-! DEFINITION. One arm for each instruction. -/

namespace Sys2Proof.Machine

def exec (i : Instr) (s : State) : Host.Outcome State Fault Refusal :=
  match i with
  | .encode => Sys2Proof.Machine.execEncode s
  | .exchange => Sys2Proof.Machine.execExchange s
  | .decodeStatus => Sys2Proof.Machine.execDecodeStatus s
  | .addByte => Sys2Proof.Machine.execAddByte s
  | .verify => Sys2Proof.Machine.execVerify s
  | .rxReset => Sys2Proof.Machine.execRxReset s
  | .decompress => Sys2Proof.Machine.execDecompress s
  | .pack => Sys2Proof.Machine.execPack s
  | .unpack => Sys2Proof.Machine.execUnpack s
  | .faultClear => Sys2Proof.Machine.execFaultClear s
  | .init => Sys2Proof.Machine.execInit s
  | .print sheets top bottom palette exposure => Sys2Proof.Machine.execPrint sheets top bottom palette exposure s
  | .data comp payload => Sys2Proof.Machine.execData comp payload s
  | .brk => Sys2Proof.Machine.execBreak s
  | .status => Sys2Proof.Machine.execStatus s
  | .rep n value => Sys2Proof.Machine.execRep n value s
  | .lit bytes => Sys2Proof.Machine.execLit bytes s

end Sys2Proof.Machine
end

