-- ==== Sys2Proof/Machine/HostAccess.lean ====
section
/-! DEFINITION. What the host may do between operations (R11, R28, R34, R57): registers by number, buffers, pixels, views, copies.
What the spec forbids or gives no meaning is refused by name (U11). -/

namespace Sys2Proof.Machine

open Host (Outcome)

/-- Widths of the registers by number (R11). Numbers 21 and above do not exist. -/
def regWidth : Nat → Option Nat
  | 0 => some 4
  | 1 => some 8
  | 2 => some 8
  | 3 => some 8
  | 4 => some 17
  | 5 => some 17
  | 6 => some 2
  | 7 => some 17
  | 8 => some 8
  | 9 => some 8
  | 10 => some 10
  | 11 => some 8
  | 12 => some 4
  | 13 => some 17
  | 14 => some 16
  | 15 => some 2
  | 16 => some 16
  | 17 => some 17
  | 18 => some 24
  | 19 => some 16
  | 20 => some 24
  | _ => none

/-- A host read of a register (R11, R34). Reading has no side effect (R47). OP is not readable (R13); an unspecified value is
refused (U5; log 8). -/
def readRegister (n : Nat) (s : State) : Except Refusal Nat :=
  match n with
  | 0 => .error (.registerWriteOnly 0)
  | 1 => .ok s.fault.toNat
  | 2 => .ok s.txCmd.toNat
  | 3 => .ok s.txComp.toNat
  | 4 => .ok s.txPlen.toNat
  | 5 => if s.txFlenKnown then .ok s.txFlen.toNat else .error (.registerUnspecified 5)
  | 6 => .ok s.txStat.toNat
  | 7 => .ok s.txIdx.toNat
  | 8 => if s.respKnown then .ok s.resp0.toNat else .error (.registerUnspecified 8)
  | 9 => if s.respKnown then .ok s.resp1.toNat else .error (.registerUnspecified 9)
  | 10 => .ok s.cond.toNat
  | 11 => .ok s.rxIn.toNat
  | 12 => .ok s.rxState.code.toNat
  | 13 => .ok s.rxN.toNat
  | 14 => .ok s.rxSum.toNat
  | 15 => .ok s.rxStat.toNat
  | 16 => .ok s.rleIlen.toNat
  | 17 => .ok s.rleIp.toNat
  | 18 => .ok s.rleOcnt.toNat
  | 19 => .ok s.tileH.toNat
  | 20 => .ok s.tileLen.toNat
  | n => .error (.noSuchRegister n)

/-- The writable registers (R11): the number fits the register. -/
def setRegister (n x : Nat) (s : State) : Outcome State Fault Refusal :=
  match n with
  | 2 => .next { s with txCmd := BitVec.ofNat 8 x }
  | 3 => .next { s with txComp := BitVec.ofNat 8 x }
  | 4 => .next { s with txPlen := BitVec.ofNat 17 x }
  | 11 => .next { s with rxIn := BitVec.ofNat 8 x }
  | 16 => .next { s with rleIlen := BitVec.ofNat 16 x }
  | 19 => .next { s with tileH := BitVec.ofNat 16 x }
  | 20 => .next { s with tileLen := BitVec.ofNat 24 x }
  | n => .refused (.registerReadOnly n)

/-- A host write of a register other than OP (R11, R34; log 12). -/
def writeRegister (n x : Nat) (s : State) : Outcome State Fault Refusal :=
  match regWidth n with
  | none => .refused (.noSuchRegister n)
  | some w => if x < 2 ^ w then setRegister n x s else .refused (.valueTooWide n)

/-- The byte buffer of a name; PIX is none (R40). -/
def State.bytes (s : State) : BufName → Option (Memory 8)
  | .txp => some s.txp
  | .txf => some s.txf
  | .rxb => some s.rxb
  | .rli => some s.rli
  | .rlo => some s.rlo
  | .til => some s.til
  | .pix => none

/-- A host read of bytes (R34, R48): inside the buffer, each with a value. -/
def readBytes (b : BufName) (i n : Nat) (s : State) : Except Refusal (List Byte) :=
  match s.bytes b with
  | none => .error .notAByteBuffer
  | some m =>
    if i + n ≤ b.size then
      match m.readRange i n with
      | some bs => .ok bs
      | none => .error (.unwritten b)
    else .error (.outOfRange b (i + n - 1))

/-- A host write of bytes (R34, R48): TXP, RLI and TIL only, inside the buffer. -/
def writeBytes (b : BufName) (i : Nat) (bs : List Byte) (s : State) : Outcome State Fault Refusal :=
  if i + bs.length ≤ b.size then
    match b with
    | .txp => .next { s with txp := s.txp.splice i bs }
    | .rli => .next { s with rli := s.rli.splice i bs }
    | .til => .next { s with til := s.til.splice i bs }
    | .txf => .refused (.bufferReadOnly .txf)
    | .rxb => .refused (.bufferReadOnly .rxb)
    | .rlo => .refused (.bufferReadOnly .rlo)
    | .pix => .refused .notAByteBuffer
  else .refused (.outOfRange b (i + bs.length - 1))

/-- Row and column exist (R40). -/
def pixelExists (y x : Nat) : Bool := decide (y < Config.hMax) && decide (x < Config.width)

/-- Index of a pixel in PIX, as PACK and UNPACK use it (log 23). -/
def pixelAt (y x : Nat) : Nat := Config.width * y + x

/-- A host write of one pixel (R34, R46). -/
def writePixel (y x : Nat) (p : Pixel) (s : State) : Outcome State Fault Refusal :=
  if pixelExists y x then .next { s with pix := s.pix.splice (pixelAt y x) [p] }
  else .refused (.outOfRange .pix (pixelAt y x))

/-- A host read of one pixel (R34, R46). -/
def readPixel (y x : Nat) (s : State) : Except Refusal Nat :=
  if pixelExists y x then
    match s.pix.read (pixelAt y x) with
    | some p => .ok p.toNat
    | none => .error (.unwritten .pix)
  else .error (.outOfRange .pix (pixelAt y x))

/-- What a read returns to the host, or the refusal (log 11). -/
def returnRead (r : Except Refusal (List Nat)) (s : State) : Outcome State Fault Refusal :=
  match r with
  | .ok vs => .next { s with readback := vs }
  | .error e => .refused e

/-- The number a register write takes (R57). -/
def hostValue (v : HostVal) (s : State) : Except Refusal Nat :=
  match v with
  | .lit x => .ok x
  | .reg n => readRegister n s
  | .buf b i =>
    match readBytes b i 1 s with
    | .ok [x] => .ok x.toNat
    | .ok _ => .error .notANumber
    | .error e => .error e
  | .view w =>
    match s.readView w with
    | .ok [x] => .ok x
    | .ok _ => .error .notANumber
    | .error e => .error e

/-- A copy between byte buffers (R57). -/
def copyBytes (src : BufName) (i : Nat) (dst : BufName) (j n : Nat) (s : State) : Outcome State Fault Refusal :=
  match readBytes src i n s with
  | .ok bs => writeBytes dst j bs s
  | .error e => .refused e

/-- RX_DATA to RLI with RLE_ILEN = RX_DSIZE when the flag says RLE, to TIL when it says raw (R57, R65, R158; log 20).
DESIGN CHOICE (log 28): R57 and R187 give no index of TIL and do not say whether TILE_LEN follows; the raw bytes go to TIL from
index 0 on and TILE_LEN stays. The action `copy` takes any index. -/
def routeData (s : State) : Outcome State Fault Refusal :=
  match s.readView .type, s.readView .comp, s.readView .data with
  | .ok [ty], .ok [comp], .ok data =>
    if ty ≠ 0x04 then .refused .notADataPacket
    else if comp = Config.compRaw.toNat then writeBytes .til 0 (data.map (BitVec.ofNat 8)) s
    else if comp = Config.compRle.toNat then
      writeBytes .rli 0 (data.map (BitVec.ofNat 8)) { s with rleIlen := BitVec.ofNat 16 data.length }
    else .refused .reservedCompression
  | .error e, _, _ => .refused e
  | _, .error e, _ => .refused e
  | _, _, .error e => .refused e
  | _, _, _ => .refused .notANumber

/-- The last poll showed that the print has finished: there is a status pair, and its printing flag is clear (R173 step 5,
R175). -/
def State.printed (s : State) : Bool := s.rvalid && !printingFlag s.resp1

/-- The exit test of the poll loop: poll again until a poll shows the printing flag clear (R173 step 5). A poll without an answer
shows nothing, so a peer that never answers is polled for ever: there is no timeout or abort path (R176, R255; log 14). -/
def testPrinted (s : State) : State :=
  if s.printed then s else { s with host := .waitPrinted :: s.host }

end Sys2Proof.Machine
end

