-- ==== Sys2Proof/Machine/Fetch.lean ====
section
/-! DEFINITION. What the next step runs: an instruction, decoded from where its family's words stand (the OP register, a frame,
RLI at RLE_IP), or something that is no instruction (a host access, an exchange on the link, an end). -/

namespace Sys2Proof.Machine

open Host (Outcome)

/-- What a step does. -/
inductive Fetched where
  /-- Run this instruction at this state. -/
  | instr (i : Instr) (s : State)
  /-- The step is no instruction; this is its outcome. -/
  | other (o : Outcome State Fault Refusal)

/-- A write of OP (R13, R76): a reserved number faults IllegalOp (R225). -/
def fetchOp (w : BitVec 4) (s : State) : Fetched :=
  match decodeOp w with
  | .ok i => .instr i s
  | .error _ => .other (.next (State.raise .illegalOp none s))

/-- A write of OP that takes EXCHANGE and DECOMPRESS step by step (R92, R157; log 3). -/
def fetchOpStepped (w : BitVec 4) (s : State) : Fetched :=
  match decodeOp w with
  | .ok .exchange => .other (.next (exchangeBegin s))
  | .ok .decompress => .other (.next (rleBegin s))
  | _ => fetchOp w s

/-- A write of a register by number; 0 is OP (R11, R13). -/
def fetchRegWrite (n : Nat) (v : HostVal) (s : State) : Fetched :=
  match hostValue v s with
  | .error e => .other (.refused e)
  | .ok x =>
    if n = 0 then
      if x < 16 then fetchOp (BitVec.ofNat 4 x) s else .other (.refused (.valueTooWide 0))
    else .other (writeRegister n x s)

/-- A SEND of a frame that is no row of the opcode table (R101). An assigned id with another payload shape or flag is sent: no
unit checks the shape or interprets the flag (R65, R66, R77, D40). An unassigned id is refused (R77, D36, U9), and so are bytes
that are no frame: SEND takes a frame (R80), and ENCODE builds nothing else (R61 to R63, R77; log 25). -/
def sendOther (bytes : List Byte) (s : State) : Outcome State Fault Refusal :=
  match readFrame bytes with
  | .ok (f, []) =>
    if assignedCommand f.cmd then sendFrame f.cmd f.comp f.payload s else .refused (.unassignedCommand f.cmd)
  | _ => .refused .notAFrame

/-- A SEND given as the bytes of its frame (R80; log 25): a wire command's instruction, or another frame. -/
def fetchSend (frame : List Byte) (s : State) : Fetched :=
  match decode .frame frame with
  | .ok (i, []) => .instr i s
  | _ => .other (sendOther frame s)

/-- The host's next action, already taken from the list. -/
def fetchAction (a : HostAction) (s : State) : Fetched :=
  match a with
  | .opWrite w => fetchOp w s
  | .opWriteStepped w => fetchOpStepped w s
  | .regWrite n v => fetchRegWrite n v s
  | .regRead n => .other (returnRead ((readRegister n s).map fun x => [x]) s)
  | .bufWrite b i bytes => .other (writeBytes b i bytes s)
  | .bufRead b i => .other (returnRead ((readBytes b i 1 s).map fun bs => bs.map BitVec.toNat) s)
  | .pixWrite y x p => .other (writePixel y x p s)
  | .pixRead y x => .other (returnRead ((readPixel y x s).map fun p => [p]) s)
  | .viewRead v => .other (returnRead (s.readView v) s)
  | .copy src i dst j n => .other (copyBytes src i dst j n s)
  | .routeRxData => .other (routeData s)
  | .send frame => fetchSend frame s
  | .waitPrinted =>
    .other (.next { s with host := .send (Sys2Proof.encode .status) :: .opWrite 3 :: .testPrinted :: s.host })
  | .testPrinted => .other (.next (testPrinted s))

/-- Between operations (R34): the host's next action; with none the block is idle and waits (R36; log 1). -/
def fetchHost (s : State) : Fetched :=
  match s.host with
  | [] => .other (.next s)
  | a :: rest => fetchAction a { s with host := rest }

/-- Inside DECOMPRESS run by run (R157): the run at RLE_IP, or the end. -/
def fetchRunStep (s : State) : Fetched :=
  if s.rleIlen.toNat ≤ s.rleIp.toNat then .other (.next (rleFinish s))
  else
    match fetchRun s with
    | .rep n value => .instr (.rep n value) s
    | .lit bytes => .instr (.lit bytes) s
    | .truncated => .other (.next (rleTruncate s))
    | .unwritten => .other (.refused (.unwritten .rli))

/-- What the next step does. While an operation is in progress the host does nothing (R34, R257). -/
def fetch (s : State) : Fetched :=
  match s.activity with
  | .idle => fetchHost s
  | .exchanging => .other (exchangeStep s)
  | .decompressing => fetchRunStep s

/-- Where a run of `len` bytes is placed: at RLE_IP, or at 0 where RLE_ILEN could not reach its end. -/
def placeBase (s : State) (len : Nat) : Nat :=
  if s.rleIp.toNat + len ≤ 65535 then s.rleIp.toNat else 0

/-- The state in which the very next step runs the instruction of a table word (logs 1, 4): an operation number and a frame
become the host's next action; a run is placed at RLE_IP of a DECOMPRESS in progress. -/
def placeWord (s : State) (nbits w : Nat) : State :=
  match tableFamily nbits w with
  | .op => { s with activity := .idle, host := .opWrite (BitVec.ofNat 4 w) :: s.host }
  | .frame => { s with activity := .idle, host := .send (tableBytes nbits w) :: s.host }
  | .run =>
    { s with
      activity := .decompressing
      rli := s.rli.splice (placeBase s (tableBytes nbits w).length) (tableBytes nbits w)
      rleIp := BitVec.ofNat 17 (placeBase s (tableBytes nbits w).length)
      rleIlen := BitVec.ofNat 16
        (placeBase s (tableBytes nbits w).length + (tableBytes nbits w).length) }

end Sys2Proof.Machine
end

