-- ==== Sys2Proof/Machine/Step.lean ====
section
/-! DEFINITION. One step of the machine. -/

namespace Sys2Proof.Machine

/-- One step: the instruction that is fetched, or what the step does instead (R10, R13, R34, R92, R157; logs 1, 3). -/
def step (s : State) : Host.Outcome State Fault Refusal :=
  match fetch s with
  | .instr i s' => exec i s'
  | .other o => o

/-- `s` with a table word's instruction stored where the next step fetches (logs 1, 4). -/
def State.withFetchWord (s : State) (nbits w : Nat) : State := placeWord s nbits w

end Sys2Proof.Machine
end

