-- ==== Sys2Proof/Machine/HostProgram.lean ====
section
/-! DEFINITION. Host programs as lists of host actions: the pseudo-instructions of R80, the job sequence of R171 to R174, and the
two host-side quantisers the source gives exactly (R183, R184). Outside the block (R5, R170); nothing in the block reads it. -/

namespace Sys2Proof.Machine

/-- The pseudo-instructions (R80). -/
inductive Pseudo where
  | send (cmd comp : Byte) (payload : List Byte)
  | poll
  | eos
  | feed (bytes : List Byte)
  deriving DecidableEq, Repr

/-- SEND of any frame by register writes and two operations (R80, R101): other command ids are sent this way too (R100). -/
def sendActions (cmd comp : Byte) (payload : List Byte) : List HostAction :=
  [.regWrite 2 (.lit cmd.toNat), .regWrite 3 (.lit comp.toNat), .regWrite 4 (.lit payload.length),
   .bufWrite .txp 0 payload, .opWrite 1, .opWrite 2]

/-- The expansion of each pseudo-instruction (R80). -/
def Pseudo.actions : Pseudo → List HostAction
  | .send cmd comp payload => sendActions cmd comp payload
  | .poll => sendActions 0x0F 0x00 [] ++ [.opWrite 3]
  | .eos => sendActions 0x04 0x00 []
  | .feed bytes => bytes.flatMap fun b => [.regWrite 11 (.lit b.toNat), .opWrite 4]

/-- The strips of a payload; a partial strip is dropped (R171, D28). -/
def strips (payload : List Byte) : List (List Byte) :=
  (List.range (payload.length / 640)).map fun j => (payload.drop (640 * j)).take 640

/-- The batches of at most 9 strips (R172). -/
def batches (ss : List (List Byte)) : List (List (List Byte)) :=
  (List.range ((ss.length + 8) / 9)).map fun q => (ss.drop (9 * q)).take 9

/-- The PRINT fields the source does not give; host arguments (R7, D26). -/
structure PrintArgs where
  sheets : Byte
  top : BitVec 4
  palette : Byte
  exposure : Byte
  deriving DecidableEq, Repr

/-- The bottom margin nibble: 4 on the final batch, else 0 (R174). -/
def bottomMargin (final : Bool) : BitVec 4 := if final then 4 else 0

/-- One batch (R173): INIT, the strips raw, the end marker, PRINT, each followed by a poll; then the poll loop.
DESIGN CHOICE (log 30): what the polls of steps 1 to 4 answer is used for nothing (R175, N15). -/
def batchActions (a : PrintArgs) (final : Bool) (ss : List (List Byte)) : List HostAction :=
  .send (Sys2Proof.encode .init) :: Pseudo.poll.actions ++
    (ss.flatMap fun s => .send (Sys2Proof.encode (.data 0x00 s)) :: Pseudo.poll.actions) ++
    .send (Sys2Proof.encode (.data 0x00 [])) :: Pseudo.poll.actions ++
    .send (Sys2Proof.encode (.print a.sheets a.top (bottomMargin final) a.palette a.exposure)) ::
      Pseudo.poll.actions ++
    [.waitPrinted]

/-- The batches of a job in order, the last one final (R172, R174).
DESIGN CHOICE: a job without strips has no actions (R172, N14; log 29); a SEND or poll that ends in ReadTimeout does not end the
job, its next action follows (R177 leaves that to the caller; log 31), which in the loop of step 5 is the next poll (R176). -/
def jobFrom (a : PrintArgs) : List (List (List Byte)) → List HostAction
  | [] => []
  | [b] => batchActions a true b
  | b :: bs => batchActions a false b ++ jobFrom a bs

/-- A print job (R171 to R174). -/
def jobActions (a : PrintArgs) (payload : List Byte) : List HostAction := jobFrom a (batches (strips payload))

/-- Level polarity between the quantisers and PACK, a parameter of a host model (R181, C7, U14): the source does not settle it. -/
inductive Polarity where
  /-- The pixel is the level. -/
  | direct
  /-- The pixel is `3 - level`. -/
  | complement
  deriving DecidableEq, Repr

/-- The pixel of a level from 0 to 3 under a polarity (R181). -/
def Polarity.pixel (polarity : Polarity) (level : Nat) : Pixel :=
  match polarity with
  | .direct => BitVec.ofNat 2 level
  | .complement => BitVec.ofNat 2 (3 - level)

/-- `equal_bins` (R183); the polarity is the caller's (R181, U14). -/
def equalBins (polarity : Polarity) (gray : Byte) : Pixel := polarity.pixel (min 3 (gray.toNat / 64))

/-- `nearest` (R184); the polarity is the caller's (R181, U14). -/
def nearest (polarity : Polarity) (gray : Byte) : Pixel := polarity.pixel ((2 * gray.toNat + 85) / 170)

end Sys2Proof.Machine
end

