-- ==== Sys2Proof/Safety.lean ====
section
/-! DEFINITION. What a good state of GBP-FE is (R12, R18, R21, R25, R27, R35, R48, R132, R217) and what a safe run is, in the terms
the statements use. -/

namespace Sys2Proof.Machine

/-! ### Buffers -/

/-- Every buffer is in the canonical form and inside its size (R25, R48). -/
structure BuffersOk (s : State) : Prop where
  txp : s.txp.wf ∧ s.txp.below (BufName.size .txp)
  txf : s.txf.wf ∧ s.txf.below (BufName.size .txf)
  rxb : s.rxb.wf ∧ s.rxb.below (BufName.size .rxb)
  rli : s.rli.wf ∧ s.rli.below (BufName.size .rli)
  rlo : s.rlo.wf ∧ s.rlo.below (BufName.size .rlo)
  til : s.til.wf ∧ s.til.below (BufName.size .til)
  pix : s.pix.wf ∧ s.pix.below (BufName.size .pix)

/-- One buffer is the same in two states. -/
def sameBuffer (b : BufName) (s t : State) : Prop :=
  match b with
  | .txp => t.txp = s.txp
  | .txf => t.txf = s.txf
  | .rxb => t.rxb = s.rxb
  | .rli => t.rli = s.rli
  | .rlo => t.rlo = s.rlo
  | .til => t.til = s.til
  | .pix => t.pix = s.pix

/-- The buffers an instruction writes (R41). RX_RESET writes none of RXB's bytes, but its contents become unspecified. A wire
command loads TXP and runs ENCODE (R80); a run writes RLO (R150). -/
def buffersWritten : Instr → List BufName
  | .encode => [.txf]
  | .exchange => []
  | .decodeStatus => []
  | .addByte => [.rxb]
  | .verify => []
  | .rxReset => [.rxb]
  | .decompress => [.rlo]
  | .pack => [.til]
  | .unpack => [.pix]
  | .faultClear => []
  | .init => [.txp, .txf]
  | .print _ _ _ _ _ => [.txp, .txf]
  | .data _ _ => [.txp, .txf]
  | .brk => [.txp, .txf]
  | .status => [.txp, .txf]
  | .rep _ _ => [.rlo]
  | .lit _ => [.rlo]

/-- The instructions that call `LinkXfer` (R47, R101). -/
def usesLink : Instr → Bool
  | .encode => false
  | .exchange => true
  | .decodeStatus => false
  | .addByte => false
  | .verify => false
  | .rxReset => false
  | .decompress => false
  | .pack => false
  | .unpack => false
  | .faultClear => false
  | .init => true
  | .print _ _ _ _ _ => true
  | .data _ _ => true
  | .brk => true
  | .status => true
  | .rep _ _ => false
  | .lit _ => false

/-! ### The parser -/

/-- RX_STATE as a function of RX_N and the data size (R35). -/
def rxStateOf (n d : Nat) : RxState :=
  if n = 0 then .empty
  else if n = 1 then .preamblePartial
  else if n = 2 then .preambleDone
  else if n < 6 then .headerPartial
  else if n = 6 ∧ 0 < d then .headerDone
  else if n < 6 + d then .dataPartial
  else if n = 6 + d then .dataDone
  else if n = 7 + d then .checksumPartial
  else if n = 8 + d then .checksumDone
  else if n = 9 + d then .responsePartial
  else .complete

/-- The data size the header declares; 0 where it is not in yet. -/
def declaredSize (s : State) : Nat := s.dataSize.getD 0

/-- The parser's shape (R35): the stored bytes are there, RX_STATE is the function of R35, no byte lies beyond the packet's
capacity (R52), and the preamble is the preamble. -/
structure ParserShape (s : State) : Prop where
  stored : ∀ i, i < s.rxN.toNat → (s.rxb.read i).isSome
  state : s.rxState = rxStateOf s.rxN.toNat (declaredSize s)
  capacity : 6 ≤ s.rxN.toNat → s.rxN.toNat ≤ 10 + declaredSize s
  magic0 : 1 ≤ s.rxN.toNat → s.rxb.read 0 = some 0x88
  magic1 : 2 ≤ s.rxN.toNat → s.rxb.read 1 = some 0x33

/-- How many bytes from RXB index 2 on are summed so far (R132): up to `min(RX_N, 6 + D)`, `6 + D` read as 6 before the header
is in. -/
def summedBytes (s : State) : Nat :=
  if s.rxN.toNat < 6 then s.rxN.toNat - 2 else min s.rxN.toNat (6 + declaredSize s) - 2

/-- RX_SUM is the sum of the header and data bytes stored so far (R132). -/
def ParserSum (s : State) : Prop :=
  ∃ bs, s.rxb.readRange 2 (summedBytes s) = some bs ∧ s.rxSum = BitVec.ofNat 16 (byteSum bs)

/-- CVALID only while the check bytes are in; COK is then the comparison (R27, R133). -/
structure VerifyStatus (s : State) : Prop where
  valid : s.cvalid = true → s.rxState.checksumIn = true ∧ (s.cok = true ↔ s.receivedCheck = some s.rxSum)
  invalid : s.cvalid = false → s.cok = false

/-! ### The other units -/

/-- COND at reset or one of the three shapes of R21. -/
def CondShape (c : BitVec 10) : Prop :=
  c = 0 ∨ c = 0b1000000000 ∨ c = 0b0100000000 ∨ (c.toNat < 256 ∧ c.toNat ≠ 0)

/-- TX: with FVALID, TXF holds a frame of length TX_FLEN (R17, R18, R61); TX_IDX never passes 65545 (R12); a valid status pair is
specified. -/
structure TxShape (s : State) : Prop where
  frame : s.fvalid = true → ∃ cmd comp p, p.length ≤ 65535 ∧ s.txFlen.toNat = 8 + p.length ∧
    s.txf.readRange 0 s.txFlen.toNat = some (frameBytes cmd comp p)
  flenKnown : s.fvalid = true → s.txFlenKnown = true
  idx : s.txIdx.toNat ≤ 65545
  resp : s.rvalid = true → s.respKnown = true

/-- RLE: RLE_IP never passes 65535 (R12), and the output count never exceeds 129 bytes for two of input (R29, R156). -/
structure RleShape (s : State) : Prop where
  ip : s.rleIp.toNat ≤ 65535
  count : 2 * s.rleOcnt.toNat ≤ 129 * s.rleIp.toNat

/-- An operation taken step by step stands inside its range (R92, R157). -/
structure ActivityShape (s : State) : Prop where
  exchanging : s.activity = .exchanging →
    s.fvalid = true ∧ s.rvalid = false ∧ s.txIdx.toNat ≤ s.txFlen.toNat + 1
  decompressing : s.activity = .decompressing →
    s.rleIp.toNat ≤ s.rleIlen.toNat ∧ ∀ i, i < min s.rleOcnt.toNat 640 → (s.rlo.read i).isSome

/-- The invariant of the machine: it holds at reset and every step keeps it. -/
structure GoodState (s : State) : Prop where
  buffers : BuffersOk s
  fault : s.fault.toNat ≤ 9
  cond : CondShape s.cond
  parser : ParserShape s
  sum : ParserSum s
  verify : VerifyStatus s
  tx : TxShape s
  rle : RleShape s
  activity : ActivityShape s

/-! ### Runs -/

/-- A run from this state never stops with a fault. -/
def SafeRun (s : State) : Prop :=
  ∀ k f, Host.Core.run Sys2Proof.core k s ≠ .fault f

/-- The machine goes on from this state: the step answers a next state. -/
def goesOn (o : Host.Outcome State Fault Refusal) : Prop := ∃ t, o = .next t

end Sys2Proof.Machine
end

