-- ==== Sys2Proof/Certificates/Slice0/Obligations.lean ====
section
/-! DEFINITION. The statements for the provers. -/

open Sys2Proof Sys2Proof.Machine

namespace Sys2Proof.Machine

/-! ### Words the statements share -/

/-- FAULT after a fault with this code (R14, R216): the first code since the last clear wins. -/
def latched (s : State) (code : BitVec 8) : BitVec 8 := if s.fault = 0 then code else s.fault

/-- ADD_BYTE stored RX_IN at RXB[RX_N] and nothing else of RXB, RX_N is one more, the parser stands in `next`, RX_SUM is `sum`,
and nothing else changed (R120). -/
def StoresByte (s t : State) (next : RxState) (sum : BitVec 16) : Prop :=
  t = { s with
        rxb := t.rxb, rxN := s.rxN + 1, rxState := next, rxSum := sum, result := some .ok, activity := .idle } ∧
  t.rxb.read s.rxN.toNat = some s.rxIn ∧
  ∀ a, a ≠ s.rxN.toNat → t.rxb.read a = s.rxb.read a

/-- The first `m.length` bytes of a buffer from index `i` on. -/
def Holds (m : Memory 8) (i : Nat) (bs : List Byte) : Prop := m.readRange i bs.length = some bs

/-- What follows a run (R151, R152): `bs` went out at RLE_OCNT as far as RLO reaches, RLE_IP moved by `len`; nothing else
changed. -/
def EmitsRun (s t : State) (bs : List Byte) (len : Nat) : Prop :=
  t = { s with rlo := t.rlo, rleIp := t.rleIp, rleOcnt := t.rleOcnt } ∧
  t.rleIp.toNat = s.rleIp.toNat + len ∧
  t.rleOcnt.toNat = s.rleOcnt.toNat + bs.length ∧
  (∀ k, k < bs.length → s.rleOcnt.toNat + k < 640 → t.rlo.read (s.rleOcnt.toNat + k) = bs[k]?) ∧
  ∀ a, a < s.rleOcnt.toNat ∨ s.rleOcnt.toNat + bs.length ≤ a ∨ 640 ≤ a → t.rlo.read a = s.rlo.read a

/-- A run that could not be completed (R154): Truncated at its control byte; RLO is unspecified (R155). -/
def TruncatedAt (s t : State) : Prop :=
  t = { s with
        rlo := t.rlo, fault := latched s 0x04, result := some (.fault 0x04 (some s.rleIp.toNat)), activity := .idle }

/-- How many bytes the run with control byte `c` takes, that byte included (R72, R151, R152). -/
def runLength (c : Byte) : Nat := if 0x80 ≤ c.toNat then 2 else c.toNat + 2

/-- At index `ip`, below RLE_ILEN, stands a control byte without a value, or a run that fits below RLE_ILEN and has a byte without
a value (R37, R154). -/
def RunUnwritten (s : State) (ip : Nat) : Prop :=
  ip < s.rleIlen.toNat ∧
  (s.rli.read ip = none ∨
   ∃ c k, s.rli.read ip = some c ∧ ip + runLength c ≤ s.rleIlen.toNat ∧ k < runLength c ∧ s.rli.read (ip + k) = none)

/-- Pixel `(y, x)` of PIX. -/
def pixelOf (s : State) (y x : Nat) : Option Pixel := s.pix.read (160 * y + x)

/-- The wire commands: everything but the TX unit, TXP, the link and the operation's end is as before. -/
def OnlyTxChanged (s t : State) : Prop :=
  t = { s with
        txCmd := t.txCmd, txComp := t.txComp, txPlen := t.txPlen, txFlen := t.txFlen, txStat := t.txStat,
        txIdx := t.txIdx, resp0 := t.resp0, resp1 := t.resp1, txp := t.txp, txf := t.txf, fault := t.fault,
        result := t.result, activity := t.activity, peer := t.peer, linkN := t.linkN, sent := t.sent,
        freeN := t.freeN, txFlenKnown := t.txFlenKnown, respKnown := t.respKnown }

/-- Command id, compression flag and payload of a wire command (R64 to R68, R95 to R99). -/
def wireFields : Instr → Option (Byte × Byte × List Byte)
  | .init => some (0x01, 0x00, [])
  | .print sheets top bottom palette exposure => some (0x02, 0x00, [sheets, top ++ bottom, palette, exposure])
  | .data comp payload => some (0x04, comp, payload)
  | .brk => some (0x08, 0x00, [])
  | .status => some (0x0F, 0x00, [])
  | .encode => none
  | .exchange => none
  | .decodeStatus => none
  | .addByte => none
  | .verify => none
  | .rxReset => none
  | .decompress => none
  | .pack => none
  | .unpack => none
  | .faultClear => none
  | .rep _ _ => none
  | .lit _ => none

/-- `frame` is the frame of this id, flag and payload (R61 to R63). -/
def FrameOf (frame : List Byte) (cmd comp : Byte) (payload : List Byte) : Prop :=
  ∃ ll lh cl ch : Byte, frame = [0x88, 0x33, cmd, comp, ll, lh] ++ payload ++ [cl, ch] ∧
    ll.toNat + 256 * lh.toNat = payload.length ∧
    cl.toNat + 256 * ch.toNat = (cmd.toNat + comp.toNat + ll.toNat + lh.toNat + byteSum payload) % 65536

/-- A SEND that got a reply to every exchange (R101): TX is loaded, the frame and two zero bytes went out, the last two replies are
the status pair; everything outside TX, TXP and TXF, and what lies beyond the payload and the frame there, is as before. -/
def SentWithReplies (s t : State) (cmd comp : Byte) (payload frame : List Byte) (r0 r1 : Byte) (more : List LinkReply) : Prop :=
  OnlyTxChanged s t ∧
  t.txCmd = cmd ∧ t.txComp = comp ∧ t.txPlen.toNat = payload.length ∧
  t.txp.readRange 0 payload.length = some payload ∧
  t.txf.readRange 0 (8 + payload.length) = some frame ∧ t.txFlen.toNat = 8 + payload.length ∧
  t.sent = s.sent ++ frame ++ [0x00, 0x00] ∧ t.linkN = s.linkN + (10 + payload.length) ∧
  t.resp0 = r0 ∧ t.resp1 = r1 ∧ t.rvalid = true ∧ t.fvalid = true ∧ t.result = some .ok ∧
  t.fault = s.fault ∧ t.peer = more ∧
  (∀ a, payload.length ≤ a → t.txp.read a = s.txp.read a) ∧
  ∀ a, 8 + payload.length ≤ a → t.txf.read a = s.txf.read a

/-- A SEND that has ended, whatever the link peer answered (R101, R255): a prefix of the frame and two zero bytes went out, and
there is a status pair or ReadTimeout. -/
def SentAndEnded (s t : State) (frame : List Byte) : Prop :=
  ∃ k, OnlyTxChanged s t ∧ t.activity = .idle ∧ 1 ≤ k ∧ k ≤ frame.length + 2 ∧
    t.sent = s.sent ++ (frame ++ [0x00, 0x00]).take k ∧
    ((k = frame.length + 2 ∧ t.rvalid = true ∧ t.result = some .ok) ∨
     (t.rvalid = false ∧ t.result = some (.fault 0x02 (some (k - 1)))))

/-- The eight flag names in bit order (R20). -/
def flagNames : List (Nat × Condition) :=
  [(0, .checksumError), (1, .busy), (2, .imageBufferFull), (3, .unprocessedData), (4, .packetError),
   (5, .paperJam), (6, .otherError), (7, .lowBattery)]

end Sys2Proof.Machine

/-! ### Reset, invariants, the step -/

/-- R36, R246: after reset every register reads zero, the parser is EMPTY, no buffer byte has a value, the block is idle, no
operation has run and nothing was sent. -/
def Obligations.ResetIsZeroEmptyAndIdle : Prop :=
  (∀ n, 1 ≤ n → n ≤ 20 → readRegister n State.reset = .ok 0) ∧
  State.reset.rxState = .empty ∧
  (∀ (b : BufName) (m : Memory 8) (a : Nat), State.reset.bytes b = some m → m.read a = none) ∧
  (∀ a, State.reset.pix.read a = none) ∧
  State.reset.activity = .idle ∧ State.reset.result = none ∧ State.reset.sent = []

/-- The invariant holds at reset. -/
def Obligations.ResetMeetsInvariant : Prop := GoodState State.reset

/-- Every step from a state that meets the invariant gives a state that meets it. -/
def Obligations.EveryStepKeepsInvariant : Prop :=
  ∀ s t : State, GoodState s → step s = .next t → GoodState t

/-- R48: no operation computes an index outside a buffer: a run from a state that meets the invariant never stops with a
machine fault. -/
def Obligations.GoodStatesRunWithoutMachineFault : Prop :=
  ∀ s : State, GoodState s → SafeRun s

/-- R35: at every point RX_STATE is the function of RX_N and the data size, and the stored preamble is the preamble. -/
def Obligations.ParserShapeHoldsAtEveryPoint : Prop :=
  ParserShape State.reset ∧ ∀ s t : State, ParserShape s → step s = .next t → ParserShape t

/-- A step runs the decoded instruction: an operation number written to OP (directly, or as register 0, log 26), a frame that is
sent, a run at RLE_IP. The model's step-form write of OP (log 3) starts EXCHANGE and DECOMPRESS, `exchangeBegin` and `rleBegin`;
every other number, a reserved one too, is then as written directly. -/
def Obligations.StepRunsDecodedInstruction : Prop :=
  (∀ (s : State) (w : BitVec 4) (rest : List HostAction) (i : Instr), s.activity = .idle → s.host = .opWrite w :: rest → decodeOp w = .ok i →
    step s = exec i { s with host := rest }) ∧
  (∀ (s : State) (v : HostVal) (w : BitVec 4) (rest : List HostAction), s.activity = .idle →
    s.host = .regWrite 0 v :: rest → hostValue v s = .ok w.toNat →
    step s = step { s with host := .opWrite w :: rest } ∧
    ∀ i, decodeOp w = .ok i → step s = exec i { s with host := rest }) ∧
  (∀ (s : State) (w : BitVec 4) (rest : List HostAction), s.activity = .idle → s.host = .opWriteStepped w :: rest →
    (w = 0x2 → step s = .next (exchangeBegin { s with host := rest })) ∧
    (w = 0x7 → step s = .next (rleBegin { s with host := rest })) ∧
    (w ≠ 0x2 → w ≠ 0x7 → step s = step { s with host := .opWrite w :: rest } ∧
      ∀ i, decodeOp w = .ok i → step s = exec i { s with host := rest })) ∧
  (∀ (s : State) (bytes : List Byte) (rest : List HostAction) (i : Instr), s.activity = .idle → s.host = .send bytes :: rest → decode .frame bytes = .ok (i, []) →
    step s = exec i { s with host := rest }) ∧
  (∀ (s : State) (i : Instr) (more : List Byte), s.activity = .decompressing → s.rleIp.toNat < s.rleIlen.toNat →
    ∀ len, s.rleIp.toNat + len = s.rleIlen.toNat → ∀ bytes, s.rli.readRange s.rleIp.toNat len = some bytes →
    decode .run bytes = .ok (i, more) → step s = exec i s)

/-- The instruction the decoder reads from a table word is what the next step runs on the state that holds it. -/
def Obligations.TableWordRunsAsNextInstruction : Prop :=
  ∀ (s : State) (nbits w : Nat) (i : Instr), nbits ≤ 8 → decodeTableWord nbits w = some i →
    ∃ u, step (s.withFetchWord nbits w) = exec i u ∧
      (i.family ≠ .run → u = { s with activity := .idle }) ∧
      (i.family = .run → u = s.withFetchWord nbits w ∧ u.activity = .decompressing ∧ u.host = s.host)

/-- The model's choice (log 1): with no host action to take, the idle block waits. -/
def Obligations.IdleBlockWaits : Prop :=
  ∀ s : State, s.activity = .idle → s.host = [] → step s = .next s

/-- R225: a reserved number written to OP changes nothing but FAULT. -/
def Obligations.ReservedOpFaultsIllegalOp : Prop :=
  ∀ (s : State) (w : BitVec 4) (rest : List HostAction), s.activity = .idle → s.host = .opWrite w :: rest → w = 0x0 ∨ 0xB ≤ w →
    step s = .next { s with
      host := rest, fault := latched s 0x08, result := some (.fault 0x08 none), activity := .idle }

/-! ### Encodings -/

/-- Decoding the encoding of a well-formed instruction gives it back, and leaves what follows. -/
def Obligations.DecodeOfEncodeIsInstruction : Prop :=
  ∀ (i : Instr) (rest : List Byte), i.wf = true → decode i.family (encode i ++ rest) = .ok (i, rest)

/-- Each decoded byte sequence is the encoding of the one instruction it decodes to. -/
def Obligations.DecodedBytesEncodeBack : Prop :=
  ∀ (f : Family) (bytes : List Byte) (i : Instr) (rest : List Byte), decode f bytes = .ok (i, rest) → i.family = f ∧ i.wf = true ∧ bytes = encode i ++ rest

/-- Words written out from the spec (R76, R95 to R99, R151, R152, vectors V1 to V5, S5, S6) decode to what they stand for. -/
def Obligations.SampleWordsDecode : Prop :=
  decode .op [0b0001] = .ok (.encode, []) ∧
  decode .op [0b1001] = .ok (.unpack, []) ∧
  decode .op [0b1010] = .ok (.faultClear, []) ∧
  decode .frame [0x88, 0x33, 0x01, 0x00, 0x00, 0x00, 0x01, 0x00] = .ok (.init, []) ∧
  decode .frame [0x88, 0x33, 0x0F, 0x00, 0x00, 0x00, 0x0F, 0x00] = .ok (.status, []) ∧
  decode .frame [0x88, 0x33, 0x02, 0x00, 0x04, 0x00, 0x01, 0x13, 0xE4, 0x40, 0x3E, 0x01] =
    .ok (.print 0x01 0x1 0x3 0xE4 0x40, []) ∧
  decode .frame [0x88, 0x33, 0x04, 0x01, 0x01, 0x00, 0xAA, 0xB0, 0x00] = .ok (.data 0x01 [0xAA], []) ∧
  decode .run [0x81, 0x5A] = .ok (.rep 1 0x5A, []) ∧
  decode .run [0x02, 0x11, 0x22, 0x33] = .ok (.lit [0x11, 0x22, 0x33], [])

/-- R95 to R99: the frame of each wire command, byte by byte. -/
def Obligations.WireFramesAreByteExact : Prop :=
  encode .init = [0x88, 0x33, 0x01, 0x00, 0x00, 0x00, 0x01, 0x00] ∧
  encode .brk = [0x88, 0x33, 0x08, 0x00, 0x00, 0x00, 0x08, 0x00] ∧
  encode .status = [0x88, 0x33, 0x0F, 0x00, 0x00, 0x00, 0x0F, 0x00] ∧
  (∀ (sheets : Byte) (top bottom : BitVec 4) (palette exposure : Byte),
    ∃ m : Byte, m.toNat = 16 * top.toNat + bottom.toNat ∧
    ∃ cl ch : Byte, cl.toNat + 256 * ch.toNat =
      (0x02 + 0x04 + sheets.toNat + m.toNat + palette.toNat + exposure.toNat) % 65536 ∧
    encode (.print sheets top bottom palette exposure) =
      [0x88, 0x33, 0x02, 0x00, 0x04, 0x00, sheets, m, palette, exposure, cl, ch]) ∧
  (∀ (comp : Byte) (payload : List Byte), payload.length ≤ 65535 →
    ∃ ll lh cl ch : Byte, ll.toNat + 256 * lh.toNat = payload.length ∧
      cl.toNat + 256 * ch.toNat =
        (0x04 + comp.toNat + ll.toNat + lh.toNat + byteSum payload) % 65536 ∧
      encode (.data comp payload) = [0x88, 0x33, 0x04, comp, ll, lh] ++ payload ++ [cl, ch])

/-- R102: the check does not depend on the order of the payload's bytes. -/
def Obligations.FrameSumIgnoresPayloadOrder : Prop :=
  ∀ (cmd comp : Byte) (p q : List Byte), List.Perm p q → frameSum cmd comp p = frameSum cmd comp q

/-! ### Faults -/

/-- R232: FAULT_CLEAR zeroes FAULT and restores nothing else. -/
def Obligations.FaultClearZeroesOnlyFault : Prop :=
  ∀ s : State, exec .faultClear s = .next { s with fault := 0, result := some .ok, activity := .idle }

/-- R14, R216, R230: a nonzero FAULT changes only in the step that runs FAULT_CLEAR. -/
def Obligations.FirstFaultCodeIsKept : Prop :=
  ∀ s t : State, step s = .next t → s.fault ≠ 0 → t.fault ≠ s.fault →
    ∃ u, fetch s = .instr .faultClear u ∧ t.fault = 0

/-- R232, R237: what an operation does does not depend on FAULT, whatever FAULT holds. -/
def Obligations.FaultRegisterGatesNoOperation : Prop :=
  ∀ (i : Instr) (s t : State) (f : BitVec 8), exec i s = .next t →
    ∃ u, exec i { s with fault := f } = .next u ∧ u = { t with fault := u.fault }

/-- R226: an operation whose input is not there changes nothing but FAULT. (EXCHANGE so leaves RVALID as it was, where R252 says
RVALID = 0 of a faulting EXCHANGE: log 32.) -/
def Obligations.OperationsWithoutInputAreNotReady : Prop :=
  ∀ s : State, let stopped := Host.Outcome.next { s with
          fault := latched s 0x09, result := some (.fault 0x09 none), activity := .idle }
    (s.fvalid = false → exec .exchange s = stopped) ∧
    (s.rvalid = false → exec .decodeStatus s = stopped) ∧
    (s.rxState ≠ .checksumDone → s.rxState ≠ .responsePartial → s.rxState ≠ .complete →
      exec .verify s = stopped)

/-- R37: an operation that reads a buffer byte (pixel) without a value is refused. DECOMPRESS: whatever runs come first; also
where it is taken run by run. EXCHANGE, ADD_BYTE, VERIFY: only in states that no run reaches. That EXCHANGE taken whole is refused
before anything is sent, whatever the replies, is the model's choice (log 17, DESIGN CHOICE): by the order of R91 a timeout before
the missing byte would end it with ReadTimeout. -/
def Obligations.UnwrittenInputIsRefused : Prop :=
  (∀ (s : State) (k : Nat), s.txPlen.toNat ≤ 65535 → k < s.txPlen.toNat → s.txp.read k = none →
    exec .encode s = .refused (.unwritten .txp)) ∧
  (∀ (s : State) (runs : List Instr), (∀ i ∈ runs, i.wf = true ∧ i.family = .run) →
    s.rli.readRange 0 (runs.flatMap encode).length = some (runs.flatMap encode) →
    RunUnwritten s (runs.flatMap encode).length → exec .decompress s = .refused (.unwritten .rli)) ∧
  (∀ s : State, s.activity = .decompressing → RunUnwritten s s.rleIp.toNat → step s = .refused (.unwritten .rli)) ∧
  (∀ (s : State) (k : Nat), s.fvalid = true → k < s.txFlen.toNat → s.txf.read k = none →
    exec .exchange s = .refused (.unwritten .txf)) ∧
  (∀ s : State, s.activity = .exchanging → s.txIdx.toNat < s.txFlen.toNat → s.txf.read s.txIdx.toNat = none →
    step s = .refused (.unwritten .txf)) ∧
  (∀ s : State, s.rxState = .headerPartial → s.rxN = 5 → s.rxb.read 4 = none →
    exec .addByte s = .refused (.unwritten .rxb)) ∧
  (∀ s : State, s.rxState = .headerDone ∨ s.rxState = .dataPartial → 6 ≤ s.rxN.toNat → s.rxN.toNat < 65545 →
    s.rxb.read 4 = none ∨ s.rxb.read 5 = none → exec .addByte s = .refused (.unwritten .rxb)) ∧
  (∀ s : State, s.rxState = .checksumDone ∨ s.rxState = .responsePartial ∨ s.rxState = .complete →
    (s.rxb.read 4 = none ∨ s.rxb.read 5 = none ∨
      ∃ lo hi, s.rxb.read 4 = some lo ∧ s.rxb.read 5 = some hi ∧
        (s.rxb.read (6 + (lo.toNat + 256 * hi.toNat)) = none ∨ s.rxb.read (7 + (lo.toNat + 256 * hi.toNat)) = none)) →
    exec .verify s = .refused (.unwritten .rxb)) ∧
  (∀ (s : State) (y x : Nat), s.tileH.toNat % 8 = 0 → s.tileH.toNat ≤ Config.hMax → y < s.tileH.toNat → x < 160 →
    pixelOf s y x = none → exec .pack s = .refused (.unwritten .pix)) ∧
  (∀ (s : State) (k : Nat), s.tileLen.toNat % 320 = 0 → s.tileLen.toNat ≤ 40 * Config.hMax → k < s.tileLen.toNat →
    s.til.read k = none → exec .unpack s = .refused (.unwritten .til))

/-! ### ENCODE -/

/-- R61, R63, R90: ENCODE completes on every payload that is there, and TXF holds the frame field by field. -/
def Obligations.EncodeBuildsFrame : Prop :=
  ∀ (s : State) (p : List Byte), s.txPlen.toNat ≤ 65535 → s.txp.readRange 0 s.txPlen.toNat = some p →
    ∃ t, exec .encode s = .next t ∧
      t.txf.read 0 = some 0x88 ∧ t.txf.read 1 = some 0x33 ∧
      t.txf.read 2 = some s.txCmd ∧ t.txf.read 3 = some s.txComp ∧
      (∃ lo hi : Byte, t.txf.read 4 = some lo ∧ t.txf.read 5 = some hi ∧
        lo.toNat + 256 * hi.toNat = p.length ∧
        ∃ cl ch : Byte, t.txf.read (6 + p.length) = some cl ∧ t.txf.read (7 + p.length) = some ch ∧
          cl.toNat + 256 * ch.toNat =
            (s.txCmd.toNat + s.txComp.toNat + lo.toNat + hi.toNat + byteSum p) % 65536) ∧
      (∀ k, k < p.length → t.txf.read (6 + k) = s.txp.read k) ∧
      t.txFlen.toNat = 8 + p.length ∧ t.fvalid = true ∧ t.result = some .ok ∧ t.fault = s.fault

/-- R90, R218: a TX_PLEN above 65535 gives the fault PayloadTooLarge and no frame. -/
def Obligations.EncodeTooLargeGivesNoFrame : Prop :=
  ∀ s : State, 65535 < s.txPlen.toNat →
    ∃ t, exec .encode s = .next t ∧ t.fvalid = false ∧ t.fault = latched s 0x01 ∧
      t.result = some (.fault 0x01 (some s.txPlen.toNat)) ∧ t.txPlen = s.txPlen

/-- R41, R90: what ENCODE leaves alone. TXF beyond the frame is as before when ENCODE ends `ok`. -/
def Obligations.EncodeLeavesTheRest : Prop :=
  ∀ s t : State, exec .encode s = .next t →
    t = { s with
          txf := t.txf, txFlen := t.txFlen, txStat := t.txStat, txFlenKnown := t.txFlenKnown, freeN := t.freeN,
          fault := t.fault, result := t.result, activity := .idle } ∧
    t.rvalid = s.rvalid ∧
    (t.result = some .ok → t.fault = s.fault ∧
      ∀ a, 8 + s.txPlen.toNat ≤ a → t.txf.read a = s.txf.read a)

/-! ### EXCHANGE -/

/-- R91: with a reply to every exchange, EXCHANGE sends the frame and two zero bytes and takes the last two replies as the
status pair. -/
def Obligations.ExchangeTakesLastTwoReplies : Prop :=
  ∀ (s : State) (frame rs : List Byte) (r0 r1 : Byte) (more : List LinkReply), s.fvalid = true → s.txFlen.toNat ≤ 65543 →
    s.txf.readRange 0 s.txFlen.toNat = some frame → rs.length = frame.length →
    s.peer = rs.map LinkReply.reply ++ [.reply r0, .reply r1] ++ more →
    ∃ t, exec .exchange s = .next t ∧ t.resp0 = r0 ∧ t.resp1 = r1 ∧ t.rvalid = true ∧ t.fvalid = true ∧
      t.txIdx.toNat = s.txFlen.toNat + 2 ∧ t.sent = s.sent ++ frame ++ [0x00, 0x00] ∧
      t.peer = more ∧ t.result = some .ok ∧ t.fault = s.fault

/-- R91, R219: a timeout at exchange `i` ends EXCHANGE there: TX_IDX is `i`, no status pair (RESP0 and RESP1
are marked unspecified, log 8), `i + 1` bytes sent. -/
def Obligations.ExchangeTimeoutStopsAtItsIndex : Prop :=
  ∀ (s : State) (frame rs : List Byte) (more : List LinkReply), s.fvalid = true → s.txFlen.toNat ≤ 65543 →
    s.txf.readRange 0 s.txFlen.toNat = some frame → rs.length < frame.length + 2 →
    s.peer = rs.map LinkReply.reply ++ .timeout :: more →
    ∃ t, exec .exchange s = .next t ∧ t.txIdx.toNat = rs.length ∧ t.rvalid = false ∧ t.respKnown = false ∧ t.fvalid = true ∧
      t.fault = latched s 0x02 ∧ t.result = some (.fault 0x02 (some rs.length)) ∧
      t.sent = s.sent ++ (frame ++ [0x00, 0x00]).take (rs.length + 1) ∧ t.peer = more

/-- R50, R255: whatever the link peer answers, EXCHANGE ends, after at most TX_FLEN + 2 exchanges, having sent the bytes in
index order, with a status pair or with ReadTimeout. -/
def Obligations.ExchangeAlwaysEnds : Prop :=
  ∀ (s : State) (frame : List Byte), s.fvalid = true → s.txFlen.toNat ≤ 65543 → s.txf.readRange 0 s.txFlen.toNat = some frame →
    ∃ t k, exec .exchange s = .next t ∧ 1 ≤ k ∧ k ≤ frame.length + 2 ∧ t.linkN = s.linkN + k ∧
      t.sent = s.sent ++ (frame ++ [0x00, 0x00]).take k ∧
      ((k = frame.length + 2 ∧ t.rvalid = true ∧ t.result = some .ok ∧ t.txIdx.toNat = k) ∨
       (t.rvalid = false ∧ t.result = some (.fault 0x02 (some (k - 1))) ∧ t.txIdx.toNat = k - 1))

/-- R41, R91: what EXCHANGE leaves alone. -/
def Obligations.ExchangeLeavesTheRest : Prop :=
  ∀ s t : State, exec .exchange s = .next t →
    t = { s with
          txIdx := t.txIdx, resp0 := t.resp0, resp1 := t.resp1, txStat := t.txStat, fault := t.fault,
          result := t.result, activity := .idle, peer := t.peer, linkN := t.linkN, sent := t.sent,
          freeN := t.freeN, respKnown := t.respKnown } ∧
    t.fvalid = s.fvalid

/-- R92: EXCHANGE taken one `LinkXfer` at a time ends in the same state as EXCHANGE taken whole. -/
def Obligations.ExchangeStepFormAgrees : Prop :=
  ∀ (s : State) (frame : List Byte), s.activity = .idle → s.fvalid = true → s.txFlen.toNat ≤ 65543 →
    s.txf.readRange 0 s.txFlen.toNat = some frame →
    ∃ k, k ≤ frame.length + 2 ∧ Host.Core.run Sys2Proof.core k (exchangeBegin s) = exec .exchange s

/-! ### DECODE_STATUS -/

/-- R94: with no status pair DECODE_STATUS is NotReady; else COND is a function of the pair: NotConnected first, then OK, else
the flags, in ascending bit order. -/
def Obligations.DecodeStatusNamesConditions : Prop :=
  (∀ s : State, s.rvalid = false →
    exec .decodeStatus s = .next { s with
      fault := latched s 0x09, result := some (.fault 0x09 none), activity := .idle }) ∧
  ∀ s : State, s.rvalid = true →
    ∃ c, exec .decodeStatus s = .next { s with cond := c, result := some .ok, activity := .idle } ∧
      ((s.resp0 ≠ 0x80 ∧ s.resp0 ≠ 0x81) → c = 0b1000000000 ∧ conditions c = [.notConnected]) ∧
      ((s.resp0 = 0x80 ∨ s.resp0 = 0x81) → s.resp1 = 0x00 → c = 0b0100000000 ∧ conditions c = [.ok]) ∧
      ((s.resp0 = 0x80 ∨ s.resp0 = 0x81) → s.resp1 ≠ 0x00 → c.toNat = s.resp1.toNat ∧
        conditions c = (flagNames.filter fun p => s.resp1.getLsbD p.1).map (·.2))

/-! ### RX -/

/-- R121, R122: EMPTY and PREAMBLE_PARTIAL, with the silent resync. -/
def Obligations.AddByteHuntsForPreamble : Prop :=
  ∀ s : State,
    (s.rxState = .empty → s.rxN = 0 →
      (s.rxIn = 0x88 → ∃ t, exec .addByte s = .next t ∧ StoresByte s t .preamblePartial s.rxSum) ∧
      (s.rxIn ≠ 0x88 → exec .addByte s = .next { s with result := some .ok, activity := .idle })) ∧
    (s.rxState = .preamblePartial → s.rxN = 1 →
      (s.rxIn = 0x33 → ∃ t, exec .addByte s = .next t ∧ StoresByte s t .preambleDone s.rxSum) ∧
      (s.rxIn ≠ 0x33 → ∃ t, exec .addByte s = .next t ∧
        t = { s with
              rxb := t.rxb, rxN := 0, rxSum := 0, rxStat := 0, rxState := .empty, result := some .ok,
              activity := .idle }))

/-- R123, R124: the four header bytes; the sixth byte decides by the declared size. That the first one moves the parser to
HEADER_PARTIAL is the spec's own inference (R123). -/
def Obligations.AddByteTakesHeader : Prop :=
  ∀ s : State,
    (s.rxState = .preambleDone → s.rxN = 2 →
      ∃ t, exec .addByte s = .next t ∧ StoresByte s t .headerPartial (s.rxSum + s.rxIn.setWidth 16)) ∧
    (s.rxState = .headerPartial → s.rxN = 3 ∨ s.rxN = 4 →
      ∃ t, exec .addByte s = .next t ∧ StoresByte s t .headerPartial (s.rxSum + s.rxIn.setWidth 16)) ∧
    (∀ lo : Byte, s.rxState = .headerPartial → s.rxN = 5 → s.rxb.read 4 = some lo →
      ∃ t, exec .addByte s = .next t ∧
        StoresByte s t (if lo.toNat + 256 * s.rxIn.toNat = 0 then .dataDone else .headerDone)
          (s.rxSum + s.rxIn.setWidth 16))

/-- R125, R126: data bytes, until all `data_size` of them are in. That a single data byte goes straight to DATA_DONE is the
spec's own inference (R125). -/
def Obligations.AddByteTakesData : Prop :=
  ∀ (s : State) (lo hi : Byte), s.rxb.read 4 = some lo → s.rxb.read 5 = some hi →
    let d := lo.toNat + 256 * hi.toNat
    (s.rxState = .headerDone → s.rxN = 6 → 0 < d →
      ∃ t, exec .addByte s = .next t ∧
        StoresByte s t (if d = 1 then .dataDone else .dataPartial) (s.rxSum + s.rxIn.setWidth 16)) ∧
    (s.rxState = .dataPartial → 7 ≤ s.rxN.toNat → s.rxN.toNat ≤ 5 + d →
      ∃ t, exec .addByte s = .next t ∧
        StoresByte s t (if s.rxN.toNat + 1 = 6 + d then .dataDone else .dataPartial)
          (s.rxSum + s.rxIn.setWidth 16))

/-- R127 to R130: check and response bytes are stored and not summed. -/
def Obligations.AddByteTakesCheckAndResponses : Prop :=
  ∀ s : State, s.rxN.toNat < 65545 →
    (s.rxState = .dataDone → ∃ t, exec .addByte s = .next t ∧ StoresByte s t .checksumPartial s.rxSum) ∧
    (s.rxState = .checksumPartial → ∃ t, exec .addByte s = .next t ∧ StoresByte s t .checksumDone s.rxSum) ∧
    (s.rxState = .checksumDone → ∃ t, exec .addByte s = .next t ∧ StoresByte s t .responsePartial s.rxSum) ∧
    (s.rxState = .responsePartial → ∃ t, exec .addByte s = .next t ∧ StoresByte s t .complete s.rxSum)

/-- R131, R220: ADD_BYTE in COMPLETE faults AlreadyComplete and stores nothing. -/
def Obligations.AddByteInCompleteFaults : Prop :=
  ∀ s : State, s.rxState = .complete →
    exec .addByte s = .next { s with
      fault := latched s 0x03, result := some (.fault 0x03 (some s.rxIn.toNat)), activity := .idle }

/-- From every good parser state ADD_BYTE completes, whatever the byte, and only COMPLETE faults (R120, R131). -/
def Obligations.AddByteCompletesInEveryGoodState : Prop :=
  ∀ s : State, ParserShape s →
    ∃ t, exec .addByte s = .next t ∧
      (s.rxState ≠ .complete → t.result = some .ok ∧ t.fault = s.fault) ∧
      t = { s with
            rxb := t.rxb, rxN := t.rxN, rxState := t.rxState, rxSum := t.rxSum, rxStat := t.rxStat,
            fault := t.fault, result := t.result, activity := .idle } ∧
      (t.rxState ≠ .empty → t.rxStat = s.rxStat)

/-- R133: VERIFY is NotReady before the check bytes are in; else it reports whether the received check equals RX_SUM, and a
mismatch is no fault. -/
def Obligations.VerifyReportsComparison : Prop :=
  (∀ s : State, s.rxState ≠ .checksumDone → s.rxState ≠ .responsePartial → s.rxState ≠ .complete →
    exec .verify s = .next { s with
      fault := latched s 0x09, result := some (.fault 0x09 none), activity := .idle }) ∧
  ∀ (s : State) (lo hi cl ch : Byte),
    s.rxState = .checksumDone ∨ s.rxState = .responsePartial ∨ s.rxState = .complete →
    s.rxb.read 4 = some lo → s.rxb.read 5 = some hi →
    s.rxb.read (6 + (lo.toNat + 256 * hi.toNat)) = some cl →
    s.rxb.read (7 + (lo.toNat + 256 * hi.toNat)) = some ch →
    ∃ t, exec .verify s = .next t ∧
      t = { s with rxStat := t.rxStat, result := some .ok, activity := .idle } ∧
      t.cvalid = true ∧ (t.cok = true ↔ cl.toNat + 256 * ch.toNat = s.rxSum.toNat)

/-- R134: RX_RESET returns the parser to EMPTY from every state; RXB keeps no value. -/
def Obligations.RxResetReturnsToEmpty : Prop :=
  ∀ s : State, ∃ t, exec .rxReset s = .next t ∧
    t = { s with
          rxN := 0, rxSum := 0, rxStat := 0, rxState := .empty, rxb := t.rxb, result := some .ok,
          activity := .idle } ∧
    ∀ v, t.readView v = .error (.invalidView v)

/-- R136: the whole-packet law. -/
def Obligations.WholePacketReachesComplete : Prop :=
  ∀ (s : State) (cmd comp : Byte) (p : List Byte) (c0 c1 r0 r1 lo hi : Byte),
    s.rxState = .empty → s.rxN = 0 → s.rxSum = 0 → lo.toNat + 256 * hi.toNat = p.length →
    ∃ t, feed ([0x88, 0x33, cmd, comp, lo, hi] ++ p ++ [c0, c1, r0, r1]) s = .next t ∧
      t.rxState = .complete ∧ t.rxN.toNat = 10 + p.length ∧ t.fault = s.fault ∧ t.result = some .ok ∧
      t.readView .type = .ok [cmd.toNat] ∧ t.readView .comp = .ok [comp.toNat] ∧
      t.readView .dsize = .ok [p.length] ∧ t.readView .data = .ok (p.map BitVec.toNat) ∧
      t.readView .chk = .ok [c0.toNat + 256 * c1.toNat] ∧
      t.readView .resp0 = .ok [r0.toNat] ∧ t.readView .resp1 = .ok [r1.toNat] ∧
      ∃ u, exec .verify t = .next u ∧ u.cvalid = true ∧
        (u.cok = true ↔
          c0.toNat + 256 * c1.toNat =
            (cmd.toNat + comp.toNat + lo.toNat + hi.toNat + byteSum p) % 65536)

/-- R104: what ENCODE built, followed by any two bytes, parses to COMPLETE with the command's fields and verifies. -/
def Obligations.EncodedFrameParsesAndVerifies : Prop :=
  ∀ (s e q : State) (p frame : List Byte) (r0 r1 : Byte),
    s.txPlen.toNat ≤ 65535 → s.txp.readRange 0 s.txPlen.toNat = some p → exec .encode s = .next e →
    e.txf.readRange 0 e.txFlen.toNat = some frame →
    q.rxState = .empty → q.rxN = 0 → q.rxSum = 0 →
    ∃ t, feed (frame ++ [r0, r1]) q = .next t ∧ t.rxState = .complete ∧ t.fault = q.fault ∧
      t.readView .type = .ok [s.txCmd.toNat] ∧ t.readView .comp = .ok [s.txComp.toNat] ∧
      t.readView .dsize = .ok [p.length] ∧ t.readView .data = .ok (p.map BitVec.toNat) ∧
      t.readView .chk = .ok [(frameSum s.txCmd s.txComp p).toNat] ∧
      ∃ u, exec .verify t = .next u ∧ u.cok = true

/-- R80: the host's FEED runs as `feed`: two host actions for each byte. -/
def Obligations.FeedActionsRunAsFeed : Prop :=
  ∀ (bytes : List Byte) (s : State) (rest : List HostAction) (t : State), s.activity = .idle → s.host = Pseudo.actions (.feed bytes) ++ rest →
    feed bytes { s with host := rest } = .next t →
    Host.Core.run Sys2Proof.core (2 * bytes.length) s = .next t

/-! ### RLE -/

/-- R151: the repeated run, with its value byte before RLE_ILEN or not. -/
def Obligations.RepRunEmitsCopies : Prop :=
  ∀ (s : State) (n : BitVec 7) (v : Byte),
    (s.rleIp.toNat + 1 < s.rleIlen.toNat → s.rleOcnt.toNat < 16777216 - 129 →
      ∃ t, exec (.rep n v) s = .next t ∧ EmitsRun s t (List.replicate (n.toNat + 2) v) 2) ∧
    (s.rleIlen.toNat ≤ s.rleIp.toNat + 1 → ∃ t, exec (.rep n v) s = .next t ∧ TruncatedAt s t)

/-- R152: the literal run, with all its data bytes before RLE_ILEN or not. -/
def Obligations.LitRunCopiesBytes : Prop :=
  ∀ (s : State) (bs : List Byte), (Instr.lit bs).wf = true →
    (s.rleIp.toNat + 1 + bs.length ≤ s.rleIlen.toNat → s.rleOcnt.toNat < 16777216 - 128 →
      ∃ t, exec (.lit bs) s = .next t ∧ EmitsRun s t bs (1 + bs.length)) ∧
    (s.rleIlen.toNat < s.rleIp.toNat + 1 + bs.length → ∃ t, exec (.lit bs) s = .next t ∧ TruncatedAt s t)

/-- R150, R153 to R155, R157: DECOMPRESS is the pure expansion of its input: the strip, Truncated, or LengthMismatch, with
RLE_IP and RLE_OCNT where it ended and nothing else changed. -/
def Obligations.DecompressIsPureExpansion : Prop :=
  ∀ (s : State) (input : List Byte), s.rli.readRange 0 s.rleIlen.toNat = some input →
    ∃ t, exec .decompress s = .next t ∧
      match expand input with
      | .ok out =>
        out.length = 640 ∧ Holds t.rlo 0 out ∧ (∀ a, 640 ≤ a → t.rlo.read a = s.rlo.read a) ∧
        t.rleIp.toNat = s.rleIlen.toNat ∧ t.rleOcnt.toNat = 640 ∧
        t = { s with
              rlo := t.rlo, rleIp := t.rleIp, rleOcnt := t.rleOcnt, result := some .ok, activity := .idle }
      | .truncated ip count =>
        t.rleIp.toNat = ip ∧ t.rleOcnt.toNat = count ∧
        t = { s with
              rlo := t.rlo, rleIp := t.rleIp, rleOcnt := t.rleOcnt, fault := latched s 0x04,
              result := some (.fault 0x04 (some ip)), activity := .idle }
      | .lengthMismatch count =>
        t.rleIp.toNat = s.rleIlen.toNat ∧ t.rleOcnt.toNat = count ∧
        t = { s with
              rlo := t.rlo, rleIp := t.rleIp, rleOcnt := t.rleOcnt, fault := latched s 0x05,
              result := some (.fault 0x05 (some count)), activity := .idle }

/-- R157: DECOMPRESS taken run by run ends in the same state as DECOMPRESS taken whole. -/
def Obligations.DecompressStepFormAgrees : Prop :=
  ∀ (s : State) (input : List Byte), s.activity = .idle → s.rli.readRange 0 s.rleIlen.toNat = some input →
    ∃ k, k ≤ input.length + 1 ∧ Host.Core.run Sys2Proof.core k (rleBegin s) = exec .decompress s

/-- R156: an input that expands to a strip has 10 to 1280 bytes. -/
def Obligations.StripInputHasTenTo1280Bytes : Prop :=
  ∀ input out : List Byte, expand input = .ok out → out.length = 640 ∧ 10 ≤ input.length ∧ input.length ≤ 1280

/-! ### TILE -/

/-- R191, R194: PACK completes on a legal height whose pixels are there, and each pixel lies where R194 says. -/
def Obligations.PackPlacesEveryPixel : Prop :=
  ∀ s : State, s.tileH.toNat % 8 = 0 → s.tileH.toNat ≤ Config.hMax →
    (∀ y x, y < s.tileH.toNat → x < 160 → (pixelOf s y x).isSome) →
    ∃ t, exec .pack s = .next t ∧
      t = { s with til := t.til, tileLen := t.tileLen, result := some .ok, activity := .idle } ∧
      t.tileLen.toNat = 40 * s.tileH.toNat ∧
      (∀ y x, y < s.tileH.toNat → x < 160 →
        ∃ p lo hi, pixelOf s y x = some p ∧
          t.til.read (320 * (y / 8) + 16 * (x / 8) + 2 * (y % 8)) = some lo ∧
          t.til.read (320 * (y / 8) + 16 * (x / 8) + 2 * (y % 8) + 1) = some hi ∧
          p.getLsbD 0 = lo.getLsbD (7 - x % 8) ∧ p.getLsbD 1 = hi.getLsbD (7 - x % 8)) ∧
      ∀ a, 40 * s.tileH.toNat ≤ a → t.til.read a = s.til.read a

/-- R192: UNPACK completes on a legal length whose bytes are there, and each pixel is the one its bits say; rows beyond the
height keep their contents. -/
def Obligations.UnpackReadsEveryPixel : Prop :=
  ∀ s : State, s.tileLen.toNat % 320 = 0 → s.tileLen.toNat ≤ 40 * Config.hMax →
    (∀ k, k < s.tileLen.toNat → (s.til.read k).isSome) →
    ∃ t, exec .unpack s = .next t ∧
      t = { s with pix := t.pix, tileH := t.tileH, result := some .ok, activity := .idle } ∧
      t.tileH.toNat = s.tileLen.toNat / 40 ∧
      (∀ k i, k < s.tileLen.toNat → k % 2 = 0 → i < 8 →
        ∃ p lo hi, s.til.read k = some lo ∧ s.til.read (k + 1) = some hi ∧
          pixelOf t (8 * (k / 320) + k % 16 / 2) (8 * (k % 320 / 16) + i) = some p ∧
          p.getLsbD 0 = lo.getLsbD (7 - i) ∧ p.getLsbD 1 = hi.getLsbD (7 - i)) ∧
      ∀ a, 160 * (s.tileLen.toNat / 40) ≤ a → t.pix.read a = s.pix.read a

/-- R193: PACK then UNPACK leaves the matrix and TILE_H as they were. -/
def Obligations.UnpackOfPackRestoresMatrix : Prop :=
  ∀ s : State, s.tileH.toNat % 8 = 0 → s.tileH.toNat ≤ Config.hMax →
    (∀ y x, y < s.tileH.toNat → x < 160 → (pixelOf s y x).isSome) →
    ∃ t u, exec .pack s = .next t ∧ exec .unpack t = .next u ∧ u.tileH = s.tileH ∧
      ∀ a, u.pix.read a = s.pix.read a

/-- R193, the converse: UNPACK then PACK leaves the tile buffer and TILE_LEN as they were. -/
def Obligations.PackOfUnpackRestoresTiles : Prop :=
  ∀ s : State, s.tileLen.toNat % 320 = 0 → s.tileLen.toNat ≤ 40 * Config.hMax →
    (∀ k, k < s.tileLen.toNat → (s.til.read k).isSome) →
    ∃ t u, exec .unpack s = .next t ∧ exec .pack t = .next u ∧ u.tileLen = s.tileLen ∧
      ∀ a, u.til.read a = s.til.read a

/-- R195, R223, R224: an illegal height or length faults before anything is written. -/
def Obligations.IllegalTileSizesWriteNothing : Prop :=
  (∀ s : State, s.tileH.toNat % 8 ≠ 0 ∨ Config.hMax < s.tileH.toNat →
    exec .pack s = .next { s with
      fault := latched s 0x06, result := some (.fault 0x06 (some s.tileH.toNat)), activity := .idle }) ∧
  (∀ s : State, s.tileLen.toNat % 320 ≠ 0 ∨ 40 * Config.hMax < s.tileLen.toNat →
    exec .unpack s = .next { s with
      fault := latched s 0x07, result := some (.fault 0x07 (some s.tileLen.toNat)), activity := .idle })

/-! ### Wire commands -/

/-- R80, R101, with the frames of R95 to R99: with a reply to every exchange, each wire command loads TX, sends its frame and two
zero bytes, and takes the status pair. That executing a wire command IS the SEND of its frame is the model's reading (log 2,
DEDUCED): R95 to R99 give the frames only. The host's SEND of any frame of an assigned id does the same, whatever the flag and the
payload's shape (R65, R66, D40); a SEND of an unassigned id is refused (R77, U9). -/
def Obligations.WireCommandsSendTheirFrame : Prop :=
  (∀ (i : Instr) (s : State) (cmd comp : Byte) (payload rs : List Byte) (r0 r1 : Byte) (more : List LinkReply),
    wireFields i = some (cmd, comp, payload) → i.wf = true →
    rs.length = 8 + payload.length →
    s.peer = rs.map LinkReply.reply ++ [.reply r0, .reply r1] ++ more →
    ∃ t, exec i s = .next t ∧ SentWithReplies s t cmd comp payload (encode i) r0 r1 more) ∧
  (∀ (s : State) (cmd comp : Byte) (payload frame rs : List Byte) (r0 r1 : Byte) (more : List LinkReply)
    (rest : List HostAction), s.activity = .idle → s.host = .send frame :: rest → FrameOf frame cmd comp payload →
    cmd ∈ [0x01, 0x02, 0x04, 0x08, 0x0F] →
    rs.length = 8 + payload.length →
    s.peer = rs.map LinkReply.reply ++ [.reply r0, .reply r1] ++ more →
    ∃ t, step s = .next t ∧ SentWithReplies { s with host := rest } t cmd comp payload frame r0 r1 more) ∧
  (∀ (s : State) (cmd comp : Byte) (payload frame : List Byte) (rest : List HostAction), s.activity = .idle →
    s.host = .send frame :: rest → FrameOf frame cmd comp payload → cmd ∉ [0x01, 0x02, 0x04, 0x08, 0x0F] →
    step s = .refused (.unassignedCommand cmd))

/-- R101, R255: whatever the link peer answers, a wire command ends, with a status pair or with ReadTimeout, having sent a prefix
of its frame and the two zero bytes. That executing a wire command is the SEND of R101 is the model's reading (log 2, DEDUCED). The
host's SEND of any frame of an assigned id ends so too. -/
def Obligations.WireCommandsAlwaysEnd : Prop :=
  (∀ (i : Instr) (s : State) (cmd comp : Byte) (payload : List Byte),
    wireFields i = some (cmd, comp, payload) → i.wf = true →
    ∃ t, exec i s = .next t ∧ SentAndEnded s t (encode i)) ∧
  (∀ (s : State) (cmd comp : Byte) (payload frame : List Byte) (rest : List HostAction), s.activity = .idle →
    s.host = .send frame :: rest → FrameOf frame cmd comp payload → cmd ∈ [0x01, 0x02, 0x04, 0x08, 0x0F] →
    ∃ t, step s = .next t ∧ SentAndEnded { s with host := rest } t frame)

/-! ### Rules over all instructions and the host's side -/

/-- R41: an instruction touches only the buffers in its row; a wire command those of the SEND it stands for (log 2). -/
def Obligations.InstructionsTouchOnlyTheirBuffers : Prop :=
  ∀ (i : Instr) (s t : State) (b : BufName), exec i s = .next t → b ∉ buffersWritten i → sameBuffer b s t

/-- R47: only EXCHANGE and the commands that run it (log 2) reach the link. -/
def Obligations.OnlyExchangeReachesLink : Prop :=
  ∀ (i : Instr) (s t : State), exec i s = .next t → usesLink i = false →
    t.sent = s.sent ∧ t.linkN = s.linkN ∧ t.peer = s.peer

/-- No instruction touches what the host is about to do or has read, nor a register that only the host writes, but for the
registers a wire command loads and TILE_H, TILE_LEN (R11, R34). -/
def Obligations.InstructionsLeaveHostRegisters : Prop :=
  ∀ (i : Instr) (s t : State), exec i s = .next t →
    t.host = s.host ∧ t.readback = s.readback ∧ t.rxIn = s.rxIn ∧ t.rleIlen = s.rleIlen ∧
    (i.family ≠ .frame → t.txCmd = s.txCmd ∧ t.txComp = s.txComp ∧ t.txPlen = s.txPlen) ∧
    (i ≠ .unpack → t.tileH = s.tileH) ∧ (i ≠ .pack → t.tileLen = s.tileLen)

/-- R34, R257: while an operation is in progress the host does nothing: its actions wait, and what only the host writes stays. -/
def Obligations.HostWaitsDuringOperation : Prop :=
  ∀ s t : State, s.activity ≠ .idle → step s = .next t →
    t.host = s.host ∧ t.readback = s.readback ∧ t.txp = s.txp ∧ t.rli = s.rli ∧ t.til = s.til ∧ t.pix = s.pix ∧
    t.txf = s.txf ∧ t.txFlen = s.txFlen ∧ t.rleIlen = s.rleIlen

/-- R47: a host read changes nothing but what the host has in hand. -/
def Obligations.HostReadsHaveNoSideEffect : Prop :=
  ∀ (s t : State) (a : HostAction) (rest : List HostAction), s.activity = .idle → s.host = a :: rest →
    ((∃ n, a = .regRead n) ∨ (∃ b i, a = .bufRead b i) ∨ (∃ y x, a = .pixRead y x) ∨ ∃ v, a = .viewRead v) →
    step s = .next t → t = { s with host := rest, readback := t.readback }

/-- R11: a number written to a writable register is read back, and no other register changes. -/
def Obligations.WrittenRegisterReadsBack : Prop :=
  ∀ (s : State) (n x w : Nat), n ∈ [2, 3, 4, 11, 16, 19, 20] → regWidth n = some w → x < 2 ^ w →
    ∃ t, writeRegister n x s = .next t ∧ readRegister n t = .ok x ∧
      ∀ m, m ≠ n → readRegister m t = readRegister m s

/-- R34, R46, R54: a host write of TXP, RLI or TIL inside the buffer, or of a pixel, is taken in one step; it is read back, and
every other index and everything else is as before. -/
def Obligations.WrittenBufferReadsBack : Prop :=
  (∀ (s : State) (b : BufName) (i : Nat) (bs : List Byte) (rest : List HostAction), s.activity = .idle →
    b = .txp ∨ b = .rli ∨ b = .til → i + bs.length ≤ b.size → s.host = .bufWrite b i bs :: rest →
    ∃ t, step s = .next t ∧ writeBytes b i bs { s with host := rest } = .next t ∧
      t = { s with host := rest, txp := t.txp, rli := t.rli, til := t.til } ∧
      (∀ c, c ≠ b → sameBuffer c s t) ∧
      readBytes b i bs.length t = .ok bs ∧
      ∀ j n, j + n ≤ i ∨ i + bs.length ≤ j → readBytes b j n t = readBytes b j n s) ∧
  (∀ (s : State) (y x : Nat) (p : Pixel) (rest : List HostAction), s.activity = .idle → y < Config.hMax → x < 160 →
    s.host = .pixWrite y x p :: rest →
    ∃ t, step s = .next t ∧ writePixel y x p { s with host := rest } = .next t ∧
      t = { s with host := rest, pix := t.pix } ∧
      readPixel y x t = .ok p.toNat ∧
      ∀ v u, v ≠ y ∨ u ≠ x → readPixel v u t = readPixel v u s)

/-- R34: TXF, RXB and RLO are not writable by the host, nor are the registers R11 marks "R"; a number above 20 is no register. -/
def Obligations.OutputsAreReadOnlyToHost : Prop :=
  (∀ (s : State) (b : BufName) (i : Nat) (bs : List Byte), b = .txf ∨ b = .rxb ∨ b = .rlo → ∃ r, writeBytes b i bs s = .refused r) ∧
  (∀ (s : State) (n x : Nat), n ∈ [1, 5, 6, 7, 8, 9, 10, 12, 13, 14, 15, 17, 18] → ∃ r, writeRegister n x s = .refused r) ∧
  (∀ (s : State) (n x : Nat), 21 ≤ n → writeRegister n x s = .refused (.noSuchRegister n) ∧
    readRegister n s = .error (.noSuchRegister n)) ∧
  ∀ s : State, readRegister 0 s = .error (.registerWriteOnly 0)

/-- R28: a view is readable exactly from the RX_N the table gives, in every good parser state. -/
def Obligations.ViewsAreValidOnceStored : Prop :=
  ∀ s : State, ParserShape s →
    ((∃ v, s.readView .type = .ok v) ↔ 3 ≤ s.rxN.toNat) ∧
    ((∃ v, s.readView .comp = .ok v) ↔ 4 ≤ s.rxN.toNat) ∧
    ((∃ v, s.readView .dsize = .ok v) ↔ 6 ≤ s.rxN.toNat) ∧
    ((∃ v, s.readView .data = .ok v) ↔ 6 ≤ s.rxN.toNat ∧ 6 + declaredSize s ≤ s.rxN.toNat) ∧
    ((∃ v, s.readView .chk = .ok v) ↔ 6 ≤ s.rxN.toNat ∧ 8 + declaredSize s ≤ s.rxN.toNat) ∧
    ((∃ v, s.readView .resp0 = .ok v) ↔ 6 ≤ s.rxN.toNat ∧ s.rxN.toNat = 10 + declaredSize s) ∧
    ((∃ v, s.readView .resp1 = .ok v) ↔ 6 ≤ s.rxN.toNat ∧ s.rxN.toNat = 10 + declaredSize s)
end

