-- ==== Sys2Proof/Laws/Operands.lean ====
section
/-! SUPPORT. Laws of the pure functions: byte order, the frame sum and the frame's layout, flags, bitplanes. -/

namespace Sys2Proof.Machine

/-! ### Byte order -/

@[simp] theorem le16_toNat (lo hi : Byte) : (le16 lo hi).toNat = lo.toNat + 256 * hi.toNat := by
  have h1 := lo.isLt
  unfold le16
  rw [BitVec.toNat_append, Nat.shiftLeft_eq, ← Nat.shiftLeft_eq, ← Nat.shiftLeft_add_eq_or_of_lt (by omega)]
  rw [Nat.shiftLeft_eq]
  omega

@[simp] theorem lo8_toNat (v : Nat) : (lo8 v).toNat = v % 256 := by simp [lo8]

@[simp] theorem hi8_toNat (v : Nat) : (hi8 v).toNat = v / 256 % 256 := by simp [hi8]

/-- A number below 65536 is its two bytes. -/
theorem lo8_add_hi8 {v : Nat} (h : v < 65536) : (lo8 v).toNat + 256 * (hi8 v).toNat = v := by
  simp only [lo8_toNat, hi8_toNat]
  omega

/-- The bytes of a little-endian number are the bytes it was made of. -/
theorem lo8_le (lo hi : Byte) : lo8 (lo.toNat + 256 * hi.toNat) = lo := by
  apply BitVec.eq_of_toNat_eq
  have := lo.isLt
  simp only [lo8_toNat]
  omega

theorem hi8_le (lo hi : Byte) : hi8 (lo.toNat + 256 * hi.toNat) = hi := by
  apply BitVec.eq_of_toNat_eq
  have := lo.isLt
  have := hi.isLt
  simp only [hi8_toNat]
  omega

/-! ### Sums and frames -/

@[simp] theorem byteSum_nil : byteSum [] = 0 := rfl

@[simp] theorem byteSum_cons (b : Byte) (bs : List Byte) : byteSum (b :: bs) = b.toNat + byteSum bs := rfl

@[simp] theorem byteSum_append (as bs : List Byte) : byteSum (as ++ bs) = byteSum as + byteSum bs := by
  induction as with
  | nil => simp
  | cons a as ih => simp [ih, Nat.add_assoc]

theorem frameSum_toNat (cmd comp : Byte) (p : List Byte) :
    (frameSum cmd comp p).toNat =
      (cmd.toNat + comp.toNat + (lo8 p.length).toNat + (hi8 p.length).toNat + byteSum p) % 65536 := by
  simp [frameSum]

@[simp] theorem frameBytes_length (cmd comp : Byte) (p : List Byte) :
    (frameBytes cmd comp p).length = 8 + p.length := by
  simp [frameBytes]
  omega

/-- The frame as one list from the left. -/
theorem frameBytes_eq (cmd comp : Byte) (p : List Byte) :
    frameBytes cmd comp p =
      0x88 :: 0x33 :: cmd :: comp :: lo8 p.length :: hi8 p.length ::
        (p ++ [lo8 (frameSum cmd comp p).toNat, hi8 (frameSum cmd comp p).toNat]) := by
  simp [frameBytes]

/-- The payload stands in the frame from index 6 on. -/
theorem frameBytes_payload (cmd comp : Byte) (p : List Byte) {k : Nat} (h : k < p.length) :
    (frameBytes cmd comp p)[6 + k]? = p[k]? := by
  rw [frameBytes, List.append_assoc, List.getElem?_append_right (by simp), List.getElem?_append_left (by simpa using h)]
  simp

/-- The two check bytes follow the payload. -/
theorem frameBytes_check (cmd comp : Byte) (p : List Byte) :
    (frameBytes cmd comp p)[6 + p.length]? = some (lo8 (frameSum cmd comp p).toNat) ∧
    (frameBytes cmd comp p)[7 + p.length]? = some (hi8 (frameSum cmd comp p).toNat) := by
  have hl : ([0x88, 0x33, cmd, comp, lo8 p.length, hi8 p.length] ++ p).length = 6 + p.length := by
    simp
    omega
  unfold frameBytes
  constructor
  · rw [List.getElem?_append_right (by omega), hl, Nat.sub_self]
    rfl
  · rw [List.getElem?_append_right (by omega), hl, show 7 + p.length - (6 + p.length) = 1 by omega]
    rfl

/-- The check bytes of a frame assemble to its sum. -/
theorem le16_frameSum (s : BitVec 16) : le16 (lo8 s.toNat) (hi8 s.toNat) = s := by
  apply BitVec.eq_of_toNat_eq
  rw [le16_toNat, lo8_add_hi8 s.isLt]

/-! ### Two-bit registers -/

@[simp] theorem withBit0_bit0 (v : BitVec 2) (b : Bool) : (withBit0 v b).getLsbD 0 = b := by
  revert v b; decide

@[simp] theorem withBit0_bit1 (v : BitVec 2) (b : Bool) : (withBit0 v b).getLsbD 1 = v.getLsbD 1 := by
  revert v b; decide

@[simp] theorem withBit1_bit0 (v : BitVec 2) (b : Bool) : (withBit1 v b).getLsbD 0 = v.getLsbD 0 := by
  revert v b; decide

@[simp] theorem withBit1_bit1 (v : BitVec 2) (b : Bool) : (withBit1 v b).getLsbD 1 = b := by
  revert v b; decide

/-- The same four in the form `simp` leaves literal bit numbers in. -/
@[simp] theorem withBit0_get0 (v : BitVec 2) (b : Bool) : (withBit0 v b)[0] = b := by
  revert v b; decide

@[simp] theorem withBit0_get1 (v : BitVec 2) (b : Bool) : (withBit0 v b)[1] = v[1] := by
  revert v b; decide

@[simp] theorem withBit1_get0 (v : BitVec 2) (b : Bool) : (withBit1 v b)[0] = v[0] := by
  revert v b; decide

@[simp] theorem withBit1_get1 (v : BitVec 2) (b : Bool) : (withBit1 v b)[1] = b := by
  revert v b; decide

@[simp] theorem verifyStat_get0 (b : Bool) : (verifyStat b)[0] = true := by
  revert b; decide

@[simp] theorem verifyStat_get1 (b : Bool) : (verifyStat b)[1] = b := by
  revert b; decide

@[simp] theorem verifyStat_bit0 (b : Bool) : (verifyStat b).getLsbD 0 = true := by
  revert b; decide

@[simp] theorem verifyStat_bit1 (b : Bool) : (verifyStat b).getLsbD 1 = b := by
  revert b; decide

/-! ### Bitplanes -/

/-- Lane `i` of a bitplane byte is pixel `i`'s bit (R74, R199). -/
theorem planeByte_lane (f : Nat → Bool) (i : Nat) (h : i < 8) :
    (planeByte ((List.range 8).map f)).getLsbD (7 - i) = f i := by
  have key : ∀ b0 b1 b2 b3 b4 b5 b6 b7 : Bool,
      let p := planeByte [b0, b1, b2, b3, b4, b5, b6, b7]
      p.getLsbD 7 = b0 ∧ p.getLsbD 6 = b1 ∧ p.getLsbD 5 = b2 ∧ p.getLsbD 4 = b3 ∧
      p.getLsbD 3 = b4 ∧ p.getLsbD 2 = b5 ∧ p.getLsbD 1 = b6 ∧ p.getLsbD 0 = b7 := by
    decide
  have := key (f 0) (f 1) (f 2) (f 3) (f 4) (f 5) (f 6) (f 7)
  simp only at this
  obtain ⟨h0, h1, h2, h3, h4, h5, h6, h7⟩ := this
  have hr : (List.range 8).map f = [f 0, f 1, f 2, f 3, f 4, f 5, f 6, f 7] := rfl
  rw [hr]
  interval_cases i <;> assumption

/-- Eight pixels as a function of the lane. -/
theorem eight_as_range {px : List Pixel} (h : px.length = 8) :
    px = (List.range 8).map fun i => px.getD i 0 := by
  apply List.ext_getElem
  · simp [h]
  · intro i h1 h2
    simp [List.getElem?_eq_getElem h1]

theorem tileRowBytes_length (px : List Pixel) : (tileRowBytes px).length = 2 := rfl

/-- The low bitplane byte of a tile row, lane by lane. -/
theorem tileRowBytes_low {px : List Pixel} (h : px.length = 8) {i : Nat} (hi : i < 8) :
    ∃ lo, (tileRowBytes px)[0]? = some lo ∧ lo.getLsbD (7 - i) = (px.getD i 0).getLsbD 0 := by
  refine ⟨_, rfl, ?_⟩
  conv_lhs => rw [eight_as_range h]
  rw [List.map_map, planeByte_lane _ i hi]
  rfl

/-- The high bitplane byte of a tile row, lane by lane. -/
theorem tileRowBytes_high {px : List Pixel} (h : px.length = 8) {i : Nat} (hi : i < 8) :
    ∃ b, (tileRowBytes px)[1]? = some b ∧ b.getLsbD (7 - i) = (px.getD i 0).getLsbD 1 := by
  refine ⟨_, rfl, ?_⟩
  conv_lhs => rw [eight_as_range h]
  rw [List.map_map, planeByte_lane _ i hi]
  rfl

theorem tileRowPixel_bit0 (lo hi : Byte) (i : Nat) : (tileRowPixel lo hi i).getLsbD 0 = lo.getLsbD (7 - i) := by
  unfold tileRowPixel
  generalize hi.getLsbD (7 - i) = a
  generalize lo.getLsbD (7 - i) = b
  revert a b; decide

theorem tileRowPixel_bit1 (lo hi : Byte) (i : Nat) : (tileRowPixel lo hi i).getLsbD 1 = hi.getLsbD (7 - i) := by
  unfold tileRowPixel
  generalize hi.getLsbD (7 - i) = a
  generalize lo.getLsbD (7 - i) = b
  revert a b; decide

/-- A pixel is its two bits. -/
theorem pixel_ext {p q : Pixel} (h0 : p.getLsbD 0 = q.getLsbD 0) (h1 : p.getLsbD 1 = q.getLsbD 1) : p = q := by
  revert p q; decide

end Sys2Proof.Machine
end

