-- ==== Sys2Proof/Laws/Decode.lean ====
section
/-! SUPPORT. Laws of the decoder and the encoder: a frame followed by anything, the margin byte, control bytes, the opcode table. -/

namespace Sys2Proof

open Sys2Proof.Machine

/-- A frame is read back as its id, flag and payload, and what follows is left. -/
theorem readFrame_frameBytes (cmd comp : Byte) (p rest : List Byte) (h : p.length ≤ 65535) :
    readFrame (frameBytes cmd comp p ++ rest) = .ok ({ cmd, comp, payload := p }, rest) := by
  have hl : (le16 (lo8 p.length) (hi8 p.length)).toNat = p.length := by
    rw [le16_toNat, lo8_add_hi8 (by omega)]
  have hd : (p ++ lo8 (frameSum cmd comp p).toNat :: hi8 (frameSum cmd comp p).toNat :: rest).drop p.length =
      lo8 (frameSum cmd comp p).toNat :: hi8 (frameSum cmd comp p).toNat :: rest := by simp
  have ht : (p ++ lo8 (frameSum cmd comp p).toNat :: hi8 (frameSum cmd comp p).toNat :: rest).take p.length = p := by
    simp
  rw [frameBytes_eq]
  simp only [List.cons_append, List.append_assoc, List.nil_append, readFrame, hl, readFrameBody, and_self, if_true,
    hd, ht, le16_frameSum]

/-- A frame is decoded as the wire command its id, flag and payload are, and what follows is left. -/
theorem decodeFrame_frameBytes (cmd comp : Byte) (p rest : List Byte) (h : p.length ≤ 65535) :
    decodeFrame (frameBytes cmd comp p ++ rest) = (decodeCommand cmd comp p).map fun i => (i, rest) := by
  rw [decodeFrame, readFrame_frameBytes cmd comp p rest h]

/-- Bytes are read as a frame only where they are that frame, and its payload has a length the field holds (R61 to R63). -/
theorem readFrame_ok {bytes rest : List Byte} {f : Frame} (h : readFrame bytes = .ok (f, rest)) :
    bytes = frameBytes f.cmd f.comp f.payload ++ rest ∧ f.payload.length ≤ 65535 := by
  unfold readFrame at h
  split at h
  · rename_i m0 m1 cmd comp lo hi rst
    split at h
    · rename_i hm
      obtain ⟨rfl, rfl⟩ := hm
      unfold readFrameBody at h
      split at h
      · rename_i cl ch tail hd
        split at h
        · rename_i hs
          injection h with h
          injection h with hf ht
          subst hf ht
          have hlt := (le16 lo hi).isLt
          have hlen : (rst.take (le16 lo hi).toNat).length = (le16 lo hi).toNat := by
            have := congrArg List.length hd
            simp only [List.length_drop, List.length_cons] at this
            simp only [List.length_take]
            omega
          have hrst : rst = rst.take (le16 lo hi).toNat ++ cl :: ch :: tail := by rw [← hd, List.take_append_drop]
          refine ⟨?_, by simp only [hlen]; omega⟩
          simp only
          generalize rst.take (le16 lo hi).toNat = p at hlen hrst hs ⊢
          rw [frameBytes_eq, hlen, ← hs, le16_toNat, le16_toNat, lo8_le, hi8_le, lo8_le, hi8_le, hrst]
          simp
        · cases h
      · cases h
    · cases h
  all_goals cases h

/-- A row of the table has an assigned id (R64). -/
theorem decodeCommand_assigned {cmd comp : Byte} {p : List Byte} {i : Instr} (h : decodeCommand cmd comp p = .ok i) :
    assignedCommand cmd = true := by
  unfold decodeCommand at h
  split at h <;> rename_i hc
  case h_6 => cases h
  all_goals
    unfold assignedCommand
    rw [hc]
    rfl

/-- A command without payload decodes from flag 0x00 and no payload only (R66). -/
theorem bareCommand_ok {i j : Instr} {comp : Byte} {p : List Byte} (h : bareCommand i comp p = .ok j) :
    comp = 0x00 ∧ p = [] ∧ j = i := by
  unfold bareCommand at h
  split at h
  · rename_i hb
    injection h with h
    exact ⟨hb.1, hb.2, h.symm⟩
  · cases h

/-- PRINT decodes from flag 0x00 and four payload bytes only (R66, R67). -/
theorem printCommand_ok {i : Instr} {comp : Byte} {p : List Byte} (h : printCommand comp p = .ok i) :
    ∃ sheets margin palette exposure : Byte, comp = 0x00 ∧ p = [sheets, margin, palette, exposure] ∧
      i = .print sheets (margin.extractLsb' 4 4) (margin.extractLsb' 0 4) palette exposure := by
  unfold printCommand at h
  split at h
  · split at h
    · rename_i hb
      injection h with h
      exact ⟨_, _, _, _, hb, rfl, h.symm⟩
    · cases h
  · cases h

/-- The command ids R64 assigns, one by one. -/
theorem assignedCommand_iff : ∀ cmd : Byte,
    assignedCommand cmd = true ↔ cmd = 0x01 ∨ cmd = 0x02 ∨ cmd = 0x04 ∨ cmd = 0x08 ∨ cmd = 0x0F := by decide

theorem marginByte_top (top bottom : BitVec 4) : (marginByte top bottom).extractLsb' 4 4 = top := by
  revert top bottom; decide

theorem marginByte_bottom (top bottom : BitVec 4) : (marginByte top bottom).extractLsb' 0 4 = bottom := by
  revert top bottom; decide

/-- The margin byte is 16 times its top nibble plus its bottom nibble (R68). -/
theorem marginByte_toNat (top bottom : BitVec 4) : (marginByte top bottom).toNat = 16 * top.toNat + bottom.toNat := by
  revert top bottom; decide

theorem marginByte_of_nibbles : ∀ m : Byte, marginByte (m.extractLsb' 4 4) (m.extractLsb' 0 4) = m := by decide

theorem isRep_iff : ∀ c : Byte, isRep c = decide (128 ≤ c.toNat) := by decide

theorem isRep_rep (n : BitVec 7) : isRep (1#1 ++ n) = true := by
  revert n; decide

theorem repField_rep (n : BitVec 7) : (1#1 ++ n : BitVec 8).setWidth 7 = n := by
  revert n; decide

theorem rep_of_isRep : ∀ c : Byte, isRep c = true → 1#1 ++ c.setWidth 7 = c := by decide

/-- The count field of a control byte with bit 7 set (R72). -/
theorem repField_toNat : ∀ c : Byte, isRep c = true → (c.setWidth 7).toNat = c.toNat - 128 := by decide

theorem runOperands_rep {c : Byte} (h : isRep c = true) : runOperands c = 1 := by simp [runOperands, h]

theorem runOperands_lit {c : Byte} (h : isRep c = false) : runOperands c = c.toNat + 1 := by simp [runOperands, h]

/-- A literal run's control byte (R72): bit 7 clear, and its count is the number of data bytes. -/
theorem litControl {bs : List Byte} (h1 : 1 ≤ bs.length) (h2 : bs.length ≤ 128) :
    isRep (lo8 (bs.length - 1)) = false ∧ runOperands (lo8 (bs.length - 1)) = bs.length := by
  have hv : (lo8 (bs.length - 1)).toNat = bs.length - 1 := by
    rw [lo8_toNat]
    omega
  have hr : isRep (lo8 (bs.length - 1)) = false := by
    rw [isRep_iff, hv]
    simp
    omega
  refine ⟨hr, ?_⟩
  rw [runOperands_lit hr, hv]
  omega

theorem lit_wf {bs : List Byte} : (Instr.lit bs).wf = true ↔ 1 ≤ bs.length ∧ bs.length ≤ 128 := by
  simp [Instr.wf]

theorem data_wf {comp : Byte} {p : List Byte} : (Instr.data comp p).wf = true ↔ p.length ≤ 65535 :=
  decide_eq_true_iff

end Sys2Proof
end

