-- ==== Sys2Proof/Laws/Memory.lean ====
section
/-! SUPPORT. Laws of the buffers: read after write, the canonical form is kept, ranges, and the loop `collect`. -/

namespace Sys2Proof.Machine

variable {n : Nat}

/-! ### Reading -/

@[simp] theorem Memory.read_nil (a : Nat) : Memory.read ([] : Memory n) a = none := rfl

theorem Memory.read_append (m k : Memory n) (a : Nat) :
    Memory.read (m ++ k) a = (Memory.read m a).or (Memory.read k a) := by
  induction m with
  | nil => simp
  | cons c m ih =>
    obtain ⟨b, v⟩ := c
    simp only [List.cons_append, Memory.read]
    split <;> simp [ih]

/-- Filtering by the index keeps what is read where the filter holds, and nothing elsewhere. -/
theorem Memory.read_filter (p : Nat → Bool) (m : Memory n) (a : Nat) :
    Memory.read (m.filter fun c => p c.1) a = if p a then Memory.read m a else none := by
  induction m with
  | nil => simp
  | cons c m ih =>
    obtain ⟨b, v⟩ := c
    by_cases hb : p b
    · simp only [List.filter_cons, hb, if_true, Memory.read]
      by_cases hab : a = b
      · simp [hab, hb]
      · simp [hab, ih]
    · simp only [List.filter_cons, hb, Memory.read]
      by_cases hab : a = b
      · subst hab; simp [hb, ih]
      · simp [hab, ih]

theorem Memory.read_cellsFrom (i : Nat) (vs : List (BitVec n)) (a : Nat) :
    Memory.read (cellsFrom i vs) a = if i ≤ a then vs[a - i]? else none := by
  induction vs generalizing i with
  | nil => simp [cellsFrom]
  | cons v vs ih =>
    simp only [cellsFrom, Memory.read, ih]
    by_cases h : a = i
    · simp [h]
    · by_cases h2 : i ≤ a
      · have h3 : i + 1 ≤ a := by omega
        have h4 : a - i = (a - (i + 1)) + 1 := by omega
        simp [h, h2, h3, h4]
      · have h3 : ¬ i + 1 ≤ a := by omega
        simp [h, h2, h3]

/-- Read after write: inside the stored sequence its content, elsewhere as before. -/
theorem Memory.read_splice (m : Memory n) (i : Nat) (vs : List (BitVec n)) (a : Nat) :
    Memory.read (m.splice i vs) a =
      if i ≤ a ∧ a < i + vs.length then vs[a - i]? else Memory.read m a := by
  unfold Memory.splice
  rw [Memory.read_append, Memory.read_append, Memory.read_filter (fun k => decide (k < i)),
    Memory.read_filter (fun k => decide (i + vs.length ≤ k)), Memory.read_cellsFrom]
  by_cases h1 : a < i
  · simp [h1, show ¬ i ≤ a by omega, show ¬ (i + vs.length ≤ a) by omega]
  · by_cases h2 : a < i + vs.length
    · have h3 : a - i < vs.length := by omega
      simp [h1, h2, show i ≤ a by omega, h3]
    · simp [h1, h2, show i ≤ a by omega, show i + vs.length ≤ a by omega,
        List.getElem?_eq_none (show vs.length ≤ a - i by omega)]

/-- A write leaves every other index alone. -/
theorem Memory.read_splice_outside {m : Memory n} {i : Nat} {vs : List (BitVec n)} {a : Nat}
    (h : a < i ∨ i + vs.length ≤ a) : Memory.read (m.splice i vs) a = Memory.read m a := by
  rw [Memory.read_splice, if_neg (by omega)]

/-- A write gives its content back. -/
theorem Memory.read_splice_inside {m : Memory n} {i : Nat} {vs : List (BitVec n)} {k : Nat}
    (h : k < vs.length) : Memory.read (m.splice i vs) (i + k) = some vs[k] := by
  rw [Memory.read_splice, if_pos (by omega)]
  simp [h]

/-! ### The canonical form -/

theorem cellsFrom_index {i : Nat} {vs : List (BitVec n)} {c : Nat × BitVec n} (h : c ∈ cellsFrom i vs) :
    i ≤ c.1 ∧ c.1 < i + vs.length := by
  induction vs generalizing i with
  | nil => simp [cellsFrom] at h
  | cons v vs ih =>
    simp only [cellsFrom, List.mem_cons] at h
    rcases h with rfl | h
    · simp
    · have := ih h
      simp only [List.length_cons]
      omega

theorem cellsFrom_wf (i : Nat) (vs : List (BitVec n)) : Memory.wf (cellsFrom i vs) := by
  induction vs generalizing i with
  | nil => simp [cellsFrom, Memory.wf]
  | cons v vs ih =>
    simp only [cellsFrom, Memory.wf, List.pairwise_cons]
    exact ⟨fun c hc => (cellsFrom_index hc).1, ih (i + 1)⟩

/-- Every write keeps the canonical form. -/
theorem Memory.wf_splice {m : Memory n} (h : m.wf) (i : Nat) (vs : List (BitVec n)) : (m.splice i vs).wf := by
  unfold Memory.splice Memory.wf
  rw [List.pairwise_append, List.pairwise_append]
  refine ⟨⟨h.filter _, cellsFrom_wf i vs, ?_⟩, h.filter _, ?_⟩
  · intro a ha b hb
    have := (cellsFrom_index hb).1
    simp only [List.mem_filter, decide_eq_true_eq] at ha
    omega
  · intro a ha b hb
    simp only [List.mem_filter, decide_eq_true_eq] at hb
    rcases List.mem_append.1 ha with ha | ha
    · simp only [List.mem_filter, decide_eq_true_eq] at ha
      omega
    · have := (cellsFrom_index ha).2
      omega

theorem Memory.wf_nil : Memory.wf ([] : Memory n) := List.Pairwise.nil

/-- A write inside the buffer keeps every index inside. -/
theorem Memory.below_splice {m : Memory n} {size : Nat} (h : m.below size) {i : Nat} {vs : List (BitVec n)}
    (hi : i + vs.length ≤ size) : (m.splice i vs).below size := by
  intro c hc
  unfold Memory.splice at hc
  simp only [List.mem_append, List.mem_filter] at hc
  rcases hc with (hc | hc) | hc
  · exact h c hc.1
  · have := (cellsFrom_index hc).2
    omega
  · exact h c hc.1

theorem Memory.below_nil (size : Nat) : Memory.below ([] : Memory n) size := by
  intro c hc
  simp at hc

theorem Memory.read_eq_none_of_lt {m : Memory n} {a : Nat} (h : ∀ c ∈ m, a < c.1) : m.read a = none := by
  induction m with
  | nil => rfl
  | cons c m ih =>
    obtain ⟨k, v⟩ := c
    have hk : a < k := h (k, v) (by simp)
    rw [Memory.read, if_neg (by omega)]
    exact ih fun c hc => h c (by simp [hc])

/-- Two buffers in canonical form that read alike everywhere are equal. -/
theorem Memory.ext_of_read {m k : Memory n} (hm : m.wf) (hk : k.wf) (h : ∀ a, m.read a = k.read a) : m = k := by
  induction m generalizing k with
  | nil =>
    cases k with
    | nil => rfl
    | cons c k =>
      obtain ⟨b, v⟩ := c
      have := h b
      simp [Memory.read] at this
  | cons c m ih =>
    obtain ⟨a, v⟩ := c
    cases k with
    | nil =>
      have := h a
      simp [Memory.read] at this
    | cons d k =>
      obtain ⟨b, w⟩ := d
      rw [Memory.wf, List.pairwise_cons] at hm hk
      have hab : a = b := by
        rcases Nat.lt_trichotomy a b with hlt | heq | hgt
        · have h1 := h a
          rw [Memory.read_eq_none_of_lt (m := (b, w) :: k)] at h1
          · simp [Memory.read] at h1
          · intro c hc
            rcases List.mem_cons.1 hc with rfl | hc
            · exact hlt
            · exact Nat.lt_trans hlt (hk.1 c hc)
        · exact heq
        · have h1 := h b
          rw [Memory.read_eq_none_of_lt (m := (a, v) :: m)] at h1
          · simp [Memory.read] at h1
          · intro c hc
            rcases List.mem_cons.1 hc with rfl | hc
            · exact hgt
            · exact Nat.lt_trans hgt (hm.1 c hc)
      subst hab
      have hv : v = w := by
        have := h a
        simpa [Memory.read] using this
      subst hv
      have htail : m = k := by
        refine ih hm.2 hk.2 fun x => ?_
        by_cases hx : x = a
        · subst hx
          rw [Memory.read_eq_none_of_lt hm.1, Memory.read_eq_none_of_lt hk.1]
        · have := h x
          simpa [Memory.read, hx] using this
      rw [htail]

/-! ### Ranges -/

/-- A range is read exactly when each of its indexes is, and it is then the list of what they hold. -/
theorem Memory.readRange_eq_some {m : Memory n} {i len : Nat} {vs : List (BitVec n)} :
    m.readRange i len = some vs ↔ vs.length = len ∧ ∀ k, k < len → m.read (i + k) = vs[k]? := by
  induction len generalizing i vs with
  | zero =>
    constructor
    · intro h
      simp only [Memory.readRange, Option.some.injEq] at h
      simp [← h]
    · rintro ⟨h, -⟩
      simp [Memory.readRange, List.eq_nil_of_length_eq_zero h]
  | succ len ih =>
    constructor
    · intro h
      simp only [Memory.readRange] at h
      split at h
      · rename_i v ws hv hws
        cases h
        obtain ⟨hl, hr⟩ := ih.1 hws
        refine ⟨by simp [hl], fun k hk => ?_⟩
        cases k with
        | zero => simpa using hv
        | succ k =>
          have := hr k (by omega)
          simpa [Nat.add_assoc, Nat.add_comm 1 k] using this
      · cases h
    · rintro ⟨hl, hr⟩
      cases vs with
      | nil => simp at hl
      | cons v ws =>
        have h0 : m.read i = some v := by simpa using hr 0 (by omega)
        have h1 : m.readRange (i + 1) len = some ws := by
          refine ih.2 ⟨by simpa using hl, fun k hk => ?_⟩
          have := hr (k + 1) (by omega)
          simpa [Nat.add_assoc, Nat.add_comm 1 k] using this
        simp [Memory.readRange, h0, h1]

theorem Memory.readRange_length {m : Memory n} {i len : Nat} {vs : List (BitVec n)}
    (h : m.readRange i len = some vs) : vs.length = len := (Memory.readRange_eq_some.1 h).1

theorem Memory.read_of_readRange {m : Memory n} {i len k : Nat} {vs : List (BitVec n)}
    (h : m.readRange i len = some vs) (hk : k < len) : m.read (i + k) = vs[k]? :=
  (Memory.readRange_eq_some.1 h).2 k hk

/-- A range whose every index has a value is read. -/
theorem Memory.readRange_isSome {m : Memory n} {i len : Nat} (h : ∀ k, k < len → (m.read (i + k)).isSome) :
    ∃ vs, m.readRange i len = some vs := by
  induction len generalizing i with
  | zero => exact ⟨[], rfl⟩
  | succ len ih =>
    obtain ⟨v, hv⟩ := Option.isSome_iff_exists.1 (by simpa using h 0 (by omega))
    obtain ⟨vs, hvs⟩ := ih (i := i + 1) fun k hk => by
      have := h (k + 1) (by omega)
      simpa [Nat.add_assoc, Nat.add_comm 1 k] using this
    exact ⟨v :: vs, by simp [Memory.readRange, hv, hvs]⟩

/-- What has been written is read back as a range. -/
theorem Memory.readRange_splice (m : Memory n) (i : Nat) (vs : List (BitVec n)) :
    (m.splice i vs).readRange i vs.length = some vs := by
  refine Memory.readRange_eq_some.2 ⟨rfl, fun k hk => ?_⟩
  rw [Memory.read_splice_inside hk]
  simp [hk]

/-- A range depends only on what its indexes hold. -/
theorem Memory.readRange_congr {m k : Memory n} {i len : Nat}
    (h : ∀ j, j < len → m.read (i + j) = k.read (i + j)) : m.readRange i len = k.readRange i len := by
  induction len generalizing i with
  | zero => rfl
  | succ len ih =>
    have h0 : m.read i = k.read i := by simpa using h 0 (by omega)
    have h1 : m.readRange (i + 1) len = k.readRange (i + 1) len := ih fun j hj => by
      have := h (j + 1) (by omega)
      simpa [Nat.add_assoc, Nat.add_comm 1 j] using this
    simp [Memory.readRange, h0, h1]

/-- A range after another. -/
theorem Memory.readRange_append {m : Memory n} {i a b : Nat} {us vs : List (BitVec n)}
    (hu : m.readRange i a = some us) (hv : m.readRange (i + a) b = some vs) :
    m.readRange i (a + b) = some (us ++ vs) := by
  obtain ⟨hul, hur⟩ := Memory.readRange_eq_some.1 hu
  obtain ⟨hvl, hvr⟩ := Memory.readRange_eq_some.1 hv
  refine Memory.readRange_eq_some.2 ⟨by simp [hul, hvl], fun k hk => ?_⟩
  by_cases h : k < a
  · rw [hur k h, List.getElem?_append_left (by omega)]
  · rw [List.getElem?_append_right (by omega), hul, ← hvr (k - a) (by omega)]
    congr 1
    omega

/-! ### The loop -/

/-- If every piece is there and each has `len` elements, the loop gives `count * len` elements, and element `len * k + j` is
element `j` of piece `k`. -/
theorem collect_pieces {α : Type} {count len : Nat} {f : Nat → Option (List α)} {g : Nat → List α}
    (h : ∀ k, k < count → f k = some (g k) ∧ (g k).length = len) :
    ∃ xs, collect count f = some xs ∧ xs.length = count * len ∧
      ∀ k j, k < count → j < len → xs[len * k + j]? = (g k)[j]? := by
  induction count with
  | zero => exact ⟨[], rfl, by simp, fun k j hk => by omega⟩
  | succ count ih =>
    obtain ⟨xs, hx, hl, hr⟩ := ih fun k hk => h k (by omega)
    obtain ⟨hf, hg⟩ := h count (by omega)
    refine ⟨xs ++ g count, by simp [collect, hx, hf], by simp [hl, hg, Nat.succ_mul], fun k j hk hj => ?_⟩
    by_cases hkc : k < count
    · have hlt : len * k + j < xs.length := by
        rw [hl]
        calc len * k + j < len * k + len := by omega
          _ = len * (k + 1) := by ring
          _ ≤ len * count := Nat.mul_le_mul_left _ hkc
          _ = count * len := Nat.mul_comm _ _
      rw [List.getElem?_append_left hlt, hr k j hkc hj]
    · have hkeq : k = count := by omega
      subst hkeq
      have hge : xs.length ≤ len * k + j := by rw [hl, Nat.mul_comm]; omega
      rw [List.getElem?_append_right hge, hl, Nat.mul_comm k len, Nat.add_sub_cancel_left]

/-- If the loop gives a sequence, every piece is there. -/
theorem collect_isSome {α : Type} {count : Nat} {f : Nat → Option (List α)} {xs : List α}
    (h : collect count f = some xs) : ∀ k, k < count → (f k).isSome := by
  induction count generalizing xs with
  | zero => intro k hk; omega
  | succ count ih =>
    simp only [collect] at h
    split at h
    · rename_i us vs hu hv
      intro k hk
      by_cases hkc : k < count
      · exact ih hu k hkc
      · have : k = count := by omega
        simp [this, hv]
    · cases h

end Sys2Proof.Machine
end

