-- ==== Sys2Proof/Laws/PerInstr.lean ====
section
/-! SUPPORT. Statements made per instruction. -/

namespace Sys2Proof.Laws.TableRow

open Sys2Proof Sys2Proof.Machine

/-- The encoding of a well-formed instruction carries the pattern of its row of the opcode table (R64, R72, R76). -/
def Statement (i : Instr) : Prop := i.wf = true → i.matchesRow = true

theorem encode : Statement .encode := fun _ => rfl

theorem exchange : Statement .exchange := fun _ => rfl

theorem decodeStatus : Statement .decodeStatus := fun _ => rfl

theorem addByte : Statement .addByte := fun _ => rfl

theorem verify : Statement .verify := fun _ => rfl

theorem rxReset : Statement .rxReset := fun _ => rfl

theorem decompress : Statement .decompress := fun _ => rfl

theorem pack : Statement .pack := fun _ => rfl

theorem unpack : Statement .unpack := fun _ => rfl

theorem faultClear : Statement .faultClear := fun _ => rfl

theorem init : Statement .init := fun _ => rfl

theorem print (sheets : Byte) (top bottom : BitVec 4) (palette exposure : Byte) :
    Statement (.print sheets top bottom palette exposure) := by
  intro _
  simp [Instr.matchesRow, Instr.row, Sys2Proof.encode, frameBytes_eq]

theorem data (comp : Byte) (payload : List Byte) : Statement (.data comp payload) := by
  intro _
  simp [Instr.matchesRow, Instr.row, Sys2Proof.encode, frameBytes_eq]

theorem brk : Statement .brk := fun _ => rfl

theorem status : Statement .status := fun _ => rfl

theorem rep (n : BitVec 7) (value : Byte) : Statement (.rep n value) := by
  have key : ∀ n : BitVec 7, ((1#1 ++ n : Byte) &&& 0x80 == 0x80) = true := by decide
  exact fun _ => key n

theorem lit (bytes : List Byte) : Statement (.lit bytes) := by
  intro h
  obtain ⟨h1, h2⟩ := lit_wf.1 h
  have key : ∀ c : Byte, isRep c = false → (c &&& 0x80 == 0x00) = true := by decide
  exact key _ (litControl h1 h2).1

end Sys2Proof.Laws.TableRow
end

