-- ==== Sys2Proof/Laws/State.lean ====
section
/-! SUPPORT. One lemma for each field of State and each shared update, so that no proof unfolds a record update. -/

namespace Sys2Proof.Machine

@[simp] theorem raise_fault (f : OpFault) (info : Option Nat) (s : State) : (State.raise f info s).fault = if s.fault = 0x00 then f.code else s.fault := rfl
@[simp] theorem raise_txCmd (f : OpFault) (info : Option Nat) (s : State) : (State.raise f info s).txCmd = s.txCmd := rfl
@[simp] theorem raise_txComp (f : OpFault) (info : Option Nat) (s : State) : (State.raise f info s).txComp = s.txComp := rfl
@[simp] theorem raise_txPlen (f : OpFault) (info : Option Nat) (s : State) : (State.raise f info s).txPlen = s.txPlen := rfl
@[simp] theorem raise_txFlen (f : OpFault) (info : Option Nat) (s : State) : (State.raise f info s).txFlen = s.txFlen := rfl
@[simp] theorem raise_txStat (f : OpFault) (info : Option Nat) (s : State) : (State.raise f info s).txStat = s.txStat := rfl
@[simp] theorem raise_txIdx (f : OpFault) (info : Option Nat) (s : State) : (State.raise f info s).txIdx = s.txIdx := rfl
@[simp] theorem raise_resp0 (f : OpFault) (info : Option Nat) (s : State) : (State.raise f info s).resp0 = s.resp0 := rfl
@[simp] theorem raise_resp1 (f : OpFault) (info : Option Nat) (s : State) : (State.raise f info s).resp1 = s.resp1 := rfl
@[simp] theorem raise_cond (f : OpFault) (info : Option Nat) (s : State) : (State.raise f info s).cond = s.cond := rfl
@[simp] theorem raise_rxIn (f : OpFault) (info : Option Nat) (s : State) : (State.raise f info s).rxIn = s.rxIn := rfl
@[simp] theorem raise_rxState (f : OpFault) (info : Option Nat) (s : State) : (State.raise f info s).rxState = s.rxState := rfl
@[simp] theorem raise_rxN (f : OpFault) (info : Option Nat) (s : State) : (State.raise f info s).rxN = s.rxN := rfl
@[simp] theorem raise_rxSum (f : OpFault) (info : Option Nat) (s : State) : (State.raise f info s).rxSum = s.rxSum := rfl
@[simp] theorem raise_rxStat (f : OpFault) (info : Option Nat) (s : State) : (State.raise f info s).rxStat = s.rxStat := rfl
@[simp] theorem raise_rleIlen (f : OpFault) (info : Option Nat) (s : State) : (State.raise f info s).rleIlen = s.rleIlen := rfl
@[simp] theorem raise_rleIp (f : OpFault) (info : Option Nat) (s : State) : (State.raise f info s).rleIp = s.rleIp := rfl
@[simp] theorem raise_rleOcnt (f : OpFault) (info : Option Nat) (s : State) : (State.raise f info s).rleOcnt = s.rleOcnt := rfl
@[simp] theorem raise_tileH (f : OpFault) (info : Option Nat) (s : State) : (State.raise f info s).tileH = s.tileH := rfl
@[simp] theorem raise_tileLen (f : OpFault) (info : Option Nat) (s : State) : (State.raise f info s).tileLen = s.tileLen := rfl
@[simp] theorem raise_txp (f : OpFault) (info : Option Nat) (s : State) : (State.raise f info s).txp = s.txp := rfl
@[simp] theorem raise_txf (f : OpFault) (info : Option Nat) (s : State) : (State.raise f info s).txf = s.txf := rfl
@[simp] theorem raise_rxb (f : OpFault) (info : Option Nat) (s : State) : (State.raise f info s).rxb = s.rxb := rfl
@[simp] theorem raise_rli (f : OpFault) (info : Option Nat) (s : State) : (State.raise f info s).rli = s.rli := rfl
@[simp] theorem raise_rlo (f : OpFault) (info : Option Nat) (s : State) : (State.raise f info s).rlo = s.rlo := rfl
@[simp] theorem raise_til (f : OpFault) (info : Option Nat) (s : State) : (State.raise f info s).til = s.til := rfl
@[simp] theorem raise_pix (f : OpFault) (info : Option Nat) (s : State) : (State.raise f info s).pix = s.pix := rfl
@[simp] theorem raise_result (f : OpFault) (info : Option Nat) (s : State) : (State.raise f info s).result = some (.fault f.code info) := rfl
@[simp] theorem raise_activity (f : OpFault) (info : Option Nat) (s : State) : (State.raise f info s).activity = .idle := rfl
@[simp] theorem raise_host (f : OpFault) (info : Option Nat) (s : State) : (State.raise f info s).host = s.host := rfl
@[simp] theorem raise_readback (f : OpFault) (info : Option Nat) (s : State) : (State.raise f info s).readback = s.readback := rfl
@[simp] theorem raise_peer (f : OpFault) (info : Option Nat) (s : State) : (State.raise f info s).peer = s.peer := rfl
@[simp] theorem raise_linkN (f : OpFault) (info : Option Nat) (s : State) : (State.raise f info s).linkN = s.linkN := rfl
@[simp] theorem raise_sent (f : OpFault) (info : Option Nat) (s : State) : (State.raise f info s).sent = s.sent := rfl
@[simp] theorem raise_freeN (f : OpFault) (info : Option Nat) (s : State) : (State.raise f info s).freeN = s.freeN := rfl
@[simp] theorem raise_txFlenKnown (f : OpFault) (info : Option Nat) (s : State) : (State.raise f info s).txFlenKnown = s.txFlenKnown := rfl
@[simp] theorem raise_respKnown (f : OpFault) (info : Option Nat) (s : State) : (State.raise f info s).respKnown = s.respKnown := rfl

@[simp] theorem endOk_fault (s : State) : s.endOk.fault = s.fault := rfl
@[simp] theorem endOk_txCmd (s : State) : s.endOk.txCmd = s.txCmd := rfl
@[simp] theorem endOk_txComp (s : State) : s.endOk.txComp = s.txComp := rfl
@[simp] theorem endOk_txPlen (s : State) : s.endOk.txPlen = s.txPlen := rfl
@[simp] theorem endOk_txFlen (s : State) : s.endOk.txFlen = s.txFlen := rfl
@[simp] theorem endOk_txStat (s : State) : s.endOk.txStat = s.txStat := rfl
@[simp] theorem endOk_txIdx (s : State) : s.endOk.txIdx = s.txIdx := rfl
@[simp] theorem endOk_resp0 (s : State) : s.endOk.resp0 = s.resp0 := rfl
@[simp] theorem endOk_resp1 (s : State) : s.endOk.resp1 = s.resp1 := rfl
@[simp] theorem endOk_cond (s : State) : s.endOk.cond = s.cond := rfl
@[simp] theorem endOk_rxIn (s : State) : s.endOk.rxIn = s.rxIn := rfl
@[simp] theorem endOk_rxState (s : State) : s.endOk.rxState = s.rxState := rfl
@[simp] theorem endOk_rxN (s : State) : s.endOk.rxN = s.rxN := rfl
@[simp] theorem endOk_rxSum (s : State) : s.endOk.rxSum = s.rxSum := rfl
@[simp] theorem endOk_rxStat (s : State) : s.endOk.rxStat = s.rxStat := rfl
@[simp] theorem endOk_rleIlen (s : State) : s.endOk.rleIlen = s.rleIlen := rfl
@[simp] theorem endOk_rleIp (s : State) : s.endOk.rleIp = s.rleIp := rfl
@[simp] theorem endOk_rleOcnt (s : State) : s.endOk.rleOcnt = s.rleOcnt := rfl
@[simp] theorem endOk_tileH (s : State) : s.endOk.tileH = s.tileH := rfl
@[simp] theorem endOk_tileLen (s : State) : s.endOk.tileLen = s.tileLen := rfl
@[simp] theorem endOk_txp (s : State) : s.endOk.txp = s.txp := rfl
@[simp] theorem endOk_txf (s : State) : s.endOk.txf = s.txf := rfl
@[simp] theorem endOk_rxb (s : State) : s.endOk.rxb = s.rxb := rfl
@[simp] theorem endOk_rli (s : State) : s.endOk.rli = s.rli := rfl
@[simp] theorem endOk_rlo (s : State) : s.endOk.rlo = s.rlo := rfl
@[simp] theorem endOk_til (s : State) : s.endOk.til = s.til := rfl
@[simp] theorem endOk_pix (s : State) : s.endOk.pix = s.pix := rfl
@[simp] theorem endOk_result (s : State) : s.endOk.result = some .ok := rfl
@[simp] theorem endOk_activity (s : State) : s.endOk.activity = .idle := rfl
@[simp] theorem endOk_host (s : State) : s.endOk.host = s.host := rfl
@[simp] theorem endOk_readback (s : State) : s.endOk.readback = s.readback := rfl
@[simp] theorem endOk_peer (s : State) : s.endOk.peer = s.peer := rfl
@[simp] theorem endOk_linkN (s : State) : s.endOk.linkN = s.linkN := rfl
@[simp] theorem endOk_sent (s : State) : s.endOk.sent = s.sent := rfl
@[simp] theorem endOk_freeN (s : State) : s.endOk.freeN = s.freeN := rfl
@[simp] theorem endOk_txFlenKnown (s : State) : s.endOk.txFlenKnown = s.txFlenKnown := rfl
@[simp] theorem endOk_respKnown (s : State) : s.endOk.respKnown = s.respKnown := rfl

@[simp] theorem clearFault_fault (s : State) : s.clearFault.fault = 0x00 := rfl
@[simp] theorem clearFault_txCmd (s : State) : s.clearFault.txCmd = s.txCmd := rfl
@[simp] theorem clearFault_txComp (s : State) : s.clearFault.txComp = s.txComp := rfl
@[simp] theorem clearFault_txPlen (s : State) : s.clearFault.txPlen = s.txPlen := rfl
@[simp] theorem clearFault_txFlen (s : State) : s.clearFault.txFlen = s.txFlen := rfl
@[simp] theorem clearFault_txStat (s : State) : s.clearFault.txStat = s.txStat := rfl
@[simp] theorem clearFault_txIdx (s : State) : s.clearFault.txIdx = s.txIdx := rfl
@[simp] theorem clearFault_resp0 (s : State) : s.clearFault.resp0 = s.resp0 := rfl
@[simp] theorem clearFault_resp1 (s : State) : s.clearFault.resp1 = s.resp1 := rfl
@[simp] theorem clearFault_cond (s : State) : s.clearFault.cond = s.cond := rfl
@[simp] theorem clearFault_rxIn (s : State) : s.clearFault.rxIn = s.rxIn := rfl
@[simp] theorem clearFault_rxState (s : State) : s.clearFault.rxState = s.rxState := rfl
@[simp] theorem clearFault_rxN (s : State) : s.clearFault.rxN = s.rxN := rfl
@[simp] theorem clearFault_rxSum (s : State) : s.clearFault.rxSum = s.rxSum := rfl
@[simp] theorem clearFault_rxStat (s : State) : s.clearFault.rxStat = s.rxStat := rfl
@[simp] theorem clearFault_rleIlen (s : State) : s.clearFault.rleIlen = s.rleIlen := rfl
@[simp] theorem clearFault_rleIp (s : State) : s.clearFault.rleIp = s.rleIp := rfl
@[simp] theorem clearFault_rleOcnt (s : State) : s.clearFault.rleOcnt = s.rleOcnt := rfl
@[simp] theorem clearFault_tileH (s : State) : s.clearFault.tileH = s.tileH := rfl
@[simp] theorem clearFault_tileLen (s : State) : s.clearFault.tileLen = s.tileLen := rfl
@[simp] theorem clearFault_txp (s : State) : s.clearFault.txp = s.txp := rfl
@[simp] theorem clearFault_txf (s : State) : s.clearFault.txf = s.txf := rfl
@[simp] theorem clearFault_rxb (s : State) : s.clearFault.rxb = s.rxb := rfl
@[simp] theorem clearFault_rli (s : State) : s.clearFault.rli = s.rli := rfl
@[simp] theorem clearFault_rlo (s : State) : s.clearFault.rlo = s.rlo := rfl
@[simp] theorem clearFault_til (s : State) : s.clearFault.til = s.til := rfl
@[simp] theorem clearFault_pix (s : State) : s.clearFault.pix = s.pix := rfl
@[simp] theorem clearFault_result (s : State) : s.clearFault.result = s.result := rfl
@[simp] theorem clearFault_activity (s : State) : s.clearFault.activity = s.activity := rfl
@[simp] theorem clearFault_host (s : State) : s.clearFault.host = s.host := rfl
@[simp] theorem clearFault_readback (s : State) : s.clearFault.readback = s.readback := rfl
@[simp] theorem clearFault_peer (s : State) : s.clearFault.peer = s.peer := rfl
@[simp] theorem clearFault_linkN (s : State) : s.clearFault.linkN = s.linkN := rfl
@[simp] theorem clearFault_sent (s : State) : s.clearFault.sent = s.sent := rfl
@[simp] theorem clearFault_freeN (s : State) : s.clearFault.freeN = s.freeN := rfl
@[simp] theorem clearFault_txFlenKnown (s : State) : s.clearFault.txFlenKnown = s.txFlenKnown := rfl
@[simp] theorem clearFault_respKnown (s : State) : s.clearFault.respKnown = s.respKnown := rfl

@[simp] theorem linkXfer_fault (b : Byte) (s : State) : (linkXfer b s).2.fault = s.fault := rfl
@[simp] theorem linkXfer_txCmd (b : Byte) (s : State) : (linkXfer b s).2.txCmd = s.txCmd := rfl
@[simp] theorem linkXfer_txComp (b : Byte) (s : State) : (linkXfer b s).2.txComp = s.txComp := rfl
@[simp] theorem linkXfer_txPlen (b : Byte) (s : State) : (linkXfer b s).2.txPlen = s.txPlen := rfl
@[simp] theorem linkXfer_txFlen (b : Byte) (s : State) : (linkXfer b s).2.txFlen = s.txFlen := rfl
@[simp] theorem linkXfer_txStat (b : Byte) (s : State) : (linkXfer b s).2.txStat = s.txStat := rfl
@[simp] theorem linkXfer_txIdx (b : Byte) (s : State) : (linkXfer b s).2.txIdx = s.txIdx := rfl
@[simp] theorem linkXfer_resp0 (b : Byte) (s : State) : (linkXfer b s).2.resp0 = s.resp0 := rfl
@[simp] theorem linkXfer_resp1 (b : Byte) (s : State) : (linkXfer b s).2.resp1 = s.resp1 := rfl
@[simp] theorem linkXfer_cond (b : Byte) (s : State) : (linkXfer b s).2.cond = s.cond := rfl
@[simp] theorem linkXfer_rxIn (b : Byte) (s : State) : (linkXfer b s).2.rxIn = s.rxIn := rfl
@[simp] theorem linkXfer_rxState (b : Byte) (s : State) : (linkXfer b s).2.rxState = s.rxState := rfl
@[simp] theorem linkXfer_rxN (b : Byte) (s : State) : (linkXfer b s).2.rxN = s.rxN := rfl
@[simp] theorem linkXfer_rxSum (b : Byte) (s : State) : (linkXfer b s).2.rxSum = s.rxSum := rfl
@[simp] theorem linkXfer_rxStat (b : Byte) (s : State) : (linkXfer b s).2.rxStat = s.rxStat := rfl
@[simp] theorem linkXfer_rleIlen (b : Byte) (s : State) : (linkXfer b s).2.rleIlen = s.rleIlen := rfl
@[simp] theorem linkXfer_rleIp (b : Byte) (s : State) : (linkXfer b s).2.rleIp = s.rleIp := rfl
@[simp] theorem linkXfer_rleOcnt (b : Byte) (s : State) : (linkXfer b s).2.rleOcnt = s.rleOcnt := rfl
@[simp] theorem linkXfer_tileH (b : Byte) (s : State) : (linkXfer b s).2.tileH = s.tileH := rfl
@[simp] theorem linkXfer_tileLen (b : Byte) (s : State) : (linkXfer b s).2.tileLen = s.tileLen := rfl
@[simp] theorem linkXfer_txp (b : Byte) (s : State) : (linkXfer b s).2.txp = s.txp := rfl
@[simp] theorem linkXfer_txf (b : Byte) (s : State) : (linkXfer b s).2.txf = s.txf := rfl
@[simp] theorem linkXfer_rxb (b : Byte) (s : State) : (linkXfer b s).2.rxb = s.rxb := rfl
@[simp] theorem linkXfer_rli (b : Byte) (s : State) : (linkXfer b s).2.rli = s.rli := rfl
@[simp] theorem linkXfer_rlo (b : Byte) (s : State) : (linkXfer b s).2.rlo = s.rlo := rfl
@[simp] theorem linkXfer_til (b : Byte) (s : State) : (linkXfer b s).2.til = s.til := rfl
@[simp] theorem linkXfer_pix (b : Byte) (s : State) : (linkXfer b s).2.pix = s.pix := rfl
@[simp] theorem linkXfer_result (b : Byte) (s : State) : (linkXfer b s).2.result = s.result := rfl
@[simp] theorem linkXfer_activity (b : Byte) (s : State) : (linkXfer b s).2.activity = s.activity := rfl
@[simp] theorem linkXfer_host (b : Byte) (s : State) : (linkXfer b s).2.host = s.host := rfl
@[simp] theorem linkXfer_readback (b : Byte) (s : State) : (linkXfer b s).2.readback = s.readback := rfl
@[simp] theorem linkXfer_peer (b : Byte) (s : State) : (linkXfer b s).2.peer = s.peer.tail := rfl
@[simp] theorem linkXfer_linkN (b : Byte) (s : State) : (linkXfer b s).2.linkN = s.linkN + 1 := rfl
@[simp] theorem linkXfer_sent (b : Byte) (s : State) : (linkXfer b s).2.sent = s.sent ++ [b] := rfl
@[simp] theorem linkXfer_freeN (b : Byte) (s : State) : (linkXfer b s).2.freeN = s.freeN := rfl
@[simp] theorem linkXfer_txFlenKnown (b : Byte) (s : State) : (linkXfer b s).2.txFlenKnown = s.txFlenKnown := rfl
@[simp] theorem linkXfer_respKnown (b : Byte) (s : State) : (linkXfer b s).2.respKnown = s.respKnown := rfl

@[simp] theorem bumpIdx_fault (s : State) : (bumpIdx s).fault = s.fault := rfl
@[simp] theorem bumpIdx_txCmd (s : State) : (bumpIdx s).txCmd = s.txCmd := rfl
@[simp] theorem bumpIdx_txComp (s : State) : (bumpIdx s).txComp = s.txComp := rfl
@[simp] theorem bumpIdx_txPlen (s : State) : (bumpIdx s).txPlen = s.txPlen := rfl
@[simp] theorem bumpIdx_txFlen (s : State) : (bumpIdx s).txFlen = s.txFlen := rfl
@[simp] theorem bumpIdx_txStat (s : State) : (bumpIdx s).txStat = s.txStat := rfl
@[simp] theorem bumpIdx_txIdx (s : State) : (bumpIdx s).txIdx = s.txIdx + 1 := rfl
@[simp] theorem bumpIdx_resp0 (s : State) : (bumpIdx s).resp0 = s.resp0 := rfl
@[simp] theorem bumpIdx_resp1 (s : State) : (bumpIdx s).resp1 = s.resp1 := rfl
@[simp] theorem bumpIdx_cond (s : State) : (bumpIdx s).cond = s.cond := rfl
@[simp] theorem bumpIdx_rxIn (s : State) : (bumpIdx s).rxIn = s.rxIn := rfl
@[simp] theorem bumpIdx_rxState (s : State) : (bumpIdx s).rxState = s.rxState := rfl
@[simp] theorem bumpIdx_rxN (s : State) : (bumpIdx s).rxN = s.rxN := rfl
@[simp] theorem bumpIdx_rxSum (s : State) : (bumpIdx s).rxSum = s.rxSum := rfl
@[simp] theorem bumpIdx_rxStat (s : State) : (bumpIdx s).rxStat = s.rxStat := rfl
@[simp] theorem bumpIdx_rleIlen (s : State) : (bumpIdx s).rleIlen = s.rleIlen := rfl
@[simp] theorem bumpIdx_rleIp (s : State) : (bumpIdx s).rleIp = s.rleIp := rfl
@[simp] theorem bumpIdx_rleOcnt (s : State) : (bumpIdx s).rleOcnt = s.rleOcnt := rfl
@[simp] theorem bumpIdx_tileH (s : State) : (bumpIdx s).tileH = s.tileH := rfl
@[simp] theorem bumpIdx_tileLen (s : State) : (bumpIdx s).tileLen = s.tileLen := rfl
@[simp] theorem bumpIdx_txp (s : State) : (bumpIdx s).txp = s.txp := rfl
@[simp] theorem bumpIdx_txf (s : State) : (bumpIdx s).txf = s.txf := rfl
@[simp] theorem bumpIdx_rxb (s : State) : (bumpIdx s).rxb = s.rxb := rfl
@[simp] theorem bumpIdx_rli (s : State) : (bumpIdx s).rli = s.rli := rfl
@[simp] theorem bumpIdx_rlo (s : State) : (bumpIdx s).rlo = s.rlo := rfl
@[simp] theorem bumpIdx_til (s : State) : (bumpIdx s).til = s.til := rfl
@[simp] theorem bumpIdx_pix (s : State) : (bumpIdx s).pix = s.pix := rfl
@[simp] theorem bumpIdx_result (s : State) : (bumpIdx s).result = s.result := rfl
@[simp] theorem bumpIdx_activity (s : State) : (bumpIdx s).activity = s.activity := rfl
@[simp] theorem bumpIdx_host (s : State) : (bumpIdx s).host = s.host := rfl
@[simp] theorem bumpIdx_readback (s : State) : (bumpIdx s).readback = s.readback := rfl
@[simp] theorem bumpIdx_peer (s : State) : (bumpIdx s).peer = s.peer := rfl
@[simp] theorem bumpIdx_linkN (s : State) : (bumpIdx s).linkN = s.linkN := rfl
@[simp] theorem bumpIdx_sent (s : State) : (bumpIdx s).sent = s.sent := rfl
@[simp] theorem bumpIdx_freeN (s : State) : (bumpIdx s).freeN = s.freeN := rfl
@[simp] theorem bumpIdx_txFlenKnown (s : State) : (bumpIdx s).txFlenKnown = s.txFlenKnown := rfl
@[simp] theorem bumpIdx_respKnown (s : State) : (bumpIdx s).respKnown = s.respKnown := rfl

@[simp] theorem exchangeStart_fault (s : State) : (exchangeStart s).fault = s.fault := rfl
@[simp] theorem exchangeStart_txCmd (s : State) : (exchangeStart s).txCmd = s.txCmd := rfl
@[simp] theorem exchangeStart_txComp (s : State) : (exchangeStart s).txComp = s.txComp := rfl
@[simp] theorem exchangeStart_txPlen (s : State) : (exchangeStart s).txPlen = s.txPlen := rfl
@[simp] theorem exchangeStart_txFlen (s : State) : (exchangeStart s).txFlen = s.txFlen := rfl
@[simp] theorem exchangeStart_txStat (s : State) : (exchangeStart s).txStat = withBit1 s.txStat false := rfl
@[simp] theorem exchangeStart_txIdx (s : State) : (exchangeStart s).txIdx = 0 := rfl
@[simp] theorem exchangeStart_resp0 (s : State) : (exchangeStart s).resp0 = s.resp0 := rfl
@[simp] theorem exchangeStart_resp1 (s : State) : (exchangeStart s).resp1 = s.resp1 := rfl
@[simp] theorem exchangeStart_cond (s : State) : (exchangeStart s).cond = s.cond := rfl
@[simp] theorem exchangeStart_rxIn (s : State) : (exchangeStart s).rxIn = s.rxIn := rfl
@[simp] theorem exchangeStart_rxState (s : State) : (exchangeStart s).rxState = s.rxState := rfl
@[simp] theorem exchangeStart_rxN (s : State) : (exchangeStart s).rxN = s.rxN := rfl
@[simp] theorem exchangeStart_rxSum (s : State) : (exchangeStart s).rxSum = s.rxSum := rfl
@[simp] theorem exchangeStart_rxStat (s : State) : (exchangeStart s).rxStat = s.rxStat := rfl
@[simp] theorem exchangeStart_rleIlen (s : State) : (exchangeStart s).rleIlen = s.rleIlen := rfl
@[simp] theorem exchangeStart_rleIp (s : State) : (exchangeStart s).rleIp = s.rleIp := rfl
@[simp] theorem exchangeStart_rleOcnt (s : State) : (exchangeStart s).rleOcnt = s.rleOcnt := rfl
@[simp] theorem exchangeStart_tileH (s : State) : (exchangeStart s).tileH = s.tileH := rfl
@[simp] theorem exchangeStart_tileLen (s : State) : (exchangeStart s).tileLen = s.tileLen := rfl
@[simp] theorem exchangeStart_txp (s : State) : (exchangeStart s).txp = s.txp := rfl
@[simp] theorem exchangeStart_txf (s : State) : (exchangeStart s).txf = s.txf := rfl
@[simp] theorem exchangeStart_rxb (s : State) : (exchangeStart s).rxb = s.rxb := rfl
@[simp] theorem exchangeStart_rli (s : State) : (exchangeStart s).rli = s.rli := rfl
@[simp] theorem exchangeStart_rlo (s : State) : (exchangeStart s).rlo = s.rlo := rfl
@[simp] theorem exchangeStart_til (s : State) : (exchangeStart s).til = s.til := rfl
@[simp] theorem exchangeStart_pix (s : State) : (exchangeStart s).pix = s.pix := rfl
@[simp] theorem exchangeStart_result (s : State) : (exchangeStart s).result = s.result := rfl
@[simp] theorem exchangeStart_activity (s : State) : (exchangeStart s).activity = s.activity := rfl
@[simp] theorem exchangeStart_host (s : State) : (exchangeStart s).host = s.host := rfl
@[simp] theorem exchangeStart_readback (s : State) : (exchangeStart s).readback = s.readback := rfl
@[simp] theorem exchangeStart_peer (s : State) : (exchangeStart s).peer = s.peer := rfl
@[simp] theorem exchangeStart_linkN (s : State) : (exchangeStart s).linkN = s.linkN := rfl
@[simp] theorem exchangeStart_sent (s : State) : (exchangeStart s).sent = s.sent := rfl
@[simp] theorem exchangeStart_freeN (s : State) : (exchangeStart s).freeN = s.freeN := rfl
@[simp] theorem exchangeStart_txFlenKnown (s : State) : (exchangeStart s).txFlenKnown = s.txFlenKnown := rfl
@[simp] theorem exchangeStart_respKnown (s : State) : (exchangeStart s).respKnown = s.respKnown := rfl

@[simp] theorem loadTx_fault (cmd comp : Byte) (p : List Byte) (s : State) : (loadTx cmd comp p s).fault = s.fault := rfl
@[simp] theorem loadTx_txCmd (cmd comp : Byte) (p : List Byte) (s : State) : (loadTx cmd comp p s).txCmd = cmd := rfl
@[simp] theorem loadTx_txComp (cmd comp : Byte) (p : List Byte) (s : State) : (loadTx cmd comp p s).txComp = comp := rfl
@[simp] theorem loadTx_txPlen (cmd comp : Byte) (p : List Byte) (s : State) : (loadTx cmd comp p s).txPlen = BitVec.ofNat 17 p.length := rfl
@[simp] theorem loadTx_txFlen (cmd comp : Byte) (p : List Byte) (s : State) : (loadTx cmd comp p s).txFlen = s.txFlen := rfl
@[simp] theorem loadTx_txStat (cmd comp : Byte) (p : List Byte) (s : State) : (loadTx cmd comp p s).txStat = s.txStat := rfl
@[simp] theorem loadTx_txIdx (cmd comp : Byte) (p : List Byte) (s : State) : (loadTx cmd comp p s).txIdx = s.txIdx := rfl
@[simp] theorem loadTx_resp0 (cmd comp : Byte) (p : List Byte) (s : State) : (loadTx cmd comp p s).resp0 = s.resp0 := rfl
@[simp] theorem loadTx_resp1 (cmd comp : Byte) (p : List Byte) (s : State) : (loadTx cmd comp p s).resp1 = s.resp1 := rfl
@[simp] theorem loadTx_cond (cmd comp : Byte) (p : List Byte) (s : State) : (loadTx cmd comp p s).cond = s.cond := rfl
@[simp] theorem loadTx_rxIn (cmd comp : Byte) (p : List Byte) (s : State) : (loadTx cmd comp p s).rxIn = s.rxIn := rfl
@[simp] theorem loadTx_rxState (cmd comp : Byte) (p : List Byte) (s : State) : (loadTx cmd comp p s).rxState = s.rxState := rfl
@[simp] theorem loadTx_rxN (cmd comp : Byte) (p : List Byte) (s : State) : (loadTx cmd comp p s).rxN = s.rxN := rfl
@[simp] theorem loadTx_rxSum (cmd comp : Byte) (p : List Byte) (s : State) : (loadTx cmd comp p s).rxSum = s.rxSum := rfl
@[simp] theorem loadTx_rxStat (cmd comp : Byte) (p : List Byte) (s : State) : (loadTx cmd comp p s).rxStat = s.rxStat := rfl
@[simp] theorem loadTx_rleIlen (cmd comp : Byte) (p : List Byte) (s : State) : (loadTx cmd comp p s).rleIlen = s.rleIlen := rfl
@[simp] theorem loadTx_rleIp (cmd comp : Byte) (p : List Byte) (s : State) : (loadTx cmd comp p s).rleIp = s.rleIp := rfl
@[simp] theorem loadTx_rleOcnt (cmd comp : Byte) (p : List Byte) (s : State) : (loadTx cmd comp p s).rleOcnt = s.rleOcnt := rfl
@[simp] theorem loadTx_tileH (cmd comp : Byte) (p : List Byte) (s : State) : (loadTx cmd comp p s).tileH = s.tileH := rfl
@[simp] theorem loadTx_tileLen (cmd comp : Byte) (p : List Byte) (s : State) : (loadTx cmd comp p s).tileLen = s.tileLen := rfl
@[simp] theorem loadTx_txp (cmd comp : Byte) (p : List Byte) (s : State) : (loadTx cmd comp p s).txp = s.txp.splice 0 p := rfl
@[simp] theorem loadTx_txf (cmd comp : Byte) (p : List Byte) (s : State) : (loadTx cmd comp p s).txf = s.txf := rfl
@[simp] theorem loadTx_rxb (cmd comp : Byte) (p : List Byte) (s : State) : (loadTx cmd comp p s).rxb = s.rxb := rfl
@[simp] theorem loadTx_rli (cmd comp : Byte) (p : List Byte) (s : State) : (loadTx cmd comp p s).rli = s.rli := rfl
@[simp] theorem loadTx_rlo (cmd comp : Byte) (p : List Byte) (s : State) : (loadTx cmd comp p s).rlo = s.rlo := rfl
@[simp] theorem loadTx_til (cmd comp : Byte) (p : List Byte) (s : State) : (loadTx cmd comp p s).til = s.til := rfl
@[simp] theorem loadTx_pix (cmd comp : Byte) (p : List Byte) (s : State) : (loadTx cmd comp p s).pix = s.pix := rfl
@[simp] theorem loadTx_result (cmd comp : Byte) (p : List Byte) (s : State) : (loadTx cmd comp p s).result = s.result := rfl
@[simp] theorem loadTx_activity (cmd comp : Byte) (p : List Byte) (s : State) : (loadTx cmd comp p s).activity = s.activity := rfl
@[simp] theorem loadTx_host (cmd comp : Byte) (p : List Byte) (s : State) : (loadTx cmd comp p s).host = s.host := rfl
@[simp] theorem loadTx_readback (cmd comp : Byte) (p : List Byte) (s : State) : (loadTx cmd comp p s).readback = s.readback := rfl
@[simp] theorem loadTx_peer (cmd comp : Byte) (p : List Byte) (s : State) : (loadTx cmd comp p s).peer = s.peer := rfl
@[simp] theorem loadTx_linkN (cmd comp : Byte) (p : List Byte) (s : State) : (loadTx cmd comp p s).linkN = s.linkN := rfl
@[simp] theorem loadTx_sent (cmd comp : Byte) (p : List Byte) (s : State) : (loadTx cmd comp p s).sent = s.sent := rfl
@[simp] theorem loadTx_freeN (cmd comp : Byte) (p : List Byte) (s : State) : (loadTx cmd comp p s).freeN = s.freeN := rfl
@[simp] theorem loadTx_txFlenKnown (cmd comp : Byte) (p : List Byte) (s : State) : (loadTx cmd comp p s).txFlenKnown = s.txFlenKnown := rfl
@[simp] theorem loadTx_respKnown (cmd comp : Byte) (p : List Byte) (s : State) : (loadTx cmd comp p s).respKnown = s.respKnown := rfl

@[simp] theorem rxStore_fault (b : Byte) (s : State) : (rxStore b s).fault = s.fault := rfl
@[simp] theorem rxStore_txCmd (b : Byte) (s : State) : (rxStore b s).txCmd = s.txCmd := rfl
@[simp] theorem rxStore_txComp (b : Byte) (s : State) : (rxStore b s).txComp = s.txComp := rfl
@[simp] theorem rxStore_txPlen (b : Byte) (s : State) : (rxStore b s).txPlen = s.txPlen := rfl
@[simp] theorem rxStore_txFlen (b : Byte) (s : State) : (rxStore b s).txFlen = s.txFlen := rfl
@[simp] theorem rxStore_txStat (b : Byte) (s : State) : (rxStore b s).txStat = s.txStat := rfl
@[simp] theorem rxStore_txIdx (b : Byte) (s : State) : (rxStore b s).txIdx = s.txIdx := rfl
@[simp] theorem rxStore_resp0 (b : Byte) (s : State) : (rxStore b s).resp0 = s.resp0 := rfl
@[simp] theorem rxStore_resp1 (b : Byte) (s : State) : (rxStore b s).resp1 = s.resp1 := rfl
@[simp] theorem rxStore_cond (b : Byte) (s : State) : (rxStore b s).cond = s.cond := rfl
@[simp] theorem rxStore_rxIn (b : Byte) (s : State) : (rxStore b s).rxIn = s.rxIn := rfl
@[simp] theorem rxStore_rxState (b : Byte) (s : State) : (rxStore b s).rxState = s.rxState := rfl
@[simp] theorem rxStore_rxN (b : Byte) (s : State) : (rxStore b s).rxN = s.rxN + 1 := rfl
@[simp] theorem rxStore_rxSum (b : Byte) (s : State) : (rxStore b s).rxSum = s.rxSum := rfl
@[simp] theorem rxStore_rxStat (b : Byte) (s : State) : (rxStore b s).rxStat = s.rxStat := rfl
@[simp] theorem rxStore_rleIlen (b : Byte) (s : State) : (rxStore b s).rleIlen = s.rleIlen := rfl
@[simp] theorem rxStore_rleIp (b : Byte) (s : State) : (rxStore b s).rleIp = s.rleIp := rfl
@[simp] theorem rxStore_rleOcnt (b : Byte) (s : State) : (rxStore b s).rleOcnt = s.rleOcnt := rfl
@[simp] theorem rxStore_tileH (b : Byte) (s : State) : (rxStore b s).tileH = s.tileH := rfl
@[simp] theorem rxStore_tileLen (b : Byte) (s : State) : (rxStore b s).tileLen = s.tileLen := rfl
@[simp] theorem rxStore_txp (b : Byte) (s : State) : (rxStore b s).txp = s.txp := rfl
@[simp] theorem rxStore_txf (b : Byte) (s : State) : (rxStore b s).txf = s.txf := rfl
@[simp] theorem rxStore_rxb (b : Byte) (s : State) : (rxStore b s).rxb = s.rxb.splice s.rxN.toNat [b] := rfl
@[simp] theorem rxStore_rli (b : Byte) (s : State) : (rxStore b s).rli = s.rli := rfl
@[simp] theorem rxStore_rlo (b : Byte) (s : State) : (rxStore b s).rlo = s.rlo := rfl
@[simp] theorem rxStore_til (b : Byte) (s : State) : (rxStore b s).til = s.til := rfl
@[simp] theorem rxStore_pix (b : Byte) (s : State) : (rxStore b s).pix = s.pix := rfl
@[simp] theorem rxStore_result (b : Byte) (s : State) : (rxStore b s).result = s.result := rfl
@[simp] theorem rxStore_activity (b : Byte) (s : State) : (rxStore b s).activity = s.activity := rfl
@[simp] theorem rxStore_host (b : Byte) (s : State) : (rxStore b s).host = s.host := rfl
@[simp] theorem rxStore_readback (b : Byte) (s : State) : (rxStore b s).readback = s.readback := rfl
@[simp] theorem rxStore_peer (b : Byte) (s : State) : (rxStore b s).peer = s.peer := rfl
@[simp] theorem rxStore_linkN (b : Byte) (s : State) : (rxStore b s).linkN = s.linkN := rfl
@[simp] theorem rxStore_sent (b : Byte) (s : State) : (rxStore b s).sent = s.sent := rfl
@[simp] theorem rxStore_freeN (b : Byte) (s : State) : (rxStore b s).freeN = s.freeN := rfl
@[simp] theorem rxStore_txFlenKnown (b : Byte) (s : State) : (rxStore b s).txFlenKnown = s.txFlenKnown := rfl
@[simp] theorem rxStore_respKnown (b : Byte) (s : State) : (rxStore b s).respKnown = s.respKnown := rfl

@[simp] theorem rxStoreSum_fault (b : Byte) (s : State) : (rxStoreSum b s).fault = s.fault := rfl
@[simp] theorem rxStoreSum_txCmd (b : Byte) (s : State) : (rxStoreSum b s).txCmd = s.txCmd := rfl
@[simp] theorem rxStoreSum_txComp (b : Byte) (s : State) : (rxStoreSum b s).txComp = s.txComp := rfl
@[simp] theorem rxStoreSum_txPlen (b : Byte) (s : State) : (rxStoreSum b s).txPlen = s.txPlen := rfl
@[simp] theorem rxStoreSum_txFlen (b : Byte) (s : State) : (rxStoreSum b s).txFlen = s.txFlen := rfl
@[simp] theorem rxStoreSum_txStat (b : Byte) (s : State) : (rxStoreSum b s).txStat = s.txStat := rfl
@[simp] theorem rxStoreSum_txIdx (b : Byte) (s : State) : (rxStoreSum b s).txIdx = s.txIdx := rfl
@[simp] theorem rxStoreSum_resp0 (b : Byte) (s : State) : (rxStoreSum b s).resp0 = s.resp0 := rfl
@[simp] theorem rxStoreSum_resp1 (b : Byte) (s : State) : (rxStoreSum b s).resp1 = s.resp1 := rfl
@[simp] theorem rxStoreSum_cond (b : Byte) (s : State) : (rxStoreSum b s).cond = s.cond := rfl
@[simp] theorem rxStoreSum_rxIn (b : Byte) (s : State) : (rxStoreSum b s).rxIn = s.rxIn := rfl
@[simp] theorem rxStoreSum_rxState (b : Byte) (s : State) : (rxStoreSum b s).rxState = s.rxState := rfl
@[simp] theorem rxStoreSum_rxN (b : Byte) (s : State) : (rxStoreSum b s).rxN = s.rxN + 1 := rfl
@[simp] theorem rxStoreSum_rxSum (b : Byte) (s : State) : (rxStoreSum b s).rxSum = s.rxSum + b.setWidth 16 := rfl
@[simp] theorem rxStoreSum_rxStat (b : Byte) (s : State) : (rxStoreSum b s).rxStat = s.rxStat := rfl
@[simp] theorem rxStoreSum_rleIlen (b : Byte) (s : State) : (rxStoreSum b s).rleIlen = s.rleIlen := rfl
@[simp] theorem rxStoreSum_rleIp (b : Byte) (s : State) : (rxStoreSum b s).rleIp = s.rleIp := rfl
@[simp] theorem rxStoreSum_rleOcnt (b : Byte) (s : State) : (rxStoreSum b s).rleOcnt = s.rleOcnt := rfl
@[simp] theorem rxStoreSum_tileH (b : Byte) (s : State) : (rxStoreSum b s).tileH = s.tileH := rfl
@[simp] theorem rxStoreSum_tileLen (b : Byte) (s : State) : (rxStoreSum b s).tileLen = s.tileLen := rfl
@[simp] theorem rxStoreSum_txp (b : Byte) (s : State) : (rxStoreSum b s).txp = s.txp := rfl
@[simp] theorem rxStoreSum_txf (b : Byte) (s : State) : (rxStoreSum b s).txf = s.txf := rfl
@[simp] theorem rxStoreSum_rxb (b : Byte) (s : State) : (rxStoreSum b s).rxb = s.rxb.splice s.rxN.toNat [b] := rfl
@[simp] theorem rxStoreSum_rli (b : Byte) (s : State) : (rxStoreSum b s).rli = s.rli := rfl
@[simp] theorem rxStoreSum_rlo (b : Byte) (s : State) : (rxStoreSum b s).rlo = s.rlo := rfl
@[simp] theorem rxStoreSum_til (b : Byte) (s : State) : (rxStoreSum b s).til = s.til := rfl
@[simp] theorem rxStoreSum_pix (b : Byte) (s : State) : (rxStoreSum b s).pix = s.pix := rfl
@[simp] theorem rxStoreSum_result (b : Byte) (s : State) : (rxStoreSum b s).result = s.result := rfl
@[simp] theorem rxStoreSum_activity (b : Byte) (s : State) : (rxStoreSum b s).activity = s.activity := rfl
@[simp] theorem rxStoreSum_host (b : Byte) (s : State) : (rxStoreSum b s).host = s.host := rfl
@[simp] theorem rxStoreSum_readback (b : Byte) (s : State) : (rxStoreSum b s).readback = s.readback := rfl
@[simp] theorem rxStoreSum_peer (b : Byte) (s : State) : (rxStoreSum b s).peer = s.peer := rfl
@[simp] theorem rxStoreSum_linkN (b : Byte) (s : State) : (rxStoreSum b s).linkN = s.linkN := rfl
@[simp] theorem rxStoreSum_sent (b : Byte) (s : State) : (rxStoreSum b s).sent = s.sent := rfl
@[simp] theorem rxStoreSum_freeN (b : Byte) (s : State) : (rxStoreSum b s).freeN = s.freeN := rfl
@[simp] theorem rxStoreSum_txFlenKnown (b : Byte) (s : State) : (rxStoreSum b s).txFlenKnown = s.txFlenKnown := rfl
@[simp] theorem rxStoreSum_respKnown (b : Byte) (s : State) : (rxStoreSum b s).respKnown = s.respKnown := rfl

@[simp] theorem rxClear_fault (s : State) : (rxClear s).fault = s.fault := rfl
@[simp] theorem rxClear_txCmd (s : State) : (rxClear s).txCmd = s.txCmd := rfl
@[simp] theorem rxClear_txComp (s : State) : (rxClear s).txComp = s.txComp := rfl
@[simp] theorem rxClear_txPlen (s : State) : (rxClear s).txPlen = s.txPlen := rfl
@[simp] theorem rxClear_txFlen (s : State) : (rxClear s).txFlen = s.txFlen := rfl
@[simp] theorem rxClear_txStat (s : State) : (rxClear s).txStat = s.txStat := rfl
@[simp] theorem rxClear_txIdx (s : State) : (rxClear s).txIdx = s.txIdx := rfl
@[simp] theorem rxClear_resp0 (s : State) : (rxClear s).resp0 = s.resp0 := rfl
@[simp] theorem rxClear_resp1 (s : State) : (rxClear s).resp1 = s.resp1 := rfl
@[simp] theorem rxClear_cond (s : State) : (rxClear s).cond = s.cond := rfl
@[simp] theorem rxClear_rxIn (s : State) : (rxClear s).rxIn = s.rxIn := rfl
@[simp] theorem rxClear_rxState (s : State) : (rxClear s).rxState = .empty := rfl
@[simp] theorem rxClear_rxN (s : State) : (rxClear s).rxN = 0 := rfl
@[simp] theorem rxClear_rxSum (s : State) : (rxClear s).rxSum = 0 := rfl
@[simp] theorem rxClear_rxStat (s : State) : (rxClear s).rxStat = 0 := rfl
@[simp] theorem rxClear_rleIlen (s : State) : (rxClear s).rleIlen = s.rleIlen := rfl
@[simp] theorem rxClear_rleIp (s : State) : (rxClear s).rleIp = s.rleIp := rfl
@[simp] theorem rxClear_rleOcnt (s : State) : (rxClear s).rleOcnt = s.rleOcnt := rfl
@[simp] theorem rxClear_tileH (s : State) : (rxClear s).tileH = s.tileH := rfl
@[simp] theorem rxClear_tileLen (s : State) : (rxClear s).tileLen = s.tileLen := rfl
@[simp] theorem rxClear_txp (s : State) : (rxClear s).txp = s.txp := rfl
@[simp] theorem rxClear_txf (s : State) : (rxClear s).txf = s.txf := rfl
@[simp] theorem rxClear_rxb (s : State) : (rxClear s).rxb = [] := rfl
@[simp] theorem rxClear_rli (s : State) : (rxClear s).rli = s.rli := rfl
@[simp] theorem rxClear_rlo (s : State) : (rxClear s).rlo = s.rlo := rfl
@[simp] theorem rxClear_til (s : State) : (rxClear s).til = s.til := rfl
@[simp] theorem rxClear_pix (s : State) : (rxClear s).pix = s.pix := rfl
@[simp] theorem rxClear_result (s : State) : (rxClear s).result = s.result := rfl
@[simp] theorem rxClear_activity (s : State) : (rxClear s).activity = s.activity := rfl
@[simp] theorem rxClear_host (s : State) : (rxClear s).host = s.host := rfl
@[simp] theorem rxClear_readback (s : State) : (rxClear s).readback = s.readback := rfl
@[simp] theorem rxClear_peer (s : State) : (rxClear s).peer = s.peer := rfl
@[simp] theorem rxClear_linkN (s : State) : (rxClear s).linkN = s.linkN := rfl
@[simp] theorem rxClear_sent (s : State) : (rxClear s).sent = s.sent := rfl
@[simp] theorem rxClear_freeN (s : State) : (rxClear s).freeN = s.freeN := rfl
@[simp] theorem rxClear_txFlenKnown (s : State) : (rxClear s).txFlenKnown = s.txFlenKnown := rfl
@[simp] theorem rxClear_respKnown (s : State) : (rxClear s).respKnown = s.respKnown := rfl

@[simp] theorem emit_fault (bs : List Byte) (s : State) : (emit bs s).fault = s.fault := rfl
@[simp] theorem emit_txCmd (bs : List Byte) (s : State) : (emit bs s).txCmd = s.txCmd := rfl
@[simp] theorem emit_txComp (bs : List Byte) (s : State) : (emit bs s).txComp = s.txComp := rfl
@[simp] theorem emit_txPlen (bs : List Byte) (s : State) : (emit bs s).txPlen = s.txPlen := rfl
@[simp] theorem emit_txFlen (bs : List Byte) (s : State) : (emit bs s).txFlen = s.txFlen := rfl
@[simp] theorem emit_txStat (bs : List Byte) (s : State) : (emit bs s).txStat = s.txStat := rfl
@[simp] theorem emit_txIdx (bs : List Byte) (s : State) : (emit bs s).txIdx = s.txIdx := rfl
@[simp] theorem emit_resp0 (bs : List Byte) (s : State) : (emit bs s).resp0 = s.resp0 := rfl
@[simp] theorem emit_resp1 (bs : List Byte) (s : State) : (emit bs s).resp1 = s.resp1 := rfl
@[simp] theorem emit_cond (bs : List Byte) (s : State) : (emit bs s).cond = s.cond := rfl
@[simp] theorem emit_rxIn (bs : List Byte) (s : State) : (emit bs s).rxIn = s.rxIn := rfl
@[simp] theorem emit_rxState (bs : List Byte) (s : State) : (emit bs s).rxState = s.rxState := rfl
@[simp] theorem emit_rxN (bs : List Byte) (s : State) : (emit bs s).rxN = s.rxN := rfl
@[simp] theorem emit_rxSum (bs : List Byte) (s : State) : (emit bs s).rxSum = s.rxSum := rfl
@[simp] theorem emit_rxStat (bs : List Byte) (s : State) : (emit bs s).rxStat = s.rxStat := rfl
@[simp] theorem emit_rleIlen (bs : List Byte) (s : State) : (emit bs s).rleIlen = s.rleIlen := rfl
@[simp] theorem emit_rleIp (bs : List Byte) (s : State) : (emit bs s).rleIp = s.rleIp := rfl
@[simp] theorem emit_rleOcnt (bs : List Byte) (s : State) : (emit bs s).rleOcnt = s.rleOcnt + BitVec.ofNat 24 bs.length := rfl
@[simp] theorem emit_tileH (bs : List Byte) (s : State) : (emit bs s).tileH = s.tileH := rfl
@[simp] theorem emit_tileLen (bs : List Byte) (s : State) : (emit bs s).tileLen = s.tileLen := rfl
@[simp] theorem emit_txp (bs : List Byte) (s : State) : (emit bs s).txp = s.txp := rfl
@[simp] theorem emit_txf (bs : List Byte) (s : State) : (emit bs s).txf = s.txf := rfl
@[simp] theorem emit_rxb (bs : List Byte) (s : State) : (emit bs s).rxb = s.rxb := rfl
@[simp] theorem emit_rli (bs : List Byte) (s : State) : (emit bs s).rli = s.rli := rfl
@[simp] theorem emit_rlo (bs : List Byte) (s : State) : (emit bs s).rlo = s.rlo.splice s.rleOcnt.toNat (bs.take (Config.stripBytes - s.rleOcnt.toNat)) := rfl
@[simp] theorem emit_til (bs : List Byte) (s : State) : (emit bs s).til = s.til := rfl
@[simp] theorem emit_pix (bs : List Byte) (s : State) : (emit bs s).pix = s.pix := rfl
@[simp] theorem emit_result (bs : List Byte) (s : State) : (emit bs s).result = s.result := rfl
@[simp] theorem emit_activity (bs : List Byte) (s : State) : (emit bs s).activity = s.activity := rfl
@[simp] theorem emit_host (bs : List Byte) (s : State) : (emit bs s).host = s.host := rfl
@[simp] theorem emit_readback (bs : List Byte) (s : State) : (emit bs s).readback = s.readback := rfl
@[simp] theorem emit_peer (bs : List Byte) (s : State) : (emit bs s).peer = s.peer := rfl
@[simp] theorem emit_linkN (bs : List Byte) (s : State) : (emit bs s).linkN = s.linkN := rfl
@[simp] theorem emit_sent (bs : List Byte) (s : State) : (emit bs s).sent = s.sent := rfl
@[simp] theorem emit_freeN (bs : List Byte) (s : State) : (emit bs s).freeN = s.freeN := rfl
@[simp] theorem emit_txFlenKnown (bs : List Byte) (s : State) : (emit bs s).txFlenKnown = s.txFlenKnown := rfl
@[simp] theorem emit_respKnown (bs : List Byte) (s : State) : (emit bs s).respKnown = s.respKnown := rfl

@[simp] theorem advanceIp_fault (k : Nat) (s : State) : (advanceIp k s).fault = s.fault := rfl
@[simp] theorem advanceIp_txCmd (k : Nat) (s : State) : (advanceIp k s).txCmd = s.txCmd := rfl
@[simp] theorem advanceIp_txComp (k : Nat) (s : State) : (advanceIp k s).txComp = s.txComp := rfl
@[simp] theorem advanceIp_txPlen (k : Nat) (s : State) : (advanceIp k s).txPlen = s.txPlen := rfl
@[simp] theorem advanceIp_txFlen (k : Nat) (s : State) : (advanceIp k s).txFlen = s.txFlen := rfl
@[simp] theorem advanceIp_txStat (k : Nat) (s : State) : (advanceIp k s).txStat = s.txStat := rfl
@[simp] theorem advanceIp_txIdx (k : Nat) (s : State) : (advanceIp k s).txIdx = s.txIdx := rfl
@[simp] theorem advanceIp_resp0 (k : Nat) (s : State) : (advanceIp k s).resp0 = s.resp0 := rfl
@[simp] theorem advanceIp_resp1 (k : Nat) (s : State) : (advanceIp k s).resp1 = s.resp1 := rfl
@[simp] theorem advanceIp_cond (k : Nat) (s : State) : (advanceIp k s).cond = s.cond := rfl
@[simp] theorem advanceIp_rxIn (k : Nat) (s : State) : (advanceIp k s).rxIn = s.rxIn := rfl
@[simp] theorem advanceIp_rxState (k : Nat) (s : State) : (advanceIp k s).rxState = s.rxState := rfl
@[simp] theorem advanceIp_rxN (k : Nat) (s : State) : (advanceIp k s).rxN = s.rxN := rfl
@[simp] theorem advanceIp_rxSum (k : Nat) (s : State) : (advanceIp k s).rxSum = s.rxSum := rfl
@[simp] theorem advanceIp_rxStat (k : Nat) (s : State) : (advanceIp k s).rxStat = s.rxStat := rfl
@[simp] theorem advanceIp_rleIlen (k : Nat) (s : State) : (advanceIp k s).rleIlen = s.rleIlen := rfl
@[simp] theorem advanceIp_rleIp (k : Nat) (s : State) : (advanceIp k s).rleIp = s.rleIp + BitVec.ofNat 17 k := rfl
@[simp] theorem advanceIp_rleOcnt (k : Nat) (s : State) : (advanceIp k s).rleOcnt = s.rleOcnt := rfl
@[simp] theorem advanceIp_tileH (k : Nat) (s : State) : (advanceIp k s).tileH = s.tileH := rfl
@[simp] theorem advanceIp_tileLen (k : Nat) (s : State) : (advanceIp k s).tileLen = s.tileLen := rfl
@[simp] theorem advanceIp_txp (k : Nat) (s : State) : (advanceIp k s).txp = s.txp := rfl
@[simp] theorem advanceIp_txf (k : Nat) (s : State) : (advanceIp k s).txf = s.txf := rfl
@[simp] theorem advanceIp_rxb (k : Nat) (s : State) : (advanceIp k s).rxb = s.rxb := rfl
@[simp] theorem advanceIp_rli (k : Nat) (s : State) : (advanceIp k s).rli = s.rli := rfl
@[simp] theorem advanceIp_rlo (k : Nat) (s : State) : (advanceIp k s).rlo = s.rlo := rfl
@[simp] theorem advanceIp_til (k : Nat) (s : State) : (advanceIp k s).til = s.til := rfl
@[simp] theorem advanceIp_pix (k : Nat) (s : State) : (advanceIp k s).pix = s.pix := rfl
@[simp] theorem advanceIp_result (k : Nat) (s : State) : (advanceIp k s).result = s.result := rfl
@[simp] theorem advanceIp_activity (k : Nat) (s : State) : (advanceIp k s).activity = s.activity := rfl
@[simp] theorem advanceIp_host (k : Nat) (s : State) : (advanceIp k s).host = s.host := rfl
@[simp] theorem advanceIp_readback (k : Nat) (s : State) : (advanceIp k s).readback = s.readback := rfl
@[simp] theorem advanceIp_peer (k : Nat) (s : State) : (advanceIp k s).peer = s.peer := rfl
@[simp] theorem advanceIp_linkN (k : Nat) (s : State) : (advanceIp k s).linkN = s.linkN := rfl
@[simp] theorem advanceIp_sent (k : Nat) (s : State) : (advanceIp k s).sent = s.sent := rfl
@[simp] theorem advanceIp_freeN (k : Nat) (s : State) : (advanceIp k s).freeN = s.freeN := rfl
@[simp] theorem advanceIp_txFlenKnown (k : Nat) (s : State) : (advanceIp k s).txFlenKnown = s.txFlenKnown := rfl
@[simp] theorem advanceIp_respKnown (k : Nat) (s : State) : (advanceIp k s).respKnown = s.respKnown := rfl

@[simp] theorem rleStart_fault (s : State) : (rleStart s).fault = s.fault := rfl
@[simp] theorem rleStart_txCmd (s : State) : (rleStart s).txCmd = s.txCmd := rfl
@[simp] theorem rleStart_txComp (s : State) : (rleStart s).txComp = s.txComp := rfl
@[simp] theorem rleStart_txPlen (s : State) : (rleStart s).txPlen = s.txPlen := rfl
@[simp] theorem rleStart_txFlen (s : State) : (rleStart s).txFlen = s.txFlen := rfl
@[simp] theorem rleStart_txStat (s : State) : (rleStart s).txStat = s.txStat := rfl
@[simp] theorem rleStart_txIdx (s : State) : (rleStart s).txIdx = s.txIdx := rfl
@[simp] theorem rleStart_resp0 (s : State) : (rleStart s).resp0 = s.resp0 := rfl
@[simp] theorem rleStart_resp1 (s : State) : (rleStart s).resp1 = s.resp1 := rfl
@[simp] theorem rleStart_cond (s : State) : (rleStart s).cond = s.cond := rfl
@[simp] theorem rleStart_rxIn (s : State) : (rleStart s).rxIn = s.rxIn := rfl
@[simp] theorem rleStart_rxState (s : State) : (rleStart s).rxState = s.rxState := rfl
@[simp] theorem rleStart_rxN (s : State) : (rleStart s).rxN = s.rxN := rfl
@[simp] theorem rleStart_rxSum (s : State) : (rleStart s).rxSum = s.rxSum := rfl
@[simp] theorem rleStart_rxStat (s : State) : (rleStart s).rxStat = s.rxStat := rfl
@[simp] theorem rleStart_rleIlen (s : State) : (rleStart s).rleIlen = s.rleIlen := rfl
@[simp] theorem rleStart_rleIp (s : State) : (rleStart s).rleIp = 0 := rfl
@[simp] theorem rleStart_rleOcnt (s : State) : (rleStart s).rleOcnt = 0 := rfl
@[simp] theorem rleStart_tileH (s : State) : (rleStart s).tileH = s.tileH := rfl
@[simp] theorem rleStart_tileLen (s : State) : (rleStart s).tileLen = s.tileLen := rfl
@[simp] theorem rleStart_txp (s : State) : (rleStart s).txp = s.txp := rfl
@[simp] theorem rleStart_txf (s : State) : (rleStart s).txf = s.txf := rfl
@[simp] theorem rleStart_rxb (s : State) : (rleStart s).rxb = s.rxb := rfl
@[simp] theorem rleStart_rli (s : State) : (rleStart s).rli = s.rli := rfl
@[simp] theorem rleStart_rlo (s : State) : (rleStart s).rlo = s.rlo := rfl
@[simp] theorem rleStart_til (s : State) : (rleStart s).til = s.til := rfl
@[simp] theorem rleStart_pix (s : State) : (rleStart s).pix = s.pix := rfl
@[simp] theorem rleStart_result (s : State) : (rleStart s).result = s.result := rfl
@[simp] theorem rleStart_activity (s : State) : (rleStart s).activity = s.activity := rfl
@[simp] theorem rleStart_host (s : State) : (rleStart s).host = s.host := rfl
@[simp] theorem rleStart_readback (s : State) : (rleStart s).readback = s.readback := rfl
@[simp] theorem rleStart_peer (s : State) : (rleStart s).peer = s.peer := rfl
@[simp] theorem rleStart_linkN (s : State) : (rleStart s).linkN = s.linkN := rfl
@[simp] theorem rleStart_sent (s : State) : (rleStart s).sent = s.sent := rfl
@[simp] theorem rleStart_freeN (s : State) : (rleStart s).freeN = s.freeN := rfl
@[simp] theorem rleStart_txFlenKnown (s : State) : (rleStart s).txFlenKnown = s.txFlenKnown := rfl
@[simp] theorem rleStart_respKnown (s : State) : (rleStart s).respKnown = s.respKnown := rfl

end Sys2Proof.Machine
end

