-- ==== Sys2Proof/Laws/Rle.lean ====
section
/-! SUPPORT. What the RLE unit can do: emitting bytes, the run at RLE_IP, the loop of DECOMPRESS, the runs REP and LIT. -/

namespace Sys2Proof.Machine

open Host (Outcome)

/-! ### Emitting (R150, R155) -/

theorem emit_rleOcnt_toNat {bs : List Byte} {s : State} (h : s.rleOcnt.toNat + bs.length < 16777216) :
    (emit bs s).rleOcnt.toNat = s.rleOcnt.toNat + bs.length := by
  simp only [emit, BitVec.toNat_add, BitVec.toNat_ofNat]
  omega

/-- The emitted bytes stand at RLE_OCNT as far as RLO reaches. -/
theorem emit_read_inside {bs : List Byte} {s : State} {k : Nat} (h : k < bs.length) (hr : s.rleOcnt.toNat + k < 640) :
    (emit bs s).rlo.read (s.rleOcnt.toNat + k) = bs[k]? := by
  have hk : k < (bs.take (Config.stripBytes - s.rleOcnt.toNat)).length := by
    simp [Config.stripBytes]
    omega
  rw [emit_rlo, Memory.read_splice_inside hk, List.getElem_take, List.getElem?_eq_getElem h]

/-- Emitting leaves the bytes before RLE_OCNT, the bytes after the run and everything past RLO's size alone. -/
theorem emit_read_outside {bs : List Byte} {s : State} {a : Nat}
    (h : a < s.rleOcnt.toNat ∨ s.rleOcnt.toNat + bs.length ≤ a ∨ 640 ≤ a) :
    (emit bs s).rlo.read a = s.rlo.read a := by
  rw [emit_rlo]
  by_cases hs : a < s.rleOcnt.toNat
  · exact Memory.read_splice_outside (.inl hs)
  · refine Memory.read_splice_outside (.inr ?_)
    simp [Config.stripBytes]
    omega

theorem advanceIp_rleIp_toNat {len : Nat} {s : State} (h : s.rleIp.toNat + len < 131072) :
    (advanceIp len s).rleIp.toNat = s.rleIp.toNat + len := by
  simp only [advanceIp, BitVec.toNat_add, BitVec.toNat_ofNat]
  omega

/-- Emitting keeps the canonical form of RLO and stays inside it. -/
theorem emit_rlo_ok {bs : List Byte} {s : State} (hw : s.rlo.wf) (hb : s.rlo.below 640) :
    (emit bs s).rlo.wf ∧ (emit bs s).rlo.below 640 := by
  rw [emit_rlo]
  refine ⟨Memory.wf_splice hw _ _, ?_⟩
  by_cases h : s.rleOcnt.toNat ≤ 640
  · refine Memory.below_splice hb ?_
    simp [Config.stripBytes]
    omega
  · rw [show Config.stripBytes - s.rleOcnt.toNat = 0 by simp [Config.stripBytes]; omega, List.take_zero]
    intro c hc
    simp only [Memory.splice, cellsFrom, List.append_nil, List.mem_append, List.mem_filter] at hc
    rcases hc with hc | hc <;> exact hb c hc.1

/-! ### The run at RLE_IP (R72, R151, R152, R154) -/

/-- What is fetched is decided by the control byte and the bytes that follow it. -/
theorem fetchRun_of_read {s : State} {c : Byte} {bs : List Byte}
    (hr : s.rli.readRange s.rleIp.toNat (1 + bs.length) = some (c :: bs)) (hl : bs.length = runOperands c)
    (hf : s.rleIp.toNat + 1 + bs.length ≤ s.rleIlen.toNat) :
    fetchRun s = if isRep c then .rep (c.setWidth 7) (bs.headD 0) else .lit bs := by
  have hc : s.rli.read s.rleIp.toNat = some c := by
    simpa using Memory.read_of_readRange hr (k := 0) (by omega)
  rw [hl] at hr hf
  unfold fetchRun
  rw [hc]
  simp only [if_neg (Nat.not_lt.2 hf), hr, decodeRun, if_neg (show ¬ bs.length < runOperands c by omega)]
  cases isRep c with
  | true => rfl
  | false => simp [← hl]

/-- A run that does not end by RLE_ILEN is truncated (R154). -/
theorem fetchRun_truncated {s : State} {c : Byte} (hc : s.rli.read s.rleIp.toNat = some c)
    (h : s.rleIlen.toNat < s.rleIp.toNat + 1 + runOperands c) : fetchRun s = .truncated := by
  unfold fetchRun
  simp only [hc, if_pos h]

theorem fetchRun_unwritten {s : State} (h : s.rli.read s.rleIp.toNat = none) : fetchRun s = .unwritten := by
  unfold fetchRun
  rw [h]

/-- A run that ends by RLE_ILEN and has a byte without a value is not fetched (R37). -/
theorem fetchRun_unwritten_byte {s : State} {c : Byte} {k : Nat} (hc : s.rli.read s.rleIp.toNat = some c)
    (hf : s.rleIp.toNat + 1 + runOperands c ≤ s.rleIlen.toNat) (hk : k < 1 + runOperands c)
    (hr : s.rli.read (s.rleIp.toNat + k) = none) : fetchRun s = .unwritten := by
  have hn : s.rli.readRange s.rleIp.toNat (1 + runOperands c) = none := by
    cases h : s.rli.readRange s.rleIp.toNat (1 + runOperands c) with
    | none => rfl
    | some bytes =>
      have hb := Memory.read_of_readRange h hk
      rw [hr, List.getElem?_eq_getElem (by rw [Memory.readRange_length h]; exact hk)] at hb
      cases hb
  unfold fetchRun
  simp only [hc, if_neg (Nat.not_lt.2 hf), hn]

/-- Everything that can be fetched: a run that fits the input and whose instruction is well-formed, or why there is none. -/
theorem fetchRun_cases (s : State) :
    (∃ n v, fetchRun s = .rep n v ∧ s.rleIp.toNat + 2 ≤ s.rleIlen.toNat) ∨
    (∃ bs, fetchRun s = .lit bs ∧ 1 ≤ bs.length ∧ bs.length ≤ 128 ∧
      s.rleIp.toNat + 1 + bs.length ≤ s.rleIlen.toNat) ∨
    fetchRun s = .truncated ∨ fetchRun s = .unwritten := by
  cases hc : s.rli.read s.rleIp.toNat with
  | none => exact .inr (.inr (.inr (fetchRun_unwritten hc)))
  | some c =>
    by_cases hf : s.rleIlen.toNat < s.rleIp.toNat + 1 + runOperands c
    · exact .inr (.inr (.inl (fetchRun_truncated hc hf)))
    · cases hr : s.rli.readRange s.rleIp.toNat (1 + runOperands c) with
      | none =>
        right; right; right
        unfold fetchRun
        simp only [hc, if_neg hf, hr]
      | some bytes =>
        have hlen := Memory.readRange_length hr
        cases bytes with
        | nil =>
          rw [List.length_nil] at hlen
          omega
        | cons b bs =>
          have hb : b = c := by
            have := Memory.read_of_readRange hr (k := 0) (by omega)
            simpa [hc] using this.symm
          subst hb
          have hl : bs.length = runOperands b := by
            simp only [List.length_cons] at hlen
            omega
          have he := fetchRun_of_read (by rwa [hl]) hl (by omega)
          cases hrep : isRep b with
          | true =>
            rw [hrep, if_pos rfl] at he
            rw [runOperands_rep hrep] at hf
            exact .inl ⟨_, _, he, by omega⟩
          | false =>
            rw [hrep] at he
            have h128 : b.toNat < 128 := by
              have := isRep_iff b
              rw [hrep] at this
              simpa using this.symm
            rw [runOperands_lit hrep] at hl hf
            exact .inr (.inl ⟨bs, he, by omega, by omega, by omega⟩)

/-! ### The loop of DECOMPRESS (R150) -/

theorem rleLoop_end {fuel : Nat} {s : State} (h : s.rleIlen.toNat ≤ s.rleIp.toNat) :
    rleLoop (fuel + 1) s = .next (rleFinish s) := by
  rw [rleLoop, if_pos h]

theorem rleLoop_rep {fuel : Nat} {s : State} {n : BitVec 7} {v : Byte} (h : s.rleIp.toNat < s.rleIlen.toNat)
    (hf : fetchRun s = .rep n v) : rleLoop (fuel + 1) s = rleLoop fuel (repRun n v s) := by
  rw [rleLoop, if_neg (Nat.not_le.2 h), hf]

theorem rleLoop_lit {fuel : Nat} {s : State} {bs : List Byte} (h : s.rleIp.toNat < s.rleIlen.toNat)
    (hf : fetchRun s = .lit bs) : rleLoop (fuel + 1) s = rleLoop fuel (litRun bs s) := by
  rw [rleLoop, if_neg (Nat.not_le.2 h), hf]

theorem rleLoop_truncated {fuel : Nat} {s : State} (h : s.rleIp.toNat < s.rleIlen.toNat)
    (hf : fetchRun s = .truncated) : rleLoop (fuel + 1) s = .next (rleTruncate s) := by
  rw [rleLoop, if_neg (Nat.not_le.2 h), hf]

theorem rleLoop_unwritten {fuel : Nat} {s : State} (h : s.rleIp.toNat < s.rleIlen.toNat)
    (hf : fetchRun s = .unwritten) : rleLoop (fuel + 1) s = .refused (.unwritten .rli) := by
  rw [rleLoop, if_neg (Nat.not_le.2 h), hf]

/-- The end of the input (R150, R153). -/
theorem rleFinish_cases (s : State) :
    (s.rleOcnt.toNat = 640 ∧ rleFinish s = State.endOk s) ∨
    (s.rleOcnt.toNat ≠ 640 ∧ ∃ m, rleFinish s =
      State.raise .lengthMismatch (some s.rleOcnt.toNat) { s with rlo := m }) := by
  unfold rleFinish
  by_cases h : s.rleOcnt.toNat = 640
  · exact .inl ⟨h, by rw [if_pos (show s.rleOcnt.toNat = Config.stripBytes from h)]⟩
  · exact .inr ⟨h, [], by rw [if_neg (show ¬ s.rleOcnt.toNat = Config.stripBytes from h)]⟩

/-- What the loop can change: RLO, RLE_IP, RLE_OCNT and how the operation ended. -/
theorem rleLoop_frame {fuel : Nat} {s t : State} (h : rleLoop fuel s = .next t) :
    t = { s with
      rlo := t.rlo, rleIp := t.rleIp, rleOcnt := t.rleOcnt, fault := t.fault, result := t.result,
      activity := .idle } := by
  induction fuel generalizing s with
  | zero => cases h
  | succ fuel ih =>
    by_cases he : s.rleIlen.toNat ≤ s.rleIp.toNat
    · rw [rleLoop_end he] at h
      injection h with h
      rcases rleFinish_cases s with ⟨-, hc⟩ | ⟨-, m, hc⟩ <;> rw [← h, hc] <;> rfl
    · have hlt := Nat.not_le.1 he
      rcases fetchRun_cases s with ⟨n, v, hf, -⟩ | ⟨bs, hf, -⟩ | hf | hf
      · rw [rleLoop_rep hlt hf] at h
        rw [ih h]
        rfl
      · rw [rleLoop_lit hlt hf] at h
        rw [ih h]
        rfl
      · rw [rleLoop_truncated hlt hf] at h
        injection h with h
        rw [← h]
        rfl
      · rw [rleLoop_unwritten hlt hf] at h
        cases h

/-- With a round for every two input bytes that are left and one for the end, the loop does not stop short. -/
theorem rleLoop_ends {fuel : Nat} {s : State} (hi : s.rleIp.toNat ≤ s.rleIlen.toNat)
    (h : s.rleIlen.toNat < s.rleIp.toNat + 2 * fuel) :
    (∃ t, rleLoop fuel s = .next t) ∨ rleLoop fuel s = .refused (.unwritten .rli) := by
  have h16 := s.rleIlen.isLt
  induction fuel generalizing s with
  | zero => omega
  | succ fuel ih =>
    by_cases he : s.rleIlen.toNat ≤ s.rleIp.toNat
    · exact .inl ⟨_, rleLoop_end he⟩
    · have hlt := Nat.not_le.1 he
      rcases fetchRun_cases s with ⟨n, v, hf, hr⟩ | ⟨bs, hf, hl, -, hr⟩ | hf | hf
      · have hip : (repRun n v s).rleIp.toNat = s.rleIp.toNat + 2 := advanceIp_rleIp_toNat (by rw [emit_rleIp]; omega)
        have hil : (repRun n v s).rleIlen = s.rleIlen := rfl
        rw [rleLoop_rep hlt hf]
        exact ih (by rw [hip, hil]; exact hr) (by rw [hip, hil]; omega) h16
      · have hip : (litRun bs s).rleIp.toNat = s.rleIp.toNat + (1 + bs.length) :=
          advanceIp_rleIp_toNat (by rw [emit_rleIp]; omega)
        have hil : (litRun bs s).rleIlen = s.rleIlen := rfl
        rw [rleLoop_lit hlt hf]
        exact ih (by rw [hip, hil]; omega) (by rw [hip, hil]; omega) h16
      · exact .inl ⟨_, rleLoop_truncated hlt hf⟩
      · exact .inr (rleLoop_unwritten hlt hf)

/-! ### REP and LIT (R151, R152) -/

/-- Everything REP can do. -/
theorem execRep_cases (n : BitVec 7) (v : Byte) (s : State) :
    (s.rleIp.toNat + 1 < s.rleIlen.toNat ∧ execRep n v s = .next (repRun n v s)) ∨
    (s.rleIlen.toNat ≤ s.rleIp.toNat + 1 ∧ execRep n v s = .next (rleTruncate s)) := by
  unfold execRep
  by_cases h : s.rleIlen.toNat ≤ s.rleIp.toNat + 1
  · exact .inr ⟨h, by rw [if_pos h]⟩
  · exact .inl ⟨by omega, by rw [if_neg h]⟩

/-- Everything LIT can do. -/
theorem execLit_cases (bs : List Byte) (s : State) :
    (s.rleIp.toNat + 1 + bs.length ≤ s.rleIlen.toNat ∧ execLit bs s = .next (litRun bs s)) ∨
    (s.rleIlen.toNat < s.rleIp.toNat + 1 + bs.length ∧ execLit bs s = .next (rleTruncate s)) := by
  unfold execLit
  by_cases h : s.rleIlen.toNat < s.rleIp.toNat + 1 + bs.length
  · exact .inr ⟨h, by rw [if_pos h]⟩
  · exact .inl ⟨by omega, by rw [if_neg h]⟩

end Sys2Proof.Machine
end

