-- ==== Sys2Proof/Laws/Rx.lean ====
section
/-! SUPPORT. What the RX unit can do: storing a byte, the declared size, one lemma per parser state, VERIFY, FEED. -/

namespace Sys2Proof.Machine

open Host (Outcome)

/-! ### Storing a byte -/

/-- The stored byte is read back at the old RX_N. -/
theorem rxStore_read_self (b : Byte) (s : State) : (rxStore b s).rxb.read s.rxN.toNat = some b := by
  simp [Memory.read_splice]

/-- Storing a byte leaves every other index of RXB alone. -/
theorem rxStore_read_ne (b : Byte) (s : State) {a : Nat} (h : a ≠ s.rxN.toNat) :
    (rxStore b s).rxb.read a = s.rxb.read a := by
  rw [rxStore_rxb, Memory.read_splice_outside]
  simp
  omega

/-- RX_N counts without wrapping while it is an index of RXB. -/
theorem rxStore_rxN_toNat (b : Byte) {s : State} (h : s.rxN.toNat < 131071) :
    (rxStore b s).rxN.toNat = s.rxN.toNat + 1 := by
  have h1 : (1 : BitVec 17).toNat = 1 := rfl
  rw [rxStore_rxN, BitVec.toNat_add, h1]
  omega

/-! ### The declared size (R28, R69) -/

theorem dataSize_of_read {s : State} {lo hi : Byte} (h0 : s.rxb.read 4 = some lo) (h1 : s.rxb.read 5 = some hi) :
    s.dataSize = some (lo.toNat + 256 * hi.toNat) := by
  simp [State.dataSize, h0, h1]

/-- The declared size depends only on RXB[4] and RXB[5]. -/
theorem dataSize_congr {s t : State} (h0 : t.rxb.read 4 = s.rxb.read 4) (h1 : t.rxb.read 5 = s.rxb.read 5) :
    t.dataSize = s.dataSize := by
  simp [State.dataSize, h0, h1]

/-- A byte stored at index 6 or beyond leaves the declared size alone. -/
theorem rxStore_dataSize (b : Byte) {s : State} (h : 6 ≤ s.rxN.toNat) : (rxStore b s).dataSize = s.dataSize :=
  dataSize_congr (rxStore_read_ne b s (by omega)) (rxStore_read_ne b s (by omega))

theorem rxStoreSum_dataSize (b : Byte) (s : State) : (rxStoreSum b s).dataSize = (rxStore b s).dataSize := rfl

theorem dataSize_lt {s : State} {d : Nat} (h : s.dataSize = some d) : d < 65536 := by
  unfold State.dataSize at h
  split at h
  · rw [Option.some.injEq] at h
    rw [← h]
    exact BitVec.isLt _
  · cases h

theorem declaredSize_lt (s : State) : declaredSize s < 65536 := by
  unfold declaredSize
  cases h : s.dataSize with
  | none => simp
  | some d => simpa using dataSize_lt h

/-! ### ADD_BYTE, one lemma per parser state -/

/-- ADD_BYTE runs its byte rule wherever RX_N is an index of RXB. -/
theorem execAddByte_rxByte {s : State} (h : s.rxN.toNat < 65545) : execAddByte s = rxByte s.rxIn s := by
  unfold execAddByte
  rw [if_pos (.inr h)]

/-- In COMPLETE ADD_BYTE faults (R131). -/
theorem execAddByte_complete {s : State} (h : s.rxState = .complete) :
    execAddByte s = .next (State.raise .alreadyComplete (some s.rxIn.toNat) s) := by
  unfold execAddByte
  rw [if_pos (.inl h), rxByte, h]

theorem rxByte_preambleDone (b : Byte) {s : State} (h : s.rxState = .preambleDone) :
    rxByte b s = .next (State.endOk { rxStoreSum b s with rxState := .headerPartial }) := by
  rw [rxByte, h]
  rfl

/-- R124 before the sixth byte. -/
theorem rxByte_header {b : Byte} {s : State} (h : s.rxState = .headerPartial) (hn : s.rxN ≠ 5) :
    rxByte b s = .next (State.endOk { rxStoreSum b s with rxState := .headerPartial }) := by
  rw [rxByte, h]
  have : ¬ (rxStoreSum b s).rxN = 6 := by
    rw [rxStoreSum_rxN]
    intro h6
    exact hn (by bv_omega)
  simp only [rxHeaderByte, if_neg this, rxAccept]

/-- R124 at the sixth byte: the declared size decides. -/
theorem rxByte_header_last {b lo : Byte} {s : State} (h : s.rxState = .headerPartial) (hn : s.rxN = 5)
    (hlo : s.rxb.read 4 = some lo) :
    rxByte b s = .next (State.endOk { rxStoreSum b s with
      rxState := if lo.toNat + 256 * b.toNat = 0 then .dataDone else .headerDone }) := by
  rw [rxByte, h]
  have h6 : (rxStoreSum b s).rxN = 6 := by rw [rxStoreSum_rxN, hn]; rfl
  have hn5 : s.rxN.toNat = 5 := by rw [hn]; rfl
  have hd : (rxStoreSum b s).dataSize = some (lo.toNat + 256 * b.toNat) := by
    rw [rxStoreSum_dataSize]
    refine dataSize_of_read ?_ ?_
    · rw [rxStore_read_ne b s (by omega), hlo]
    · rw [← hn5, rxStore_read_self]
  simp only [rxHeaderByte, if_pos h6, hd]
  split
  · rename_i h0
    rw [Option.some.injEq] at h0
    rw [if_pos h0]
    rfl
  · rename_i d hne h0
    rw [Option.some.injEq] at h0
    rw [if_neg (fun h => hne (h0.symm.trans h))]
    rfl
  · rename_i h0
    cases h0

/-- R125, R126: a data byte. -/
theorem rxByte_data {b : Byte} {s : State} {d : Nat} (h : s.rxState = .headerDone ∨ s.rxState = .dataPartial)
    (hn : 6 ≤ s.rxN.toNat) (hn' : s.rxN.toNat < 65545) (hd : s.dataSize = some d) :
    rxByte b s = .next (State.endOk { rxStoreSum b s with
      rxState := if s.rxN.toNat + 1 = 6 + d then .dataDone else .dataPartial }) := by
  have hx : rxByte b s = rxDataByte (rxStoreSum b s) := by
    rcases h with h | h <;> rw [rxByte, h]
  have hd' : (rxStoreSum b s).dataSize = some d := by rw [rxStoreSum_dataSize, rxStore_dataSize b hn, hd]
  have hc : (rxStoreSum b s).rxN.toNat = s.rxN.toNat + 1 := rxStore_rxN_toNat b (by omega)
  rw [hx]
  simp only [rxDataByte, hd', hc]
  by_cases h1 : s.rxN.toNat + 1 = 6 + d
  · simp only [if_pos h1]
    rfl
  · simp only [if_neg h1]
    rfl

/-- R127 to R130: the check and response bytes are stored and not summed. -/
theorem rxByte_tail {b : Byte} {s : State} :
    (s.rxState = .dataDone → rxByte b s = .next (State.endOk { rxStore b s with rxState := .checksumPartial })) ∧
    (s.rxState = .checksumPartial → rxByte b s = .next (State.endOk { rxStore b s with rxState := .checksumDone })) ∧
    (s.rxState = .checksumDone → rxByte b s = .next (State.endOk { rxStore b s with rxState := .responsePartial })) ∧
    (s.rxState = .responsePartial → rxByte b s = .next (State.endOk { rxStore b s with rxState := .complete })) := by
  refine ⟨?_, ?_, ?_, ?_⟩ <;> intro h <;> rw [rxByte, h] <;> rfl

/-- Everything ADD_BYTE's byte rule can do when it answers a next state: the parser is cleared, the byte was ignored, a fault
was taken in COMPLETE, or the byte was stored and the parser moved on. -/
theorem rxByte_next {b : Byte} {s t : State} (h : rxByte b s = .next t) :
    (s.rxState = .empty ∧ b ≠ 0x88 ∧ t = State.endOk s) ∨
    (s.rxState = .preamblePartial ∧ b ≠ 0x33 ∧ t = State.endOk (rxClear s)) ∨
    (s.rxState = .complete ∧ t = State.raise .alreadyComplete (some b.toNat) s) ∨
    (∃ q, t = State.endOk { rxStore b s with rxState := q }) ∨
    (∃ q, t = State.endOk { rxStoreSum b s with rxState := q }) := by
  unfold rxByte rxHeaderByte rxDataByte rxAccept at h
  repeat' split at h
  all_goals first
    | (cases h; done)
    | (injection h with h; subst h; simp_all; done)
    | (injection h with h; subst h; exact .inr (.inr (.inr (.inl ⟨_, rfl⟩))))
    | (injection h with h; subst h; exact .inr (.inr (.inr (.inr ⟨_, rfl⟩))))

/-! ### VERIFY -/

theorem receivedCheck_of_read {s : State} {d : Nat} {cl ch : Byte} (hd : s.dataSize = some d)
    (h0 : s.rxb.read (6 + d) = some cl) (h1 : s.rxb.read (7 + d) = some ch) :
    s.receivedCheck = some (le16 cl ch) := by
  simp [State.receivedCheck, hd, h0, h1]

/-- Everything VERIFY can do. -/
theorem execVerify_cases (s : State) :
    (s.rxState.checksumIn = false ∧ execVerify s = .next (State.raise .notReady none s)) ∨
    (s.rxState.checksumIn = true ∧ ∃ chk, s.receivedCheck = some chk ∧
      execVerify s = .next (State.endOk { s with rxStat := verifyStat (chk == s.rxSum) })) ∨
    (s.rxState.checksumIn = true ∧ s.receivedCheck = none ∧ execVerify s = .refused (.unwritten .rxb)) := by
  unfold execVerify
  cases hc : s.rxState.checksumIn with
  | false => exact .inl ⟨rfl, by simp⟩
  | true =>
    right
    cases hr : s.receivedCheck with
    | some chk => exact .inl ⟨rfl, chk, rfl, by simp⟩
    | none => exact .inr ⟨rfl, rfl, by simp⟩

/-! ### FEED -/

@[simp] theorem feed_nil (s : State) : feed [] s = .next s := rfl

theorem feed_cons {b : Byte} {bs : List Byte} {s t : State} (h : execAddByte { s with rxIn := b } = .next t) :
    feed (b :: bs) s = feed bs t := by
  rw [feed, h]

theorem feed_append {as bs : List Byte} {s t : State} (h : feed as s = .next t) : feed (as ++ bs) s = feed bs t := by
  induction as generalizing s with
  | nil =>
    injection h with h
    rw [List.nil_append, h]
  | cons a as ih =>
    rw [feed] at h
    split at h
    · rename_i u hu
      rw [List.cons_append, feed_cons hu]
      exact ih h
    · cases h
    · cases h

end Sys2Proof.Machine
end

