-- ==== Sys2Proof/Laws/Tx.lean ====
section
/-! SUPPORT. What the TX unit can do: one lemma for each shared operation. -/

namespace Sys2Proof.Machine

/-! ### ENCODE -/

/-- Everything ENCODE can do. -/
theorem encodeOp_cases (s : State) :
    (65535 < s.txPlen.toNat ∧ encodeOp s = .next (encodeTooLarge s)) ∨
    (s.txPlen.toNat ≤ 65535 ∧ ∃ p, s.txp.readRange 0 s.txPlen.toNat = some p ∧
      encodeOp s = .next (encodeFrame p s)) ∨
    (s.txPlen.toNat ≤ 65535 ∧ s.txp.readRange 0 s.txPlen.toNat = none ∧
      encodeOp s = .refused (.unwritten .txp)) := by
  unfold encodeOp
  by_cases h : 65535 < s.txPlen.toNat
  · exact .inl ⟨h, by rw [if_pos (show Config.lenMax < s.txPlen.toNat from h)]⟩
  · right
    rw [if_neg (show ¬ Config.lenMax < s.txPlen.toNat from h)]
    cases hr : s.txp.readRange 0 s.txPlen.toNat with
    | some p => exact .inl ⟨by omega, p, rfl, rfl⟩
    | none => exact .inr ⟨by omega, rfl, rfl⟩

/-- With the payload there, ENCODE completes. -/
theorem encodeOp_payload {s : State} {p : List Byte} (h : s.txPlen.toNat ≤ 65535)
    (hp : s.txp.readRange 0 s.txPlen.toNat = some p) : encodeOp s = .next (encodeFrame p s) := by
  rcases encodeOp_cases s with ⟨h1, -⟩ | ⟨-, q, hq, he⟩ | ⟨-, hn, -⟩
  · omega
  · rw [hp, Option.some.injEq] at hq
    rw [he, hq]
  · rw [hp] at hn
    cases hn

theorem encodeFrame_fvalid (p : List Byte) (s : State) : (encodeFrame p s).fvalid = true := by
  simp [encodeFrame, State.fvalid]

theorem encodeFrame_rvalid (p : List Byte) (s : State) : (encodeFrame p s).rvalid = s.rvalid := by
  simp [encodeFrame, State.rvalid]

theorem encodeTooLarge_fvalid (s : State) : (encodeTooLarge s).fvalid = false := by
  simp [encodeTooLarge, State.fvalid]

theorem encodeFrame_txFlen {p : List Byte} {s : State} (h : s.txPlen.toNat ≤ 65535) :
    (encodeFrame p s).txFlen.toNat = 8 + s.txPlen.toNat := by
  simp only [encodeFrame, endOk_txFlen, BitVec.toNat_ofNat]
  omega

/-- TXF reads as the frame from index 0 on. -/
theorem encodeFrame_txf (p : List Byte) (s : State) :
    (encodeFrame p s).txf.readRange 0 (8 + p.length) = some (frameBytes s.txCmd s.txComp p) := by
  have := Memory.readRange_splice s.txf 0 (frameBytes s.txCmd s.txComp p)
  simpa [encodeFrame] using this

/-- TXF after ENCODE, byte by byte: the frame, and beyond it what was there. -/
theorem encodeFrame_read (p : List Byte) (s : State) (a : Nat) :
    (encodeFrame p s).txf.read a =
      if a < 8 + p.length then (frameBytes s.txCmd s.txComp p)[a]? else s.txf.read a := by
  simp [encodeFrame, Memory.read_splice]

/-! ### EXCHANGE -/

/-- The state after `LinkXfer` of the bytes `bs` that were all answered: the link has moved on and TX_IDX counts them. -/
def afterXfers (bs : List Byte) (s : State) : State :=
  { s with
    peer := s.peer.drop bs.length
    linkN := s.linkN + bs.length
    sent := s.sent ++ bs
    txIdx := s.txIdx + BitVec.ofNat 17 bs.length }

theorem afterXfers_nil (s : State) : afterXfers [] s = s := by
  simp [afterXfers]

theorem afterXfers_cons (b : Byte) (bs : List Byte) (s : State) :
    afterXfers bs (bumpIdx (linkXfer b s).2) = afterXfers (b :: bs) s := by
  simp only [afterXfers, bumpIdx, linkXfer, List.drop_tail, List.length_cons, State.mk.injEq, and_true, true_and,
    List.append_assoc, List.cons_append, List.nil_append]
  refine ⟨?_, by omega⟩
  apply BitVec.eq_of_toNat_eq
  have h1 : (1 : BitVec 17).toNat = 1 := rfl
  simp only [BitVec.toNat_add, BitVec.toNat_ofNat, h1]
  omega

/-- TX_IDX counts the answered bytes without wrapping as long as there are fewer than 131072 of them. -/
theorem afterXfers_txIdx {bs : List Byte} {s : State} (h : s.txIdx.toNat + bs.length < 131072) :
    (afterXfers bs s).txIdx.toNat = s.txIdx.toNat + bs.length := by
  simp only [afterXfers, BitVec.toNat_add, BitVec.toNat_ofNat]
  omega

/-- The state after a byte that got no answer (R91): it was sent, its exchange did not complete. -/
def afterTimeout (b : Byte) (s : State) : State := exchangeTimeout (linkXfer b s).2

/-- Everything EXCHANGE can do from its start on, in terms of the bytes `bs ++ [0, 0]` it wants to send: either all were
answered, or the one at some index `k` was not. -/
theorem exchangeBytes_cases (bs : List Byte) (s : State) :
    (∃ r0 r1, exchangeBytes bs s = exchangeDone r0 r1 (afterXfers (bs ++ [0x00, 0x00]) s)) ∨
    (∃ k b, k < bs.length + 2 ∧ (bs ++ [0x00, 0x00])[k]? = some b ∧
      exchangeBytes bs s = afterTimeout b (afterXfers ((bs ++ [0x00, 0x00]).take k) s)) := by
  induction bs generalizing s with
  | nil =>
    simp only [exchangeBytes, exchangeReplies]
    cases h0 : (linkXfer 0x00 s).1 with
    | timeout =>
      refine .inr ⟨0, 0x00, by simp, rfl, ?_⟩
      simp [linkXfer] at h0
      simp [linkXfer, h0, afterTimeout, afterXfers_nil]
    | reply r0 =>
      cases h1 : (linkXfer 0x00 (bumpIdx (linkXfer 0x00 s).2)).1 with
      | timeout =>
        refine .inr ⟨1, 0x00, by simp, rfl, ?_⟩
        have e := afterXfers_cons 0x00 [] s
        rw [afterXfers_nil] at e
        simp only [List.nil_append, List.take_succ_cons, List.take_zero, ← e, afterTimeout]
        have p0 : linkXfer 0x00 s = (.reply r0, (linkXfer 0x00 s).2) := Prod.ext h0 rfl
        have p1 : linkXfer 0x00 (bumpIdx (linkXfer 0x00 s).2) =
          (.timeout, (linkXfer 0x00 (bumpIdx (linkXfer 0x00 s).2)).2) := Prod.ext h1 rfl
        rw [p0]
        simp only
        rw [p1]
      | reply r1 =>
        refine .inl ⟨r0, r1, ?_⟩
        have e := afterXfers_cons 0x00 [] (bumpIdx (linkXfer 0x00 s).2)
        rw [afterXfers_nil] at e
        rw [List.nil_append, ← afterXfers_cons, ← e]
        have p0 : linkXfer 0x00 s = (.reply r0, (linkXfer 0x00 s).2) := Prod.ext h0 rfl
        have p1 : linkXfer 0x00 (bumpIdx (linkXfer 0x00 s).2) =
          (.reply r1, (linkXfer 0x00 (bumpIdx (linkXfer 0x00 s).2)).2) := Prod.ext h1 rfl
        rw [p0]
        simp only
        rw [p1]
  | cons b bs ih =>
    simp only [exchangeBytes]
    cases h0 : (linkXfer b s).1 with
    | timeout =>
      refine .inr ⟨0, b, by simp, rfl, ?_⟩
      have p0 : linkXfer b s = (.timeout, (linkXfer b s).2) := Prod.ext h0 rfl
      rw [p0]
      simp [afterTimeout, afterXfers_nil]
    | reply r =>
      have p0 : linkXfer b s = (.reply r, (linkXfer b s).2) := Prod.ext h0 rfl
      rw [p0]
      simp only
      rcases ih (bumpIdx (linkXfer b s).2) with ⟨r0, r1, h⟩ | ⟨k, c, hk, hc, h⟩
      · exact .inl ⟨r0, r1, by rw [h, afterXfers_cons]; rfl⟩
      · refine .inr ⟨k + 1, c, by simp; omega, by simpa using hc, ?_⟩
        rw [h, afterXfers_cons]
        rfl

/-- With a reply fixed for every exchange, EXCHANGE ends with the last two as the status pair. -/
theorem exchangeBytes_replies {bs rs : List Byte} {r0 r1 : Byte} {more : List LinkReply} {s : State}
    (hl : rs.length = bs.length) (hp : s.peer = rs.map LinkReply.reply ++ [.reply r0, .reply r1] ++ more) :
    exchangeBytes bs s = exchangeDone r0 r1 (afterXfers (bs ++ [0x00, 0x00]) s) := by
  induction bs generalizing s rs with
  | nil =>
    have hr : rs = [] := List.eq_nil_of_length_eq_zero hl
    subst hr
    simp only [List.map_nil, List.nil_append, List.cons_append] at hp
    have e := afterXfers_cons 0x00 [] (bumpIdx (linkXfer 0x00 s).2)
    rw [afterXfers_nil] at e
    rw [List.nil_append, ← afterXfers_cons, ← e]
    simp [exchangeBytes, exchangeReplies, linkXfer, State.nextReply, hp, bumpIdx]
  | cons b bs ih =>
    cases rs with
    | nil => simp at hl
    | cons r rs =>
      simp only [List.map_cons, List.cons_append] at hp
      have h1 : linkXfer b s = (.reply r, (linkXfer b s).2) := by simp [linkXfer, State.nextReply, hp]
      have h2 : (bumpIdx (linkXfer b s).2).peer = rs.map LinkReply.reply ++ [.reply r0, .reply r1] ++ more := by
        simp [hp]
      rw [exchangeBytes, h1]
      simp only
      rw [ih (by simpa using hl) h2, afterXfers_cons]
      rfl

/-- With a timeout fixed for exchange `rs.length`, EXCHANGE ends there. -/
theorem exchangeBytes_timeout {bs rs : List Byte} {more : List LinkReply} {s : State}
    (hl : rs.length < bs.length + 2) (hp : s.peer = rs.map LinkReply.reply ++ .timeout :: more) :
    ∃ b, (bs ++ [0x00, 0x00])[rs.length]? = some b ∧
      exchangeBytes bs s = afterTimeout b (afterXfers ((bs ++ [0x00, 0x00]).take rs.length) s) := by
  induction bs generalizing s rs with
  | nil =>
    match rs, hl with
    | [], _ =>
      simp only [List.map_nil, List.nil_append] at hp
      refine ⟨0x00, rfl, ?_⟩
      simp [exchangeBytes, exchangeReplies, linkXfer, State.nextReply, hp, afterTimeout, afterXfers_nil]
    | [r], _ =>
      simp only [List.map_cons, List.map_nil, List.cons_append, List.nil_append] at hp
      refine ⟨0x00, rfl, ?_⟩
      have e := afterXfers_cons 0x00 [] s
      rw [afterXfers_nil] at e
      simp only [List.nil_append, List.length_singleton, List.take_succ_cons, List.take_zero, ← e]
      simp [exchangeBytes, exchangeReplies, linkXfer, State.nextReply, hp, afterTimeout, bumpIdx]
  | cons b bs ih =>
    cases rs with
    | nil =>
      simp only [List.map_nil, List.nil_append] at hp
      refine ⟨b, rfl, ?_⟩
      simp [exchangeBytes, linkXfer, State.nextReply, hp, afterTimeout, afterXfers_nil]
    | cons r rs =>
      simp only [List.map_cons, List.cons_append] at hp
      have h1 : linkXfer b s = (.reply r, (linkXfer b s).2) := by simp [linkXfer, State.nextReply, hp]
      have h2 : (bumpIdx (linkXfer b s).2).peer = rs.map LinkReply.reply ++ .timeout :: more := by simp [hp]
      obtain ⟨c, hc, he⟩ := ih (by simpa using hl) h2
      refine ⟨c, by simpa using hc, ?_⟩
      rw [exchangeBytes, h1]
      simp only
      rw [he, afterXfers_cons]
      rfl

/-- What EXCHANGE can change from its start on. -/
theorem exchangeBytes_frame (bs : List Byte) (s : State) :
    exchangeBytes bs s =
      { s with
        txIdx := (exchangeBytes bs s).txIdx
        resp0 := (exchangeBytes bs s).resp0
        resp1 := (exchangeBytes bs s).resp1
        txStat := (exchangeBytes bs s).txStat
        fault := (exchangeBytes bs s).fault
        result := (exchangeBytes bs s).result
        activity := .idle
        peer := (exchangeBytes bs s).peer
        linkN := (exchangeBytes bs s).linkN
        sent := (exchangeBytes bs s).sent
        freeN := (exchangeBytes bs s).freeN
        respKnown := (exchangeBytes bs s).respKnown } := by
  rcases exchangeBytes_cases bs s with ⟨r0, r1, h⟩ | ⟨k, b, -, -, h⟩ <;> rw [h] <;> rfl

/-- EXCHANGE leaves FVALID as it is. -/
theorem exchangeBytes_fvalid (bs : List Byte) (s : State) : (exchangeBytes bs s).fvalid = s.fvalid := by
  rcases exchangeBytes_cases bs s with ⟨r0, r1, h⟩ | ⟨k, b, -, -, h⟩ <;> rw [h]
  · simp [exchangeDone, State.fvalid, afterXfers]
  · simp [afterTimeout, exchangeTimeout, State.fvalid, afterXfers]

/-- Everything EXCHANGE can do. -/
theorem exchangeOp_cases (s : State) :
    (s.fvalid = false ∧ exchangeOp s = .next (State.raise .notReady none s)) ∨
    (s.fvalid = true ∧ ∃ frame, s.txf.readRange 0 s.txFlen.toNat = some frame ∧
      exchangeOp s = .next (exchangeBytes frame (exchangeStart s))) ∨
    (s.fvalid = true ∧ s.txf.readRange 0 s.txFlen.toNat = none ∧
      exchangeOp s = .refused (.unwritten .txf)) := by
  unfold exchangeOp
  cases h : s.fvalid with
  | false => exact .inl ⟨rfl, by simp⟩
  | true =>
    right
    cases hr : s.txf.readRange 0 s.txFlen.toNat with
    | some f => exact .inl ⟨rfl, f, rfl, by simp⟩
    | none => exact .inr ⟨rfl, rfl, by simp⟩

theorem exchangeOp_frame {s : State} {frame : List Byte} (hf : s.fvalid = true)
    (hr : s.txf.readRange 0 s.txFlen.toNat = some frame) :
    exchangeOp s = .next (exchangeBytes frame (exchangeStart s)) := by
  unfold exchangeOp
  simp [hf, hr]

/-! ### DECODE_STATUS -/

/-- A status pair without a live keepalive gives NotConnected alone (R94). -/
theorem condOf_notLive {keepalive : Byte} (flags : Byte) (h : keepaliveLive keepalive = false) :
    condOf keepalive flags = 0b1000000000 := by
  simp [condOf, h]

/-- A live keepalive without flags gives OK alone (R94). -/
theorem condOf_ok {keepalive : Byte} (h : keepaliveLive keepalive = true) : condOf keepalive 0x00 = 0b0100000000 := by
  simp [condOf, h]

/-- A live keepalive with flags gives the flags (R94). -/
theorem condOf_flags {keepalive flags : Byte} (h : keepaliveLive keepalive = true) (hf : flags ≠ 0x00) :
    condOf keepalive flags = flags.setWidth 10 := by
  unfold condOf
  rw [h, if_neg (by simp), if_neg hf]

theorem keepaliveLive_iff (b : Byte) : keepaliveLive b = true ↔ b = 0x80 ∨ b = 0x81 := by
  simp [keepaliveLive]

end Sys2Proof.Machine
end

