-- ==== Sys2Proof/Laws/Step.lean ====
section
/-! SUPPORT. What SEND, the host's accesses and one step can do; the buffers at reset. -/

namespace Sys2Proof.Machine

open Host (Outcome)

/-! ### SEND (R101) -/

/-- TXP after the load reads as the payload. -/
theorem loadTx_readRange (cmd comp : Byte) (p : List Byte) (s : State) :
    (loadTx cmd comp p s).txp.readRange 0 p.length = some p :=
  Memory.readRange_splice s.txp 0 p

theorem loadTx_txPlen_toNat {cmd comp : Byte} {p : List Byte} {s : State} (h : p.length ≤ 65535) :
    (loadTx cmd comp p s).txPlen.toNat = p.length := by
  rw [loadTx_txPlen, BitVec.toNat_ofNat]
  omega

/-- The state SEND's ENCODE leaves: TX loaded, the frame in TXF. -/
def sendEncoded (cmd comp : Byte) (p : List Byte) (s : State) : State := encodeFrame p (loadTx cmd comp p s)

/-- SEND of a payload TXP can hold always runs EXCHANGE on its frame: ENCODE cannot fault, so nothing shuts it out. -/
theorem sendFrame_exchanges {cmd comp : Byte} {p : List Byte} {s : State} (h : p.length ≤ 65535) :
    sendFrame cmd comp p s =
      .next (exchangeBytes (frameBytes cmd comp p) (exchangeStart (sendEncoded cmd comp p s))) := by
  have hp : (loadTx cmd comp p s).txPlen.toNat = p.length := loadTx_txPlen_toNat h
  have he : encodeOp (loadTx cmd comp p s) = .next (sendEncoded cmd comp p s) :=
    encodeOp_payload (by omega) (by rw [hp]; exact loadTx_readRange cmd comp p s)
  have hf : (sendEncoded cmd comp p s).fvalid = true := encodeFrame_fvalid _ _
  have hl : (sendEncoded cmd comp p s).txFlen.toNat = 8 + p.length := by
    rw [sendEncoded, encodeFrame_txFlen (by omega), hp]
  have hr : (sendEncoded cmd comp p s).txf.readRange 0 (sendEncoded cmd comp p s).txFlen.toNat =
      some (frameBytes cmd comp p) := by
    rw [hl]
    exact encodeFrame_txf p (loadTx cmd comp p s)
  unfold sendFrame
  rw [if_pos (show p.length ≤ Config.lenMax from h)]
  simp only [he, if_pos hf, exchangeOp_frame hf hr]

/-- Everything a SEND of a frame that is no row of the table can do: an assigned id is sent, another is refused; so are bytes that
are no frame. -/
theorem sendOther_cases (bytes : List Byte) (s : State) :
    (∃ f, readFrame bytes = .ok (f, []) ∧ assignedCommand f.cmd = true ∧
      sendOther bytes s = sendFrame f.cmd f.comp f.payload s) ∨
    (∃ f, readFrame bytes = .ok (f, []) ∧ assignedCommand f.cmd = false ∧
      sendOther bytes s = .refused (.unassignedCommand f.cmd)) ∨
    ((∀ f, readFrame bytes ≠ .ok (f, [])) ∧ sendOther bytes s = .refused .notAFrame) := by
  unfold sendOther
  split
  · rename_i f hf
    cases ha : assignedCommand f.cmd with
    | true => exact .inl ⟨f, hf, ha, by simp⟩
    | false => exact .inr (.inl ⟨f, hf, ha, by simp⟩)
  · rename_i hne
    exact .inr (.inr ⟨fun f hf => hne f hf, rfl⟩)

/-- A wire command runs as SEND of its id, flag and payload, so a SEND of a frame of an assigned id does the same whether or not
the frame is a row of the table (log 2). -/
theorem exec_decodeCommand {cmd comp : Byte} {p : List Byte} {i : Instr} (h : decodeCommand cmd comp p = .ok i) (s : State) :
    exec i s = sendFrame cmd comp p s := by
  unfold decodeCommand at h
  split at h <;> rename_i hc
  · have hc : cmd = 0x01 := BitVec.eq_of_toNat_eq hc
    obtain ⟨rfl, rfl, rfl⟩ := bareCommand_ok h
    subst hc
    rfl
  · have hc : cmd = 0x02 := BitVec.eq_of_toNat_eq hc
    obtain ⟨sheets, margin, palette, exposure, rfl, rfl, rfl⟩ := printCommand_ok h
    subst hc
    show sendFrame 0x02 0x00 (printPayload _ _ _ _ _) s = _
    rw [printPayload, marginByte_of_nibbles]
  · have hc : cmd = 0x04 := BitVec.eq_of_toNat_eq hc
    cases h
    subst hc
    rfl
  · have hc : cmd = 0x08 := BitVec.eq_of_toNat_eq hc
    obtain ⟨rfl, rfl, rfl⟩ := bareCommand_ok h
    subst hc
    rfl
  · have hc : cmd = 0x0F := BitVec.eq_of_toNat_eq hc
    obtain ⟨rfl, rfl, rfl⟩ := bareCommand_ok h
    subst hc
    rfl
  · cases h

/-! ### What one step is -/

/-- An idle block with a host action takes it (R34). -/
theorem fetch_action {s : State} {a : HostAction} {rest : List HostAction} (ha : s.activity = .idle)
    (hh : s.host = a :: rest) : fetch s = fetchAction a { s with host := rest } := by
  simp only [fetch, ha, fetchHost, hh]

/-- An idle block without a host action waits. -/
theorem fetch_idle {s : State} (ha : s.activity = .idle) (hh : s.host = []) : fetch s = .other (.next s) := by
  simp only [fetch, ha, fetchHost, hh]

/-- In the step form of EXCHANGE a step is one `LinkXfer` (R92). -/
theorem fetch_exchanging {s : State} (ha : s.activity = .exchanging) : fetch s = .other (exchangeStep s) := by
  simp only [fetch, ha]

/-- In the step form of DECOMPRESS a step is one run or the end (R157). -/
theorem fetch_decompressing {s : State} (ha : s.activity = .decompressing) : fetch s = fetchRunStep s := by
  simp only [fetch, ha]

theorem step_instr {s u : State} {i : Instr} (h : fetch s = .instr i u) : step s = exec i u := by
  rw [step, h]

theorem step_other {s : State} {o : Outcome State Fault Refusal} (h : fetch s = .other o) : step s = o := by
  rw [step, h]

/-- Everything `fetch` can find: an instruction to run at the state itself, or at the state whose host list has lost its head; or
no instruction. -/
theorem fetch_instr {s u : State} {i : Instr} (h : fetch s = .instr i u) :
    u = s ∨ ∃ rest, u = { s with host := rest } := by
  unfold fetch at h
  split at h
  · unfold fetchHost at h
    split at h
    · cases h
    · rename_i a rest hh
      right
      refine ⟨rest, ?_⟩
      cases a <;> simp only [fetchAction, fetchOpStepped, fetchRegWrite, fetchOp, fetchSend] at h
      all_goals
        repeat' split at h
      all_goals first
        | (cases h; done)
        | (injection h with _ h; exact h.symm)
  · cases h
  · left
    unfold fetchRunStep at h
    repeat' split at h
    all_goals first
      | (cases h; done)
      | (injection h with _ h; exact h.symm)

/-- A step of an operation in progress runs no host action (R34, R257): the instruction it runs is a run of the stream. -/
theorem fetch_instr_decompressing {s u : State} {i : Instr} (ha : s.activity = .decompressing) (h : fetch s = .instr i u) :
    u = s ∧ i.family = .run := by
  rw [fetch_decompressing ha, fetchRunStep] at h
  repeat' split at h
  all_goals first
    | (cases h; done)
    | (injection h with hi hu; subst hi; exact ⟨hu.symm, rfl⟩)

/-- A host SEND of a frame (R101): an assigned id is sent, whatever its flag and payload shape; another is refused (U9). -/
theorem step_send {s : State} {bytes : List Byte} {rest : List HostAction} {f : Frame} (ha : s.activity = .idle)
    (hh : s.host = .send bytes :: rest) (hf : readFrame bytes = .ok (f, [])) :
    step s = if assignedCommand f.cmd then sendFrame f.cmd f.comp f.payload { s with host := rest }
      else .refused (.unassignedCommand f.cmd) := by
  have hd : decode .frame bytes = (decodeCommand f.cmd f.comp f.payload).map fun i => (i, []) := by
    rw [decode, decodeFrame, hf]
  cases hc : decodeCommand f.cmd f.comp f.payload with
  | ok i =>
    rw [hc] at hd
    have hi : fetch s = .instr i { s with host := rest } := by
      rw [fetch_action ha hh, fetchAction, fetchSend, hd]
      rfl
    rw [step_instr hi, exec_decodeCommand hc, if_pos (decodeCommand_assigned hc)]
  | error e =>
    rw [hc] at hd
    refine step_other ?_
    rw [fetch_action ha hh, fetchAction, fetchSend, hd]
    simp only [Except.map, sendOther, hf]

/-! ### Host accesses -/

/-- The number a register write takes does not depend on what the host does next. -/
@[simp] theorem hostValue_host (v : HostVal) (s : State) (rest : List HostAction) :
    hostValue v { s with host := rest } = hostValue v s := by
  cases v <;> rfl

/-- A write of register 0 of a number OP holds is a write of OP (R11, R13; log 26). -/
theorem fetchRegWrite_op {v : HostVal} {w : BitVec 4} {s : State} (h : hostValue v s = .ok w.toNat) :
    fetchRegWrite 0 v s = fetchOp w s := by
  unfold fetchRegWrite
  simp only [h, if_true, if_pos (show w.toNat < 16 from w.isLt), BitVec.ofNat_toNat, BitVec.setWidth_eq]

/-- Everything the step-form write of OP can do: it starts EXCHANGE or DECOMPRESS, or is the direct write (log 3). -/
theorem fetchOpStepped_cases (w : BitVec 4) (s : State) :
    (w = 0x2 ∧ fetchOpStepped w s = .other (.next (exchangeBegin s))) ∨
    (w = 0x7 ∧ fetchOpStepped w s = .other (.next (rleBegin s))) ∨
    (w ≠ 0x2 ∧ w ≠ 0x7 ∧ fetchOpStepped w s = fetchOp w s) := by
  have key : ∀ w : BitVec 4, (decodeOp w = .ok .exchange → w = 0x2) ∧ (decodeOp w = .ok .decompress → w = 0x7) := by
    intro w
    unfold decodeOp
    split <;> rename_i hw <;> refine ⟨fun h => ?_, fun h => ?_⟩ <;> first
      | (cases h; done)
      | exact BitVec.eq_of_toNat_eq hw
  by_cases h2 : w = 0x2
  · subst h2
    exact .inl ⟨rfl, rfl⟩
  · by_cases h7 : w = 0x7
    · subst h7
      exact .inr (.inl ⟨rfl, rfl⟩)
    · refine .inr (.inr ⟨h2, h7, ?_⟩)
      unfold fetchOpStepped
      split
      · rename_i h
        exact absurd ((key w).1 h) h2
      · rename_i h
        exact absurd ((key w).2 h) h7
      · rfl

/-- A read of bytes depends on its one buffer only. -/
theorem readBytes_congr {b : BufName} {i n : Nat} {s t : State} (h : t.bytes b = s.bytes b) :
    readBytes b i n t = readBytes b i n s := by
  unfold readBytes
  rw [h]

/-- Bytes that have a value are read (R34, R48). -/
theorem readBytes_ok {b : BufName} {i n : Nat} {s : State} {m : Memory 8} {bs : List Byte} (hm : s.bytes b = some m)
    (hi : i + n ≤ b.size) (hr : m.readRange i n = some bs) : readBytes b i n s = .ok bs := by
  unfold readBytes
  simp only [hm, if_pos hi, hr]

/-- Everything a host write of bytes can do when it goes on: one of three buffers is spliced, inside its size (R34, R48). -/
theorem writeBytes_next {b : BufName} {i : Nat} {bs : List Byte} {s t : State} (h : writeBytes b i bs s = .next t) :
    i + bs.length ≤ b.size ∧
    ((b = .txp ∧ t = { s with txp := s.txp.splice i bs }) ∨
     (b = .rli ∧ t = { s with rli := s.rli.splice i bs }) ∨
     (b = .til ∧ t = { s with til := s.til.splice i bs })) := by
  unfold writeBytes at h
  split at h
  · rename_i hs
    refine ⟨hs, ?_⟩
    cases b <;> simp only at h <;> first
      | (cases h; done)
      | (injection h with h; subst h; simp)
  · cases h

theorem pixelExists_iff {y x : Nat} : pixelExists y x = true ↔ y < Config.hMax ∧ x < 160 := by
  unfold pixelExists Config.width
  rw [Bool.and_eq_true, decide_eq_true_iff, decide_eq_true_iff]

/-- The poll loop ends only after a poll that shows the printing flag clear. -/
theorem testPrinted_printed {s : State} (h : s.printed = true) : testPrinted s = s := by
  rw [testPrinted, if_pos h]

/-- Without such a poll, one that timed out among them, the host polls again (R176). -/
theorem testPrinted_again {s : State} (h : s.printed = false) :
    testPrinted s = { s with host := .waitPrinted :: s.host } := by
  rw [testPrinted, if_neg (by rw [h]; exact Bool.false_ne_true)]

/-- Different pixels stand at different indexes of PIX (log 23). -/
theorem pixelAt_ne {y x v u : Nat} (hx : x < 160) (hu : u < 160) (h : v ≠ y ∨ u ≠ x) :
    pixelAt v u < pixelAt y x ∨ pixelAt y x + 1 ≤ pixelAt v u := by
  unfold pixelAt Config.width
  omega

/-- Everything a host write of a register can do when it goes on (R11). -/
theorem writeRegister_next {n x : Nat} {s t : State} (h : writeRegister n x s = .next t) :
    (n = 2 ∧ t = { s with txCmd := BitVec.ofNat 8 x }) ∨
    (n = 3 ∧ t = { s with txComp := BitVec.ofNat 8 x }) ∨
    (n = 4 ∧ t = { s with txPlen := BitVec.ofNat 17 x }) ∨
    (n = 11 ∧ t = { s with rxIn := BitVec.ofNat 8 x }) ∨
    (n = 16 ∧ t = { s with rleIlen := BitVec.ofNat 16 x }) ∨
    (n = 19 ∧ t = { s with tileH := BitVec.ofNat 16 x }) ∨
    (n = 20 ∧ t = { s with tileLen := BitVec.ofNat 24 x }) := by
  unfold writeRegister at h
  split at h
  · cases h
  · split at h
    · unfold setRegister at h
      split at h <;> first
        | (cases h; done)
        | (injection h with h; subst h; simp)
    · cases h

/-- A read hands the host numbers and changes nothing else (R47). -/
theorem returnRead_next {r : Except Refusal (List Nat)} {s t : State} (h : returnRead r s = .next t) :
    ∃ vs, r = .ok vs ∧ t = { s with readback := vs } := by
  unfold returnRead at h
  split at h
  · injection h with h
    exact ⟨_, rfl, h.symm⟩
  · cases h

/-- Routing a packet's data writes RLI and RLE_ILEN, or TIL (R57, R65). -/
theorem routeData_next {s t : State} (h : routeData s = .next t) :
    (∃ bs, bs.length ≤ BufName.size .til ∧ t = { s with til := s.til.splice 0 bs }) ∨
    (∃ bs, bs.length ≤ 65535 ∧ t = { s with rli := s.rli.splice 0 bs, rleIlen := BitVec.ofNat 16 bs.length }) := by
  unfold routeData at h
  split at h
  · split at h
    · cases h
    · split at h
      · obtain ⟨hs, hc⟩ := writeBytes_next h
        rw [Nat.zero_add] at hs
        simp at hc
        exact .inl ⟨_, hs, hc⟩
      · split at h
        · obtain ⟨hs, hc⟩ := writeBytes_next h
          rw [Nat.zero_add] at hs
          simp at hc
          refine .inr ⟨_, hs, ?_⟩
          rw [hc, List.length_map]
        · cases h
  all_goals cases h

/-! ### Reset -/

/-- The buffers at reset are in the canonical form and inside their sizes: nothing is listed (R36, R37). -/
theorem reset_buffers (b : BufName) (m : Memory 8) (h : State.reset.bytes b = some m) :
    m.wf ∧ m.below b.size := by
  cases b <;> first
    | (cases h; done)
    | (injection h with h; subst h; exact ⟨Memory.wf_nil, Memory.below_nil _⟩)

theorem reset_pix : State.reset.pix.wf ∧ State.reset.pix.below (BufName.size .pix) :=
  ⟨Memory.wf_nil, Memory.below_nil _⟩

end Sys2Proof.Machine
end

