-- ==== Sys2Proof/Laws/Tile.lean ====
section
/-! SUPPORT. What the TILE unit can do: where the two loops put every byte and every pixel. -/

namespace Sys2Proof.Machine

open Host (Outcome)

/-- Every pixel of a matrix of `rows` rows is there. -/
def pixelsThere (m : Memory 2) (rows : Nat) : Prop := ∀ y x, y < rows → x < 160 → (m.read (160 * y + x)).isSome

/-- One tile row, with its eight pixels there. -/
theorem packTileRow_some {m : Memory 2} {s t r : Nat}
    (h : ∀ i, i < 8 → (m.read (160 * (8 * s + r) + 8 * t + i)).isSome) :
    ∃ px, m.readRange (pixIndex (8 * s + r) (8 * t)) 8 = some px ∧ px.length = 8 ∧
      packTileRow m s t r = some (tileRowBytes px) := by
  obtain ⟨px, hp⟩ := Memory.readRange_isSome (m := m) (i := pixIndex (8 * s + r) (8 * t)) (len := 8) (by
    intro k hk
    exact h k hk)
  exact ⟨px, hp, Memory.readRange_length hp, by rw [packTileRow, hp]; rfl⟩

/-- The two bytes of a tile row, named by the row. -/
def rowBytes (m : Memory 2) (s t r : Nat) : List Byte :=
  tileRowBytes ((m.readRange (pixIndex (8 * s + r) (8 * t)) 8).getD [])

theorem packTileRow_eq {m : Memory 2} {s t r : Nat}
    (h : ∀ i, i < 8 → (m.read (160 * (8 * s + r) + 8 * t + i)).isSome) :
    packTileRow m s t r = some (rowBytes m s t r) ∧ (rowBytes m s t r).length = 2 := by
  obtain ⟨px, hp, -, he⟩ := packTileRow_some h
  refine ⟨?_, rfl⟩
  rw [he, rowBytes, hp]
  rfl

/-- PACK's loop: with every pixel there it gives 320 bytes a band, and byte `320 s + 16 t + 2 r + j` is byte `j` of row `r` of
tile `t` of band `s` (R75, R191). -/
theorem packBytes_pieces {m : Memory 2} {bands : Nat} (h : pixelsThere m (8 * bands)) :
    ∃ bytes, packBytes m bands = some bytes ∧ bytes.length = 320 * bands ∧
      ∀ s t r j, s < bands → t < 20 → r < 8 → j < 2 →
        bytes[320 * s + 16 * t + 2 * r + j]? = (rowBytes m s t r)[j]? := by
  have hrow : ∀ s t, s < bands → t < 20 → ∃ bs, (collect 8 fun r => packTileRow m s t r) = some bs ∧
      bs.length = 8 * 2 ∧ ∀ r j, r < 8 → j < 2 → bs[2 * r + j]? = (rowBytes m s t r)[j]? := by
    intro s t hs ht
    refine collect_pieces (len := 2) fun r hr => packTileRow_eq fun i hi => ?_
    have := h (8 * s + r) (8 * t + i) (by omega) (by omega)
    rwa [← Nat.add_assoc] at this
  have hband : ∀ s, s < bands → ∃ bs, (collect 20 fun t => collect 8 fun r => packTileRow m s t r) = some bs ∧
      bs.length = 20 * 16 ∧ ∀ t r j, t < 20 → r < 8 → j < 2 → bs[16 * t + 2 * r + j]? = (rowBytes m s t r)[j]? := by
    intro s hs
    obtain ⟨bs, hb, hl, hr⟩ := collect_pieces (count := 20) (len := 16)
      (f := fun t => collect 8 fun r => packTileRow m s t r)
      (g := fun t => (collect 8 fun r => packTileRow m s t r).getD []) (fun t ht => by
        obtain ⟨bs, hb, hl, -⟩ := hrow s t hs ht
        simp [hb, hl])
    refine ⟨bs, hb, hl, fun t r j ht hr' hj => ?_⟩
    obtain ⟨rs, hb', -, hr''⟩ := hrow s t hs ht
    rw [Nat.add_assoc, hr t (2 * r + j) ht (by omega), hb', Option.getD_some, hr'' r j hr' hj]
  obtain ⟨bytes, hb, hl, hr⟩ := collect_pieces (count := bands) (len := 320)
    (f := fun s => collect 20 fun t => collect 8 fun r => packTileRow m s t r)
    (g := fun s => (collect 20 fun t => collect 8 fun r => packTileRow m s t r).getD []) (fun s hs => by
      obtain ⟨bs, hb, hl, -⟩ := hband s hs
      simp [hb, hl])
  refine ⟨bytes, hb, by omega, fun s t r j hs ht hr' hj => ?_⟩
  obtain ⟨bs, hb', -, hr''⟩ := hband s hs
  rw [show 320 * s + 16 * t + 2 * r + j = 320 * s + (16 * t + 2 * r + j) by omega,
    hr s (16 * t + 2 * r + j) hs (by omega), hb', Option.getD_some, hr'' t r j ht hr' hj]

/-- UNPACK's loop: with every byte there it gives 160 pixels a row, each made of the two bytes R194 names (R192). -/
theorem unpackPixels_pieces {m : Memory 8} {rows : Nat}
    (h : ∀ y x, y < rows → x < 160 → (m.read (tileIndex y x)).isSome ∧ (m.read (tileIndex y x + 1)).isSome) :
    ∃ px, unpackPixels m rows = some px ∧ px.length = 160 * rows ∧
      ∀ y x, y < rows → x < 160 → px[160 * y + x]? = unpackPixel m y x := by
  have hone : ∀ y x, y < rows → x < 160 → ∃ p, unpackPixel m y x = some p := by
    intro y x hy hx
    obtain ⟨h0, h1⟩ := h y x hy hx
    obtain ⟨lo, hlo⟩ := Option.isSome_iff_exists.1 h0
    obtain ⟨hi, hhi⟩ := Option.isSome_iff_exists.1 h1
    exact ⟨_, by rw [unpackPixel, hlo, hhi]⟩
  have hrow : ∀ y, y < rows → ∃ ps, (collect 160 fun x => (unpackPixel m y x).map fun p => [p]) = some ps ∧
      ps.length = 160 * 1 ∧ ∀ x, x < 160 → ps[x]? = unpackPixel m y x := by
    intro y hy
    obtain ⟨ps, hp, hl, hr⟩ := collect_pieces (count := 160) (len := 1)
      (f := fun x => (unpackPixel m y x).map fun p => [p])
      (g := fun x => ((unpackPixel m y x).map fun p => [p]).getD []) (fun x hx => by
        obtain ⟨p, hp⟩ := hone y x hy hx
        simp [hp])
    refine ⟨ps, hp, hl, fun x hx => ?_⟩
    obtain ⟨p, hp'⟩ := hone y x hy hx
    have := hr x 0 hx (by omega)
    simpa [hp'] using this
  obtain ⟨px, hp, hl, hr⟩ := collect_pieces (count := rows) (len := 160)
    (f := fun y => collect 160 fun x => (unpackPixel m y x).map fun p => [p])
    (g := fun y => (collect 160 fun x => (unpackPixel m y x).map fun p => [p]).getD []) (fun y hy => by
      obtain ⟨ps, hp, hl, -⟩ := hrow y hy
      simp [hp, hl])
  refine ⟨px, hp, by omega, fun y x hy hx => ?_⟩
  obtain ⟨ps, hp', -, hr'⟩ := hrow y hy
  rw [hr y x hy hx, hp', Option.getD_some, hr' x hx]

/-- The two bytes of a pixel lie inside its band (R194). -/
theorem tileIndex_lt {y x rows : Nat} (hr : rows % 8 = 0) (hy : y < rows) (hx : x < 160) :
    tileIndex y x + 1 < 40 * rows := by
  unfold tileIndex
  omega

/-- `tileIndex` read backwards: the row and the column's tile of an even index. -/
theorem tileIndex_inverse {k i : Nat} (hk : k % 2 = 0) (hi : i < 8) :
    tileIndex (8 * (k / 320) + k % 16 / 2) (8 * (k % 320 / 16) + i) = k := by
  unfold tileIndex
  omega

/-- Everything PACK can do. -/
theorem execPack_cases (s : State) :
    (heightLegal s.tileH.toNat = false ∧ execPack s = .next (State.raise .badHeight (some s.tileH.toNat) s)) ∨
    (heightLegal s.tileH.toNat = true ∧ ∃ bytes, packBytes s.pix (s.tileH.toNat / 8) = some bytes ∧
      execPack s = .next (State.endOk
        { s with til := s.til.splice 0 bytes, tileLen := BitVec.ofNat 24 (40 * s.tileH.toNat) })) ∨
    (heightLegal s.tileH.toNat = true ∧ packBytes s.pix (s.tileH.toNat / 8) = none ∧
      execPack s = .refused (.unwritten .pix)) := by
  unfold execPack
  cases hh : heightLegal s.tileH.toNat with
  | false => exact .inl ⟨rfl, by simp⟩
  | true =>
    right
    cases hp : packBytes s.pix (s.tileH.toNat / 8) with
    | some bytes => exact .inl ⟨rfl, bytes, rfl, by simp⟩
    | none => exact .inr ⟨rfl, rfl, by simp⟩

/-- Everything UNPACK can do. -/
theorem execUnpack_cases (s : State) :
    (lengthLegal s.tileLen.toNat = false ∧
      execUnpack s = .next (State.raise .badLength (some s.tileLen.toNat) s)) ∨
    (lengthLegal s.tileLen.toNat = true ∧ ∃ px, unpackPixels s.til (s.tileLen.toNat / 40) = some px ∧
      execUnpack s = .next (State.endOk
        { s with pix := s.pix.splice 0 px, tileH := BitVec.ofNat 16 (s.tileLen.toNat / 40) })) ∨
    (lengthLegal s.tileLen.toNat = true ∧ unpackPixels s.til (s.tileLen.toNat / 40) = none ∧
      execUnpack s = .refused (.unwritten .til)) := by
  unfold execUnpack
  cases hh : lengthLegal s.tileLen.toNat with
  | false => exact .inl ⟨rfl, by simp⟩
  | true =>
    right
    cases hp : unpackPixels s.til (s.tileLen.toNat / 40) with
    | some px => exact .inl ⟨rfl, px, rfl, by simp⟩
    | none => exact .inr ⟨rfl, rfl, by simp⟩

theorem heightLegal_iff {h : Nat} : heightLegal h = true ↔ h % 8 = 0 ∧ h ≤ Config.hMax := by
  simp [heightLegal]

theorem lengthLegal_iff {l : Nat} : lengthLegal l = true ↔ l % 320 = 0 ∧ l ≤ 40 * Config.hMax := by
  simp [lengthLegal]

/-- H_MAX is a multiple of 8, at least 16, and fits TILE_H (R7, R198; log 9). -/
theorem hMax_bounds : Config.hMax % 8 = 0 ∧ 16 ≤ Config.hMax ∧ Config.hMax ≤ 65528 := by
  have := Config.extraBands.isLt
  unfold Config.hMax
  omega

end Sys2Proof.Machine
end

