-- ==== Sys2Proof/Tests/Slice0.lean ====
section
/-! SUPPORT. Tests of the model (expected values from 95_test_vectors.md, named by their vector) and one witness for each
statement with hypotheses. -/

namespace Sys2Proof.Tests

open Sys2Proof Sys2Proof.Machine

/-! ### Helpers -/

/-- One projection of the next state. -/
def look {α : Type} (o : Host.Outcome State Fault Refusal) (f : State → α) : Option α :=
  match o with
  | .next t => some (f t)
  | .fault _ => none
  | .refused _ => none

/-- Is the outcome this refusal? -/
def refusedBy (o : Host.Outcome State Fault Refusal) (r : Refusal) : Bool :=
  match o with
  | .next _ => false
  | .fault _ => false
  | .refused q => decide (q = r)

/-- Is the outcome this fault? -/
def faultsBy (o : Host.Outcome State Fault Refusal) (f : Fault) : Bool :=
  match o with
  | .next _ => false
  | .fault g => decide (g = f)
  | .refused _ => false

def isError (e : Except DecodeError (Instr × List Byte)) (d : DecodeError) : Bool :=
  match e with
  | .ok _ => false
  | .error f => decide (f = d)

def replies (bs : List Byte) : List LinkReply := bs.map LinkReply.reply

/-- The INIT frame loaded for ENCODE: no payload. -/
def initLoaded : State := { State.reset with txCmd := 0x01 }

/-- TXF holds the STATUS frame (V2). -/
def statusEncoded : State :=
  { State.reset with
    txf := cellsFrom 0 [0x88, 0x33, 0x0F, 0x00, 0x00, 0x00, 0x0F, 0x00], txFlen := 8, txStat := 0b01 }

/-- A status pair is in. -/
def statusPair (keepalive flags : Byte) : State :=
  { State.reset with resp0 := keepalive, resp1 := flags, txStat := 0b10 }

/-- A parser that has stored these bytes and now gets `b`. -/
def parser (st : RxState) (sum : BitVec 16) (stored : List Byte) (b : Byte) : State :=
  { State.reset with
    rxb := cellsFrom 0 stored, rxN := BitVec.ofNat 17 stored.length, rxState := st, rxSum := sum, rxIn := b }

/-- RLI holds this input. -/
def rleInput (bs : List Byte) : State :=
  { State.reset with rli := cellsFrom 0 bs, rleIlen := BitVec.ofNat 16 bs.length }

/-- Eight rows of level-0 pixels. -/
def blankMatrix : State := { State.reset with pix := cellsFrom 0 (List.replicate 1280 0), tileH := 8 }

/-- One band of zero bytes. -/
def blankTiles : State := { State.reset with til := cellsFrom 0 (List.replicate 320 0), tileLen := 320 }

/-- The host is about to do this. -/
def doing (actions : List HostAction) (s : State) : State := { s with host := actions }

/-! ### WellFormed -/

theorem test_wf_data_too_long : (Instr.data 0x00 (List.replicate 65536 0x00)).wf = false := by
  rw [Instr.wf, List.length_replicate]
  rfl

theorem test_wf_data_longest : (Instr.data 0x00 (List.replicate 65535 0xFF)).wf = true := by
  rw [Instr.wf, List.length_replicate]
  rfl

theorem test_wf_lit_empty : (Instr.lit []).wf = false := by decide

theorem test_wf_lit_too_long : (Instr.lit (List.replicate 129 0x00)).wf = false := by
  rw [Instr.wf, List.length_replicate]
  rfl

theorem test_wf_lit_longest : (Instr.lit (List.replicate 128 0x00)).wf = true := by
  rw [Instr.wf, List.length_replicate]
  rfl

theorem test_wf_lit_longest_ff : (Instr.lit (List.replicate 128 0xFF)).wf = true := by
  rw [Instr.wf, List.length_replicate]
  rfl

/-! ### Decoding: a word for each constructor, written out from the encodings of the spec -/

theorem test_decode_encode : decode .op [0b00000001] = .ok (.encode, []) := by decide
theorem test_decode_exchange : decode .op [0b00000010] = .ok (.exchange, []) := by decide
theorem test_decode_decodeStatus : decode .op [0b00000011] = .ok (.decodeStatus, []) := by decide
theorem test_decode_addByte : decode .op [0b00000100] = .ok (.addByte, []) := by decide
theorem test_decode_verify : decode .op [0b00000101] = .ok (.verify, []) := by decide
theorem test_decode_rxReset : decode .op [0b00000110] = .ok (.rxReset, []) := by decide
theorem test_decode_decompress : decode .op [0b00000111] = .ok (.decompress, []) := by decide
theorem test_decode_pack : decode .op [0b00001000] = .ok (.pack, []) := by decide
theorem test_decode_unpack : decode .op [0b00001001] = .ok (.unpack, []) := by decide
theorem test_decode_faultClear : decode .op [0b00001010] = .ok (.faultClear, []) := by decide

/-- S1, V1. -/
theorem test_decode_init : decode .frame [0x88, 0x33, 0x01, 0x00, 0x00, 0x00, 0x01, 0x00] = .ok (.init, []) := by
  decide

/-- V5. -/
theorem test_decode_print :
    decode .frame [0x88, 0x33, 0x02, 0x00, 0x04, 0x00, 0x01, 0x04, 0xE4, 0x40, 0x2F, 0x01] =
      .ok (.print 0x01 0x0 0x4 0xE4 0x40, []) := by decide

/-- V8. -/
theorem test_decode_data :
    decode .frame [0x88, 0x33, 0x04, 0x01, 0x0A, 0x00, 0xFF, 0x00, 0xFF, 0x00, 0xFF, 0x00, 0xFF, 0x00, 0xFA, 0x00,
      0x05, 0x05] =
      .ok (.data 0x01 [0xFF, 0x00, 0xFF, 0x00, 0xFF, 0x00, 0xFF, 0x00, 0xFA, 0x00], []) := by decide

/-- V3. -/
theorem test_decode_brk : decode .frame [0x88, 0x33, 0x08, 0x00, 0x00, 0x00, 0x08, 0x00] = .ok (.brk, []) := by
  decide

/-- S2, V2. -/
theorem test_decode_status : decode .frame [0x88, 0x33, 0x0F, 0x00, 0x00, 0x00, 0x0F, 0x00] = .ok (.status, []) := by
  decide

/-- S5: three copies are count field 1. -/
theorem test_decode_rep : decode .run [0b10000001, 0x5A] = .ok (.rep 0b0000001 0x5A, []) := by decide

/-- S6. -/
theorem test_decode_lit : decode .run [0b00000010, 0x11, 0x22, 0x33] = .ok (.lit [0x11, 0x22, 0x33], []) := by decide

/-- R77: the reserved operation numbers. -/
theorem test_decode_reserved_ops :
    [0x00, 0x0B, 0x0C, 0x0D, 0x0E, 0x0F].all (fun b => isError (decode .op [b]) .reservedOp) = true := by decide

/-- R64, R77: an unassigned command id (0x10) in a frame whose check is right. -/
theorem test_decode_unassigned :
    isError (decode .frame [0x88, 0x33, 0x10, 0x00, 0x00, 0x00, 0x10, 0x00]) .unassignedCommand = true := by decide

/-- R61, R63: wrong magic, wrong check. -/
theorem test_decode_bad_frames :
    (isError (decode .frame [0x88, 0x34, 0x01, 0x00, 0x00, 0x00, 0x01, 0x00]) .badMagic &&
      isError (decode .frame [0x88, 0x33, 0x01, 0x00, 0x00, 0x00, 0x01, 0x01]) .badChecksum) = true := by decide

/-- V35: the input ends inside the run. -/
theorem test_decode_truncated_run : isError (decode .run [0x02, 0xAA]) .truncated = true := by decide

/-- V7: top 1 and bottom 3 share the margin byte 0x13. -/
theorem test_encode_print :
    encode (.print 0x01 0x1 0x3 0xE4 0x40) =
      [0x88, 0x33, 0x02, 0x00, 0x04, 0x00, 0x01, 0x13, 0xE4, 0x40, 0x3E, 0x01] := by decide

/-- V11: the sum wraps past 65535, and the length has a high byte. -/
theorem test_encode_sum_wraps : (frameSum 0x04 0x00 (List.replicate 257 0xFF)).toNat = 0x0005 := by
  set_option maxRecDepth 4000 in decide

/-! ### The table words -/

theorem test_table_ops :
    (List.range 16).map (fun w => decodeTableWord 4 w) =
      [none, some .encode, some .exchange, some .decodeStatus, some .addByte, some .verify, some .rxReset,
        some .decompress, some .pack, some .unpack, some .faultClear, none, none, none, none, none] := by decide

theorem test_table_status : decodeTableWord 8 0x0F = some .status := by decide
theorem test_table_rep : decodeTableWord 8 0x80 = some (.rep 0 0x00) := by decide
theorem test_table_lit : decodeTableWord 8 0x00 = some (.lit [0x00]) := by decide

/-- A frame laid out in full, first byte lowest: INIT. -/
theorem test_table_frame : decodeTableWord 64 0x0001000000013388 = some .init := by decide

/-! ### TX -/

/-- V1. -/
theorem test_encode_frame :
    look (exec .encode initLoaded) (fun t => (t.txf.readRange 0 8, t.txFlen, t.txStat, t.result)) =
      some (some [0x88, 0x33, 0x01, 0x00, 0x00, 0x00, 0x01, 0x00], 8, 0b01, some .ok) := by decide

/-- R218: TX_PLEN = 65536. -/
theorem test_encode_too_large :
    look (exec .encode { State.reset with txPlen := 65536, txStat := 0b11 }) (fun t => (t.fault, t.txStat, t.result)) =
      some (0x01, 0b10, some (.fault 0x01 (some 65536))) := by decide

/-- V50. -/
theorem test_exchange_ok :
    look (exec .exchange { statusEncoded with peer := replies [1, 2, 3, 4, 5, 6, 7, 8, 0x81, 0x00] })
      (fun t => (t.txIdx, t.resp0, t.resp1, t.txStat, t.sent)) =
      some (10, 0x81, 0x00, 0b11, [0x88, 0x33, 0x0F, 0x00, 0x00, 0x00, 0x0F, 0x00, 0x00, 0x00]) := by decide

/-- V52: the second status byte does not come. -/
theorem test_exchange_timeout :
    look (exec .exchange { statusEncoded with peer := replies [0, 0, 0, 0, 0, 0, 0, 0, 0x81] ++ [.timeout] })
      (fun t => (t.txIdx, t.txStat, t.fault, t.result)) =
      some (9, 0b01, 0x02, some (.fault 0x02 (some 9))) := by decide

/-- V54: no frame, an earlier status pair: TX_IDX, RESP0 and RESP1 unchanged, no `LinkXfer`. -/
theorem test_exchange_notReady :
    look (exec .exchange { statusPair 0x81 0x04 with txIdx := 10 })
      (fun t => (t.result, t.txIdx, t.resp0, t.resp1, t.txStat, t.linkN)) =
      some (some (.fault 0x09 none), 10, 0x81, 0x04, 0b10, 0) := by decide

/-- V14 to V19c, V53. -/
theorem test_decodeStatus_cond :
    ([(0xFF, 0xFF), (0x81, 0x00), (0x80, 0x00), (0x81, 0x06), (0x81, 0xFF), (0x00, 0x00), (0x82, 0x00), (0x80, 0x01),
      (0x81, 0x80)] : List (Byte × Byte)).map
        (fun p => look (exec .decodeStatus (statusPair p.1 p.2)) (fun t => t.cond)) =
      [some 0b1000000000, some 0b0100000000, some 0b0100000000, some 0b0000000110, some 0b0011111111,
        some 0b1000000000, some 0b1000000000, some 0b0000000001, some 0b0010000000] := by decide

/-- V16 as GBP's list, V54. -/
theorem test_decodeStatus_names :
    (conditions 0b0000000110, look (exec .decodeStatus State.reset) (fun t => t.fault)) =
      ([.busy, .imageBufferFull], some 0x09) := by decide

/-! ### RX -/

/-- V22: `88 12` is a silent resync; RX_STAT is cleared, FAULT is not. -/
theorem test_addByte_resync :
    look (exec .addByte { parser .preamblePartial 0 [0x88] 0x12 with fault := 0x05 })
      (fun t => (t.rxState, t.rxN, t.fault, t.result)) = some (.empty, 0, 0x05, some .ok) := by decide

/-- V21: the sixth byte with one data byte declared; then that byte, which skips DATA_PARTIAL. -/
theorem test_addByte_header_and_data :
    (look (exec .addByte (parser .headerPartial 0x0005 [0x88, 0x33, 0x04, 0x00, 0x01] 0x00))
        (fun t => (t.rxState, t.rxN, t.rxSum)),
      look (exec .addByte (parser .headerDone 0x0005 [0x88, 0x33, 0x04, 0x00, 0x01, 0x00] 0xAB))
        (fun t => (t.rxState, t.rxN, t.rxSum))) =
      (some (.headerDone, 6, 0x0005), some (.dataDone, 7, 0x00B0)) := by decide

/-- V20 after the eighth byte, V23 (check 0000 against 00C1). -/
theorem test_verify :
    (look (exec .verify (parser .checksumDone 0x0001 [0x88, 0x33, 0x01, 0x00, 0x00, 0x00, 0x01, 0x00] 0x00))
        (fun t => t.rxStat),
      look (exec .verify (parser .checksumDone 0x00C1 [0x88, 0x33, 0x04, 0x00, 0x02, 0x00, 0x88, 0x33, 0x00, 0x00] 0x00))
        (fun t => (t.rxStat, t.fault))) = (some 0b11, some (0b01, 0x00)) := by decide

/-- V22's end: RX_RESET from COMPLETE. -/
theorem test_rxReset :
    look (exec .rxReset { parser .complete 0x000F [0x88, 0x33, 0x0F, 0x00, 0x00, 0x00, 0x0F, 0x00, 0x81, 0x00] 0x55 with
        rxStat := 0b11, fault := 0x03 })
      (fun t => (t.rxState, t.rxN, t.rxSum, t.rxStat, t.fault)) = some (.empty, 0, 0, 0, 0x03) := by decide

/-! ### RLE -/

/-- V30, V33, V35, V39, V39b. -/
theorem test_expand :
    [expand [0xFF, 0, 0xFF, 0, 0xFF, 0, 0xFF, 0, 0xFA, 0], expand [0x81, 0x5A], expand [0x02, 0xAA],
      expand [0xFF, 0, 0xFF, 0, 0xFF, 0, 0xFF, 0, 0xFA],
      expand [0xFF, 0, 0xFF, 0, 0xFF, 0, 0xFF, 0, 0xFF, 0, 5, 1, 2]] =
      [.ok (List.replicate 640 0x00), .lengthMismatch 3, .truncated 0 0, .truncated 8 516, .truncated 10 645] := by
  set_option maxRecDepth 16000 in decide

/-- V33, V34, V35, V36 through the unit. -/
theorem test_decompress :
    ([[0x81, 0x5A], [0x02, 0x11, 0x22, 0x33], [0x02, 0xAA], []] : List (List Byte)).map
        (fun bs => look (exec .decompress (rleInput bs)) (fun t => (t.fault, t.rleIp, t.rleOcnt))) =
      [some (0x05, 2, 3), some (0x05, 4, 3), some (0x04, 0, 0), some (0x05, 0, 0)] := by decide

/-- S7: control 0x82 stands for four copies. -/
theorem test_rep :
    look (exec (.rep 2 0xAA) { rleInput [0x00, 0x41, 0x82, 0xAA] with rleIp := 2, rleOcnt := 1, rlo := [(0, 0x41)] })
      (fun t => (t.rlo, t.rleIp, t.rleOcnt)) =
      some ([(0, 0x41), (1, 0xAA), (2, 0xAA), (3, 0xAA), (4, 0xAA)], 4, 5) := by decide

/-- R155: what does not fit is counted and not stored. -/
theorem test_rep_overflow :
    look (exec (.rep 0 0x77) { rleInput [0x80, 0x77] with rleOcnt := 639 }) (fun t => (t.rlo, t.rleOcnt)) =
      some ([(639, 0x77)], 641) := by decide

/-- S6, and R154 for the same run cut short. -/
theorem test_lit :
    (look (exec (.lit [0x11, 0x22, 0x33]) (rleInput [0x02, 0x11, 0x22, 0x33])) (fun t => (t.rlo, t.rleIp, t.rleOcnt)),
      look (exec (.lit [0x11, 0x22, 0x33]) (rleInput [0x02, 0x11, 0x22])) (fun t => (t.fault, t.rleIp, t.rleOcnt))) =
      (some ([(0, 0x11), (1, 0x22), (2, 0x33)], 4, 3), some (0x04, 0, 0)) := by decide

/-! ### TILE -/

/-- V45's row, V46's pixel (1, 8), pixel (8, 0) of band 1. -/
theorem test_pack_rows :
    (packTileRow (cellsFrom 0 [0, 1, 2, 3, 3, 2, 1, 0]) 0 0 0, packTileRow (cellsFrom 168 [3, 0, 0, 0, 0, 0, 0, 0]) 0 1 1,
      packTileRow (cellsFrom 1280 [3, 0, 0, 0, 0, 0, 0, 0]) 1 0 0) =
      (some [0x5A, 0x3C], some [0x80, 0x80], some [0x80, 0x80]) := by decide

/-- Fault vectors: TILE_H = 12, TILE_H = 0. -/
theorem test_pack_heights :
    look (exec .pack { State.reset with tileH := 12 }) (fun t => (t.fault, t.result)) =
      some (0x06, some (.fault 0x06 (some 12))) ∧
    look (exec .pack { State.reset with tileH := 0, tileLen := 5 }) (fun t => (t.tileLen, t.result)) =
      some (0, some .ok) := by
  constructor <;> decide

/-- V44 rows 0 and 3, read back. -/
theorem test_unpack_pixels :
    ((List.range 8).map (unpackPixel (cellsFrom 0 [0x55, 0x33]) 0), unpackPixel (cellsFrom 638 [0x01, 0x01]) 15 159) =
      ([some 0, some 1, some 2, some 3, some 0, some 1, some 2, some 3], some 3) := by decide

/-- Fault vectors: TILE_LEN = 16 and 330. -/
theorem test_unpack_lengths :
    (look (exec .unpack { State.reset with tileLen := 16 }) (fun t => (t.fault, t.tileH)) = some (0x07, 0)) ∧
    (look (exec .unpack { State.reset with tileLen := 330 }) (fun t => (t.fault, t.tileH)) = some (0x07, 0)) := by
  constructor <;> decide

/-! ### Control and wire commands -/

/-- Section 2.8: FAULT_CLEAR; and a second fault does not overwrite FAULT. -/
theorem test_faultClear :
    (look (exec .faultClear { State.reset with fault := 0x05 }) (fun t => t.fault),
      look (exec .decompress { State.reset with fault := 0x01 }) (fun t => (t.fault, t.result))) =
      (some 0x00, some (0x01, some (.fault 0x05 (some 0)))) := by decide

/-- P1 and P1c as one wire command. -/
theorem test_init :
    (look (exec .init { State.reset with peer := replies [0, 0, 0, 0, 0, 0, 0, 0, 0x81, 0x00] })
        (fun t => (t.txFlen, t.txStat, t.txIdx, t.resp0, t.resp1, t.fault)),
      look (exec .init { State.reset with peer := replies [0, 0, 0, 0] ++ [.timeout] })
        (fun t => (t.txIdx, t.txStat, t.fault))) =
      (some (8, 0b11, 10, 0x81, 0x00, 0x00), some (4, 0b01, 0x02)) := by decide

/-- V5 and V53. -/
theorem test_print :
    look (exec (.print 0x01 0x0 0x4 0xE4 0x40)
        { State.reset with peer := replies [0, 0, 0, 0, 0, 0, 0, 0, 0, 0, 0, 0, 0xFF, 0xFF] })
      (fun t => (t.sent, t.txIdx, t.resp0, t.resp1)) =
      some ([0x88, 0x33, 0x02, 0x00, 0x04, 0x00, 0x01, 0x04, 0xE4, 0x40, 0x2F, 0x01, 0x00, 0x00], 14, 0xFF, 0xFF) := by
  decide

/-- V4: the end marker. -/
theorem test_data :
    look (exec (.data 0x00 []) { State.reset with peer := replies [0, 0, 0, 0, 0, 0, 0, 0, 0x81, 0x02] })
      (fun t => (t.sent, t.txPlen, t.resp1)) =
      some ([0x88, 0x33, 0x04, 0x00, 0x00, 0x00, 0x04, 0x00, 0x00, 0x00], 0, 0x02) := by decide

/-- V3. -/
theorem test_brk :
    look (exec .brk { State.reset with peer := replies [0, 0, 0, 0, 0, 0, 0, 0, 0x81, 0x00] }) (fun t => t.sent) =
      some [0x88, 0x33, 0x08, 0x00, 0x00, 0x00, 0x08, 0x00, 0x00, 0x00] := by decide

/-- V50, V51. -/
theorem test_status :
    (look (exec .status { State.reset with peer := replies [0, 0, 0, 0, 0, 0, 0, 0, 0x81, 0x00] }) (fun t => t.txIdx),
      look (exec .status { State.reset with peer := replies [0, 0, 0] ++ [.timeout] })
        (fun t => (t.txIdx, t.result))) = (some 10, some (3, some (.fault 0x02 (some 3)))) := by decide

/-! ### The host -/

/-- Section 2.8: 0x0 and 0xB written to OP. -/
theorem test_illegal_op :
    (look (step (doing [.opWrite 0x0] State.reset)) (fun t => t.fault),
      look (step (doing [.opWrite 0xB] State.reset)) (fun t => t.result)) =
      (some 0x08, some (some (.fault 0x08 none))) := by decide

/-- Section 2.7 (host side). -/
theorem test_quantisers :
    (([0, 42, 43, 63, 64, 127, 128, 191, 192, 212, 213, 255] : List Byte).map fun g =>
        (equalBins .direct g, nearest .direct g)) =
      [(0, 0), (0, 0), (0, 1), (0, 1), (1, 1), (1, 1), (2, 2), (2, 2), (3, 2), (3, 2), (3, 3), (3, 3)] := by decide

/-- U14, C7: under the other polarity a level is its complement. -/
theorem test_polarity : (equalBins .complement 0, nearest .complement 255, nearest .complement 128) = (3, 0, 1) := by decide

/-- R66, R77, D40: a STATUS frame with one payload byte and a flag is sent like any other; its check is 0x0F + 1 + 1 + 0x5A. -/
theorem test_send_any_shape :
    look (step (doing [.send [0x88, 0x33, 0x0F, 0x01, 0x01, 0x00, 0x5A, 0x6B, 0x00]]
        { State.reset with peer := replies [0, 0, 0, 0, 0, 0, 0, 0, 0, 0x81, 0x00] }))
      (fun t => (t.sent, t.txPlen, t.resp0, t.result)) =
      some ([0x88, 0x33, 0x0F, 0x01, 0x01, 0x00, 0x5A, 0x6B, 0x00, 0x00, 0x00], 1, 0x81, some .ok) := by decide

/-- U9, R61: an unassigned id (0x10); a wrong check. -/
theorem test_send_refusals :
    (refusedBy (step (doing [.send [0x88, 0x33, 0x10, 0x00, 0x00, 0x00, 0x10, 0x00]] State.reset)) (.unassignedCommand 0x10) &&
      refusedBy (step (doing [.send [0x88, 0x33, 0x01, 0x00, 0x00, 0x00, 0x02, 0x00]] State.reset)) .notAFrame) = true := by
  decide

/-- S11 (host side): 6400 bytes are two batches, of 9 and of 1 strips. -/
theorem test_batches : (batches (List.replicate 10 [])).map List.length = [9, 1] := by decide

/-- R173, R176: the poll loop ends on a clear printing flag; it goes on while the flag is set and after a poll without answer. -/
theorem test_poll_loop :
    ([statusPair 0x81 0x00, statusPair 0x81 0x02, State.reset] : List State).map
        (fun s => look (step (doing [.testPrinted] s)) (fun t => t.host)) =
      [some [], some [.waitPrinted], some [.waitPrinted]] := by decide

/-- R13, R34: what the host may not do. -/
theorem test_host_refusals :
    (refusedBy (step (doing [.regRead 0] State.reset)) (.registerWriteOnly 0) &&
      refusedBy (step (doing [.regWrite 1 (.lit 0)] State.reset)) (.registerReadOnly 1) &&
      refusedBy (step (doing [.bufWrite .rlo 0 [0x00]] State.reset)) (.bufferReadOnly .rlo) &&
      refusedBy (step (doing [.bufRead .txf 0] State.reset)) (.unwritten .txf) &&
      refusedBy (step (doing [.viewRead .type] State.reset)) (.invalidView .type)) = true := by decide

/-! ### Witnesses: states and operands that meet a statement's hypotheses -/

/-- A packet of one data byte whose data is in, with the host about to write OP. -/
def midPacket : State := doing [.opWrite 4] (parser .dataDone 0x00B0 [0x88, 0x33, 0x04, 0x00, 0x01, 0x00, 0xAB] 0xB0)

theorem midPacket_parserShape : ParserShape midPacket where
  stored := by decide
  state := by decide
  capacity := by decide
  magic0 := by decide
  magic1 := by decide

theorem midPacket_good : GoodState midPacket where
  buffers :=
    { txp := ⟨Memory.wf_nil, Memory.below_nil _⟩
      txf := ⟨Memory.wf_nil, Memory.below_nil _⟩
      rxb := ⟨cellsFrom_wf _ _, by decide⟩
      rli := ⟨Memory.wf_nil, Memory.below_nil _⟩
      rlo := ⟨Memory.wf_nil, Memory.below_nil _⟩
      til := ⟨Memory.wf_nil, Memory.below_nil _⟩
      pix := ⟨Memory.wf_nil, Memory.below_nil _⟩ }
  fault := by decide
  cond := .inl rfl
  parser := midPacket_parserShape
  sum := ⟨[0x04, 0x00, 0x01, 0x00, 0xAB], by decide, by decide⟩
  verify := { valid := by decide, invalid := by decide }
  tx :=
    { frame := fun h => absurd h (by decide)
      flenKnown := fun h => absurd h (by decide)
      idx := by decide
      resp := fun h => absurd h (by decide) }
  rle := { ip := by decide, count := by decide }
  activity :=
    { exchanging := fun h => absurd h (by decide)
      decompressing := fun h => absurd h (by decide) }

theorem witness_EveryStepKeepsInvariant : ∃ s t, GoodState s ∧ step s = .next t :=
  ⟨midPacket, _, midPacket_good, rfl⟩

theorem witness_GoodStatesRunWithoutMachineFault : ∃ s, GoodState s := ⟨midPacket, midPacket_good⟩

theorem witness_ParserShapeHoldsAtEveryPoint : ∃ s t, ParserShape s ∧ step s = .next t :=
  ⟨midPacket, _, midPacket_parserShape, rfl⟩

theorem witness_StepRunsDecodedInstruction_op :
    ∃ (s : State) (w : BitVec 4) (rest : List HostAction) (i : Instr),
      s.activity = .idle ∧ s.host = .opWrite w :: rest ∧ decodeOp w = .ok i :=
  ⟨doing [.opWrite 0xA] State.reset, 0xA, [], .faultClear, rfl, rfl, rfl⟩

theorem witness_StepRunsDecodedInstruction_register0 :
    ∃ (s : State) (v : HostVal) (w : BitVec 4) (rest : List HostAction) (i : Instr), s.activity = .idle ∧
      s.host = .regWrite 0 v :: rest ∧ hostValue v s = .ok w.toNat ∧ decodeOp w = .ok i ∧ v ≠ .lit w.toNat :=
  ⟨doing [.regWrite 0 (.reg 11)] { State.reset with rxIn := 0x0A }, .reg 11, 0xA, [], .faultClear, rfl, rfl, rfl, rfl,
    by decide⟩

theorem witness_StepRunsDecodedInstruction_stepped :
    ∃ a b c : State, (a.activity = .idle ∧ a.host = [.opWriteStepped 0x2] ∧ decodeOp 0x2 = .ok .exchange) ∧
      (b.activity = .idle ∧ b.host = [.opWriteStepped 0x7] ∧ decodeOp 0x7 = .ok .decompress) ∧
      (c.activity = .idle ∧ c.host = [.opWriteStepped 0xA] ∧ decodeOp 0xA = .ok .faultClear) :=
  ⟨doing [.opWriteStepped 0x2] State.reset, doing [.opWriteStepped 0x7] State.reset,
    doing [.opWriteStepped 0xA] State.reset, ⟨rfl, rfl, rfl⟩, ⟨rfl, rfl, rfl⟩, rfl, rfl, rfl⟩

theorem witness_StepRunsDecodedInstruction_frame :
    ∃ (s : State) (bytes : List Byte) (rest : List HostAction) (i : Instr),
      s.activity = .idle ∧ s.host = .send bytes :: rest ∧ decode .frame bytes = .ok (i, []) :=
  ⟨doing [.send [0x88, 0x33, 0x08, 0x00, 0x00, 0x00, 0x08, 0x00]] State.reset,
    [0x88, 0x33, 0x08, 0x00, 0x00, 0x00, 0x08, 0x00], [], .brk, rfl, rfl, by decide⟩

/-- The last run of the input, ending exactly at RLE_ILEN. -/
theorem witness_StepRunsDecodedInstruction_run :
    ∃ (s : State) (i : Instr) (more : List Byte) (len : Nat) (bytes : List Byte),
      s.activity = .decompressing ∧ s.rleIp.toNat < s.rleIlen.toNat ∧ s.rleIp.toNat + len = s.rleIlen.toNat ∧
      s.rli.readRange s.rleIp.toNat len = some bytes ∧ decode .run bytes = .ok (i, more) :=
  ⟨{ rleInput [0x00, 0x41, 0x81, 0x5A] with activity := .decompressing, rleIp := 2 }, .rep 1 0x5A, [], 2,
    [0x81, 0x5A], rfl, by decide, by decide, by decide, by decide⟩

theorem witness_TableWordRunsAsNextInstruction :
    ∃ (nbits w : Nat) (i : Instr), nbits ≤ 8 ∧ decodeTableWord nbits w = some i := ⟨8, 0x80, _, by decide, rfl⟩

theorem witness_IdleBlockWaits : ∃ s : State, s.activity = .idle ∧ s.host = [] := ⟨State.reset, rfl, rfl⟩

theorem witness_ReservedOpFaultsIllegalOp :
    ∃ (s : State) (w : BitVec 4) (rest : List HostAction),
      s.activity = .idle ∧ s.host = .opWrite w :: rest ∧ (w = 0x0 ∨ 0xB ≤ w) :=
  ⟨doing [.opWrite 0xF] State.reset, 0xF, [], rfl, rfl, .inr (by decide)⟩

theorem witness_DecodeOfEncodeIsInstruction : ∃ i : Instr, i.wf = true ∧ i.family = .run :=
  ⟨.lit (List.replicate 128 0xFF), test_wf_lit_longest_ff, rfl⟩

theorem witness_DecodedBytesEncodeBack :
    ∃ (f : Family) (bytes : List Byte) (i : Instr) (rest : List Byte), decode f bytes = .ok (i, rest) :=
  ⟨.run, [0x00, 0x41, 0x81], .lit [0x41], [0x81], by decide⟩

theorem witness_WireFramesAreByteExact : ∃ p : List Byte, p.length ≤ 65535 ∧ 65535 ≤ p.length :=
  ⟨List.replicate 65535 0xFF, by rw [List.length_replicate], by rw [List.length_replicate]⟩

theorem witness_FrameSumIgnoresPayloadOrder : ∃ p q : List Byte, List.Perm p q ∧ p ≠ q :=
  ⟨[1, 2], [2, 1], List.Perm.swap 2 1 [], by decide⟩

theorem witness_FirstFaultCodeIsKept : ∃ s t : State, step s = .next t ∧ s.fault ≠ 0 ∧ t.fault ≠ s.fault :=
  ⟨doing [.opWrite 0xA] { State.reset with fault := 0x05 }, _, rfl, by decide, by decide⟩

theorem witness_FaultRegisterGatesNoOperation : ∃ (i : Instr) (s t : State), exec i s = .next t ∧ s.fault ≠ 0 :=
  ⟨.addByte, { midPacket with fault := 0x05 }, _, rfl, by decide⟩

/-- Also of the NotReady clauses of `DecodeStatusNamesConditions` and `VerifyReportsComparison`. -/
theorem witness_OperationsWithoutInputAreNotReady :
    ∃ s : State, s.fvalid = false ∧ s.rvalid = false ∧ s.rxState ≠ .checksumDone ∧ s.rxState ≠ .responsePartial ∧
      s.rxState ≠ .complete ∧ s.rxState = .checksumPartial :=
  ⟨parser .checksumPartial 0x0001 [0x88, 0x33, 0x01, 0x00, 0x00, 0x00, 0x01] 0x00, by decide, by decide, by decide,
    by decide, by decide, rfl⟩

theorem witness_UnwrittenInputIsRefused_encode :
    ∃ (s : State) (k : Nat), s.txPlen.toNat ≤ 65535 ∧ k < s.txPlen.toNat ∧ s.txp.read k = none :=
  ⟨{ State.reset with txPlen := 65535 }, 65534, by decide, by decide, rfl⟩

/-- The first control byte has no value. -/
theorem witness_UnwrittenInputIsRefused_decompress :
    ∃ s : State, s.rli.readRange 0 0 = some [] ∧ RunUnwritten s 0 :=
  ⟨{ State.reset with rleIlen := 1 }, rfl, by decide, .inl rfl⟩

/-- After a REP, the last data byte of a LIT that ends exactly at RLE_ILEN has no value; the same run by run. -/
theorem witness_UnwrittenInputIsRefused_decompress_later :
    ∃ (s : State) (runs : List Instr), (∀ i ∈ runs, i.wf = true ∧ i.family = .run) ∧
      s.rli.readRange 0 (runs.flatMap encode).length = some (runs.flatMap encode) ∧ runs = [.rep 1 0x5A] ∧
      RunUnwritten s (runs.flatMap encode).length ∧
      (s.activity = .decompressing ∧ RunUnwritten s s.rleIp.toNat) :=
  ⟨{ rleInput [0x81, 0x5A, 0x01, 0x11] with rleIlen := 5, rleIp := 2, activity := .decompressing }, [.rep 1 0x5A],
    by decide, by decide, rfl, ⟨by decide, .inr ⟨0x01, 2, by decide, by decide, by decide, by decide⟩⟩, rfl,
    ⟨by decide, .inr ⟨0x01, 2, by decide, by decide, by decide, by decide⟩⟩⟩

/-- The last byte of the frame has no value. -/
theorem witness_UnwrittenInputIsRefused_exchange :
    ∃ (s : State) (k : Nat), s.fvalid = true ∧ k < s.txFlen.toNat ∧ s.txf.read k = none ∧ k = 8 ∧
      s.activity = .exchanging ∧ s.txIdx.toNat = k :=
  ⟨{ statusEncoded with txFlen := 9, txIdx := 8, activity := .exchanging }, 8, by decide, by decide, by decide, rfl, rfl,
    rfl⟩

theorem witness_UnwrittenInputIsRefused_addByte :
    ∃ a b c : State, (a.rxState = .headerPartial ∧ a.rxN = 5 ∧ a.rxb.read 4 = none) ∧
      (b.rxState = .headerDone ∧ b.rxN.toNat = 6 ∧ b.rxb.read 4 = none) ∧
      (c.rxState = .dataPartial ∧ c.rxN.toNat = 65544 ∧ c.rxb.read 5 = none) :=
  ⟨{ parser .headerPartial 0 [0x88, 0x33, 0x04, 0x00] 0x00 with rxN := 5 },
    { parser .headerDone 0 [0x88, 0x33, 0x04, 0x00] 0x00 with rxN := 6 },
    { parser .dataPartial 0 [0x88, 0x33, 0x04, 0x00, 0x01] 0x00 with rxN := 65544 }, by decide, by decide, by decide⟩

/-- The size is not there; the second check byte is not there. -/
theorem witness_UnwrittenInputIsRefused_verify :
    ∃ a b : State, (a.rxState = .complete ∧ a.rxb.read 5 = none) ∧
      (b.rxState = .checksumDone ∧ b.rxb.read 4 = some 0x01 ∧ b.rxb.read 5 = some 0x00 ∧ b.rxb.read (7 + 1) = none) :=
  ⟨parser .complete 0 [0x88, 0x33, 0x04, 0x00, 0x01] 0x00,
    parser .checksumDone 0 [0x88, 0x33, 0x04, 0x00, 0x01, 0x00, 0xAB, 0xB0] 0x00, by decide, by decide⟩

theorem witness_UnwrittenInputIsRefused_pack :
    ∃ (s : State) (y x : Nat), s.tileH.toNat % 8 = 0 ∧ s.tileH.toNat ≤ Config.hMax ∧ y < s.tileH.toNat ∧ x < 160 ∧
      pixelOf s y x = none :=
  ⟨{ State.reset with tileH := 16 }, 15, 159, by decide, hMax_bounds.2.1, by decide, by decide, rfl⟩

theorem witness_UnwrittenInputIsRefused_unpack :
    ∃ (s : State) (k : Nat), s.tileLen.toNat % 320 = 0 ∧ s.tileLen.toNat ≤ 40 * Config.hMax ∧ k < s.tileLen.toNat ∧
      s.til.read k = none :=
  ⟨{ State.reset with tileLen := 640 }, 639, by decide,
    Nat.le_trans (show 640 ≤ 40 * 16 by decide) (Nat.mul_le_mul_left 40 hMax_bounds.2.1), by decide, rfl⟩

theorem witness_EncodeBuildsFrame :
    ∃ (s : State) (p : List Byte), s.txPlen.toNat ≤ 65535 ∧ s.txp.readRange 0 s.txPlen.toNat = some p ∧ p ≠ [] :=
  ⟨{ State.reset with txPlen := 1, txp := [(0, 0xAA)] }, [0xAA], by decide, by decide, by decide⟩

theorem witness_EncodeTooLargeGivesNoFrame : ∃ s : State, 65535 < s.txPlen.toNat ∧ s.txPlen.toNat ≤ 65536 :=
  ⟨{ State.reset with txPlen := 65536 }, by decide, by decide⟩

theorem witness_EncodeLeavesTheRest : ∃ s t : State, exec .encode s = .next t ∧ t.result = some .ok :=
  ⟨initLoaded, _, rfl, rfl⟩

theorem witness_ExchangeTakesLastTwoReplies :
    ∃ (s : State) (frame rs : List Byte) (r0 r1 : Byte) (more : List LinkReply),
      s.fvalid = true ∧ s.txFlen.toNat ≤ 65543 ∧ s.txf.readRange 0 s.txFlen.toNat = some frame ∧
      rs.length = frame.length ∧ s.peer = rs.map LinkReply.reply ++ [.reply r0, .reply r1] ++ more :=
  ⟨{ statusEncoded with peer := replies [1, 2, 3, 4, 5, 6, 7, 8, 0x81, 0x00] },
    [0x88, 0x33, 0x0F, 0x00, 0x00, 0x00, 0x0F, 0x00], [1, 2, 3, 4, 5, 6, 7, 8], 0x81, 0x00, [], by decide, by decide,
    by decide, rfl, rfl⟩

/-- The last exchange, number F + 1, times out. -/
theorem witness_ExchangeTimeoutStopsAtItsIndex :
    ∃ (s : State) (frame rs : List Byte) (more : List LinkReply),
      s.fvalid = true ∧ s.txFlen.toNat ≤ 65543 ∧ s.txf.readRange 0 s.txFlen.toNat = some frame ∧
      rs.length < frame.length + 2 ∧ rs.length = frame.length + 1 ∧
      s.peer = rs.map LinkReply.reply ++ .timeout :: more :=
  ⟨{ statusEncoded with peer := replies [0, 0, 0, 0, 0, 0, 0, 0, 0x81] ++ [.timeout] },
    [0x88, 0x33, 0x0F, 0x00, 0x00, 0x00, 0x0F, 0x00], [0, 0, 0, 0, 0, 0, 0, 0, 0x81], [], by decide, by decide,
    by decide, by decide, rfl, rfl⟩

/-- Also of `ExchangeStepFormAgrees`. -/
theorem witness_ExchangeAlwaysEnds :
    ∃ (s : State) (frame : List Byte), s.activity = .idle ∧ s.fvalid = true ∧ s.txFlen.toNat ≤ 65543 ∧
      s.txf.readRange 0 s.txFlen.toNat = some frame :=
  ⟨statusEncoded, [0x88, 0x33, 0x0F, 0x00, 0x00, 0x00, 0x0F, 0x00], rfl, by decide, by decide, by decide⟩

theorem witness_ExchangeLeavesTheRest : ∃ s t : State, exec .exchange s = .next t ∧ t.result = some .ok :=
  ⟨{ statusEncoded with peer := replies [1, 2, 3, 4, 5, 6, 7, 8, 0x81, 0x00] }, _, rfl, rfl⟩

theorem witness_DecodeStatusNamesConditions :
    ∃ a b c : State, (a.rvalid = true ∧ a.resp0 ≠ 0x80 ∧ a.resp0 ≠ 0x81) ∧
      (b.rvalid = true ∧ b.resp0 = 0x80 ∧ b.resp1 = 0x00) ∧ (c.rvalid = true ∧ c.resp0 = 0x81 ∧ c.resp1 ≠ 0x00) :=
  ⟨statusPair 0x82 0x00, statusPair 0x80 0x00, statusPair 0x81 0x01, by decide, by decide, by decide⟩

theorem witness_AddByteHuntsForPreamble :
    ∃ a b : State, (a.rxState = .empty ∧ a.rxN = 0 ∧ a.rxIn = 0x88) ∧
      (b.rxState = .preamblePartial ∧ b.rxN = 1 ∧ b.rxIn = 0x33) :=
  ⟨parser .empty 0 [] 0x88, parser .preamblePartial 0 [0x88] 0x33, by decide, by decide⟩

theorem witness_AddByteHuntsForPreamble_other :
    ∃ a b : State, (a.rxState = .empty ∧ a.rxN = 0 ∧ a.rxIn ≠ 0x88) ∧
      (b.rxState = .preamblePartial ∧ b.rxN = 1 ∧ b.rxIn ≠ 0x33) :=
  ⟨parser .empty 0 [] 0x89, parser .preamblePartial 0 [0x88] 0x88, by decide, by decide⟩

theorem witness_AddByteTakesHeader :
    ∃ a b c d : State, (a.rxState = .preambleDone ∧ a.rxN = 2) ∧ (b.rxState = .headerPartial ∧ b.rxN = 3) ∧
      (c.rxState = .headerPartial ∧ c.rxN = 4) ∧
      (d.rxState = .headerPartial ∧ d.rxN = 5 ∧ d.rxb.read 4 = some 0x00 ∧ d.rxIn = 0x00) :=
  ⟨parser .preambleDone 0 [0x88, 0x33] 0x04, parser .headerPartial 4 [0x88, 0x33, 0x04] 0x00,
    parser .headerPartial 4 [0x88, 0x33, 0x04, 0x00] 0x00, parser .headerPartial 4 [0x88, 0x33, 0x04, 0x00, 0x00] 0x00,
    by decide, by decide, by decide, by decide⟩

/-- One data byte declared and due; then the last of two. -/
theorem witness_AddByteTakesData :
    ∃ a b : State, (a.rxb.read 4 = some 0x01 ∧ a.rxb.read 5 = some 0x00 ∧ a.rxState = .headerDone ∧ a.rxN = 6) ∧
      (b.rxb.read 4 = some 0x02 ∧ b.rxb.read 5 = some 0x00 ∧ b.rxState = .dataPartial ∧ b.rxN.toNat = 5 + 2) :=
  ⟨parser .headerDone 5 [0x88, 0x33, 0x04, 0x00, 0x01, 0x00] 0xAB,
    parser .dataPartial 0x8E [0x88, 0x33, 0x04, 0x00, 0x02, 0x00, 0x88] 0x33, by decide, by decide⟩

theorem witness_AddByteTakesCheckAndResponses :
    ∃ a b c d : State, (a.rxN.toNat < 65545 ∧ a.rxState = .dataDone) ∧ (b.rxN.toNat < 65545 ∧ b.rxState = .checksumPartial) ∧
      (c.rxN.toNat < 65545 ∧ c.rxState = .checksumDone) ∧ (d.rxN.toNat = 65544 ∧ d.rxState = .responsePartial) :=
  ⟨midPacket, { midPacket with rxState := .checksumPartial, rxN := 8 }, { midPacket with rxState := .checksumDone, rxN := 9 },
    { midPacket with rxState := .responsePartial, rxN := 65544 }, by decide, by decide, by decide, by decide⟩

theorem witness_AddByteInCompleteFaults : ∃ s : State, s.rxState = .complete :=
  ⟨parser .complete 0x000F [0x88, 0x33, 0x0F, 0x00, 0x00, 0x00, 0x0F, 0x00, 0x81, 0x00] 0x55, rfl⟩

/-- Also of `ViewsAreValidOnceStored`. -/
theorem witness_AddByteCompletesInEveryGoodState : ∃ s : State, ParserShape s ∧ s.rxState ≠ .complete :=
  ⟨midPacket, midPacket_parserShape, by decide⟩

theorem witness_VerifyReportsComparison :
    ∃ s : State, s.rxState = .checksumDone ∧ s.rxb.read 4 = some 0x02 ∧ s.rxb.read 5 = some 0x00 ∧
      s.rxb.read (6 + 2) = some 0x00 ∧ s.rxb.read (7 + 2) = some 0x00 :=
  ⟨parser .checksumDone 0x00C1 [0x88, 0x33, 0x04, 0x00, 0x02, 0x00, 0x88, 0x33, 0x00, 0x00] 0x00, by decide⟩

/-- The shortest packet and the longest. -/
theorem witness_WholePacketReachesComplete :
    (∃ (s : State) (p : List Byte) (lo hi : Byte), s.rxState = .empty ∧ s.rxN = 0 ∧ s.rxSum = 0 ∧
      lo.toNat + 256 * hi.toNat = p.length ∧ p.length = 0) ∧
    ∃ (s : State) (p : List Byte) (lo hi : Byte), s.rxState = .empty ∧ s.rxN = 0 ∧ s.rxSum = 0 ∧
      lo.toNat + 256 * hi.toNat = p.length ∧ p.length = 65535 :=
  ⟨⟨State.reset, [], 0, 0, rfl, rfl, rfl, rfl, rfl⟩,
    ⟨State.reset, List.replicate 65535 0xFF, 0xFF, 0xFF, rfl, rfl, rfl, by rw [List.length_replicate]; rfl,
      by rw [List.length_replicate]⟩⟩

theorem witness_EncodedFrameParsesAndVerifies :
    ∃ (s e q : State) (p frame : List Byte), s.txPlen.toNat ≤ 65535 ∧ s.txp.readRange 0 s.txPlen.toNat = some p ∧
      exec .encode s = .next e ∧ e.txf.readRange 0 e.txFlen.toNat = some frame ∧
      q.rxState = .empty ∧ q.rxN = 0 ∧ q.rxSum = 0 :=
  ⟨initLoaded, encodeFrame [] initLoaded, State.reset, [], [0x88, 0x33, 0x01, 0x00, 0x00, 0x00, 0x01, 0x00], by decide,
    by decide, rfl, by decide, rfl, rfl, rfl⟩

theorem witness_FeedActionsRunAsFeed :
    ∃ (bytes : List Byte) (s : State) (rest : List HostAction) (t : State), s.activity = .idle ∧
      s.host = Pseudo.actions (.feed bytes) ++ rest ∧ feed bytes { s with host := rest } = .next t ∧
      bytes.length = 1 :=
  ⟨[0x88], doing (Pseudo.actions (.feed [0x88])) State.reset, [], _, rfl, rfl, rfl, rfl⟩

/-- The value byte is the last input byte; it is past the end. -/
theorem witness_RepRunEmitsCopies :
    ∃ a b : State, (a.rleIp.toNat + 2 = a.rleIlen.toNat ∧ a.rleOcnt.toNat < 16777216 - 129) ∧
      b.rleIlen.toNat = b.rleIp.toNat + 1 :=
  ⟨rleInput [0x82, 0xAA], rleInput [0x82], by decide, by decide⟩

theorem witness_LitRunCopiesBytes :
    ∃ (a b : State) (bs : List Byte), (Instr.lit bs).wf = true ∧
      (a.rleIp.toNat + 1 + bs.length = a.rleIlen.toNat ∧ a.rleOcnt.toNat < 16777216 - 128) ∧
      b.rleIlen.toNat + 1 = b.rleIp.toNat + 1 + bs.length :=
  ⟨rleInput [0x02, 0x11, 0x22, 0x33], rleInput [0x02, 0x11, 0x22], [0x11, 0x22, 0x33], by decide, by decide, by decide⟩

/-- One input for each way to end; also of `DecompressStepFormAgrees`. -/
theorem witness_DecompressIsPureExpansion :
    ∃ a b c : State, (a.activity = .idle ∧ a.rli.readRange 0 a.rleIlen.toNat = some [0x81, 0x5A]) ∧
      (b.activity = .idle ∧ b.rli.readRange 0 b.rleIlen.toNat = some [0x02, 0xAA]) ∧
      (c.activity = .idle ∧
        c.rli.readRange 0 c.rleIlen.toNat = some [0xFF, 0, 0xFF, 0, 0xFF, 0, 0xFF, 0, 0xFA, 0]) :=
  ⟨rleInput [0x81, 0x5A], rleInput [0x02, 0xAA], rleInput [0xFF, 0, 0xFF, 0, 0xFF, 0, 0xFF, 0, 0xFA, 0], by decide,
    by decide, by decide⟩

theorem witness_StripInputHasTenTo1280Bytes :
    ∃ input out : List Byte, expand input = .ok out ∧ input.length = 10 := by
  refine ⟨[0xFF, 0, 0xFF, 0, 0xFF, 0, 0xFF, 0, 0xFA, 0], List.replicate 640 0x00, ?_, rfl⟩
  set_option maxRecDepth 16000 in decide

/-- One band; also of `UnpackOfPackRestoresMatrix`. -/
theorem witness_PackPlacesEveryPixel :
    ∃ s : State, s.tileH.toNat % 8 = 0 ∧ s.tileH.toNat ≤ Config.hMax ∧ s.tileH.toNat = 8 ∧
      ∀ y x, y < s.tileH.toNat → x < 160 → (pixelOf s y x).isSome := by
  refine ⟨blankMatrix, by decide, Nat.le_trans (show 8 ≤ 16 by decide) hMax_bounds.2.1, rfl, fun y x hy hx => ?_⟩
  have hy : y < 8 := hy
  simp only [pixelOf, blankMatrix, Memory.read_cellsFrom]
  rw [if_pos (by omega), List.getElem?_replicate, if_pos (by omega)]
  rfl

/-- One band; also of `PackOfUnpackRestoresTiles`. -/
theorem witness_UnpackReadsEveryPixel :
    ∃ s : State, s.tileLen.toNat % 320 = 0 ∧ s.tileLen.toNat ≤ 40 * Config.hMax ∧ s.tileLen.toNat = 320 ∧
      ∀ k, k < s.tileLen.toNat → (s.til.read k).isSome := by
  refine ⟨blankTiles, by decide, ?_, rfl, fun k hk => ?_⟩
  · exact Nat.le_trans (show 320 ≤ 40 * 16 by decide) (Nat.mul_le_mul_left 40 hMax_bounds.2.1)
  · have hk : k < 320 := hk
    simp only [blankTiles, Memory.read_cellsFrom]
    rw [if_pos (by omega), List.getElem?_replicate, if_pos (by omega)]
    rfl

/-- Each half of the two tests: TILE_H = 12 and TILE_H = H_MAX + 8 where that fits; TILE_LEN = 16. -/
theorem witness_IllegalTileSizesWriteNothing :
    (∃ s : State, s.tileH.toNat % 8 ≠ 0) ∧ (∃ s : State, Config.hMax < s.tileH.toNat) ∧
      (∃ s : State, s.tileLen.toNat % 320 ≠ 0) ∧ ∃ s : State, 40 * Config.hMax < s.tileLen.toNat := by
  have h := hMax_bounds.2.2
  refine ⟨⟨{ State.reset with tileH := 12 }, by decide⟩, ⟨{ State.reset with tileH := 65535 }, ?_⟩,
    ⟨{ State.reset with tileLen := 16 }, by decide⟩, ⟨{ State.reset with tileLen := 0xFFFFFF }, ?_⟩⟩
  · have : ({ State.reset with tileH := 65535 } : State).tileH.toNat = 65535 := rfl
    omega
  · have : ({ State.reset with tileLen := 0xFFFFFF } : State).tileLen.toNat = 16777215 := rfl
    omega

/-- Also of `WireCommandsAlwaysEnd`, with the first two hypotheses. -/
theorem witness_WireCommandsSendTheirFrame :
    ∃ (i : Instr) (s : State) (cmd comp : Byte) (payload rs : List Byte) (r0 r1 : Byte) (more : List LinkReply),
      wireFields i = some (cmd, comp, payload) ∧ i.wf = true ∧ rs.length = 8 + payload.length ∧
      s.peer = rs.map LinkReply.reply ++ [.reply r0, .reply r1] ++ more :=
  ⟨.print 0x01 0x0 0x4 0xE4 0x40, { State.reset with peer := replies [0, 0, 0, 0, 0, 0, 0, 0, 0, 0, 0, 0, 0x81, 0x02] },
    0x02, 0x00, [0x01, 0x04, 0xE4, 0x40], [0, 0, 0, 0, 0, 0, 0, 0, 0, 0, 0, 0], 0x81, 0x02, [], by decide, by decide, rfl,
    rfl⟩

/-- BREAK with a payload byte: no row of the table, an assigned id; also of `WireCommandsAlwaysEnd`. -/
theorem witness_WireCommandsSendTheirFrame_any_shape :
    ∃ (s : State) (cmd comp : Byte) (payload frame rs : List Byte) (r0 r1 : Byte) (more : List LinkReply)
      (rest : List HostAction), s.activity = .idle ∧ s.host = .send frame :: rest ∧ FrameOf frame cmd comp payload ∧
      cmd ∈ [0x01, 0x02, 0x04, 0x08, 0x0F] ∧ rs.length = 8 + payload.length ∧
      s.peer = rs.map LinkReply.reply ++ [.reply r0, .reply r1] ++ more ∧ payload ≠ [] :=
  ⟨doing [.send [0x88, 0x33, 0x08, 0x00, 0x01, 0x00, 0xAA, 0xB3, 0x00]]
      { State.reset with peer := replies [0, 0, 0, 0, 0, 0, 0, 0, 0, 0x81, 0x02] },
    0x08, 0x00, [0xAA], [0x88, 0x33, 0x08, 0x00, 0x01, 0x00, 0xAA, 0xB3, 0x00], [0, 0, 0, 0, 0, 0, 0, 0, 0], 0x81, 0x02, [], [],
    rfl, rfl, ⟨0x01, 0x00, 0xB3, 0x00, rfl, by decide, by decide⟩, by decide, rfl, rfl, by decide⟩

theorem witness_WireCommandsSendTheirFrame_unassigned :
    ∃ (s : State) (cmd comp : Byte) (payload frame : List Byte) (rest : List HostAction), s.activity = .idle ∧
      s.host = .send frame :: rest ∧ FrameOf frame cmd comp payload ∧ cmd ∉ [0x01, 0x02, 0x04, 0x08, 0x0F] :=
  ⟨doing [.send [0x88, 0x33, 0x10, 0x00, 0x00, 0x00, 0x10, 0x00]] State.reset, 0x10, 0x00, [],
    [0x88, 0x33, 0x10, 0x00, 0x00, 0x00, 0x10, 0x00], [], rfl, rfl, ⟨0x00, 0x00, 0x10, 0x00, rfl, by decide, by decide⟩,
    by decide⟩

theorem witness_InstructionsTouchOnlyTheirBuffers :
    ∃ (i : Instr) (s t : State) (b : BufName), exec i s = .next t ∧ b ∉ buffersWritten i :=
  ⟨.addByte, midPacket, _, .rlo, rfl, by decide⟩

/-- Also of `InstructionsLeaveHostRegisters`. -/
theorem witness_OnlyExchangeReachesLink : ∃ (i : Instr) (s t : State), exec i s = .next t ∧ usesLink i = false :=
  ⟨.addByte, midPacket, _, rfl, rfl⟩

theorem witness_HostWaitsDuringOperation : ∃ s t : State, s.activity ≠ .idle ∧ step s = .next t :=
  ⟨{ rleInput [0x81, 0x5A] with activity := .decompressing }, _, by decide, rfl⟩

theorem witness_HostReadsHaveNoSideEffect :
    ∃ (s t : State) (a : HostAction) (rest : List HostAction), s.activity = .idle ∧ s.host = a :: rest ∧
      a = .regRead 14 ∧ step s = .next t :=
  ⟨doing [.regRead 14] midPacket, _, .regRead 14, [], rfl, rfl, rfl, rfl⟩

/-- The largest number each kind of register holds. -/
theorem witness_WrittenRegisterReadsBack :
    ([(2, 255), (3, 255), (4, 131071), (11, 255), (16, 65535), (19, 65535), (20, 16777215)] : List (Nat × Nat)).all
      (fun p => decide (p.1 ∈ [2, 3, 4, 11, 16, 19, 20]) &&
        match regWidth p.1 with
        | some w => decide (p.2 < 2 ^ w)
        | none => false) = true := by decide

/-- The last byte of TXP and of RLI, the first of TIL. -/
theorem witness_WrittenBufferReadsBack :
    ∃ a b c : State, (a.activity = .idle ∧ a.host = [.bufWrite .txp 65534 [0xAA]] ∧ 65534 + 1 = BufName.size .txp) ∧
      (b.activity = .idle ∧ b.host = [.bufWrite .rli 65534 [0xAA]] ∧ 65534 + 1 = BufName.size .rli) ∧
      (c.activity = .idle ∧ c.host = [.bufWrite .til 0 [0xAA]] ∧ 0 + 1 ≤ BufName.size .til) := by
  refine ⟨doing [.bufWrite .txp 65534 [0xAA]] State.reset, doing [.bufWrite .rli 65534 [0xAA]] State.reset,
    doing [.bufWrite .til 0 [0xAA]] State.reset, ⟨rfl, rfl, rfl⟩, ⟨rfl, rfl, rfl⟩, rfl, rfl, ?_⟩
  have h := hMax_bounds.2.1
  show 0 + 1 ≤ 40 * Config.hMax
  omega

/-- The last pixel of the 16 rows that every H_MAX has. -/
theorem witness_WrittenBufferReadsBack_pixel :
    ∃ (s : State) (y x : Nat) (p : Pixel) (rest : List HostAction), s.activity = .idle ∧ y < Config.hMax ∧ x < 160 ∧
      s.host = .pixWrite y x p :: rest ∧ y = 15 ∧ x = 159 :=
  ⟨doing [.pixWrite 15 159 3] State.reset, 15, 159, 3, [], rfl, hMax_bounds.2.1, by decide, rfl, rfl, rfl⟩

/-- One buffer and one register of each kind the host may not write, and the first number that is no register. -/
theorem witness_OutputsAreReadOnlyToHost :
    ∃ (b : BufName) (n m : Nat), (b = .txf ∨ b = .rxb ∨ b = .rlo) ∧ n ∈ [1, 5, 6, 7, 8, 9, 10, 12, 13, 14, 15, 17, 18] ∧
      21 ≤ m := ⟨.rlo, 18, 21, by decide, by decide, by decide⟩

end Sys2Proof.Tests
end

/-! ## The state statements: what an instruction and a step can change -/

namespace Sys2Proof.Machine

/-! ### What each instruction can change (R41, R47)

One lemma for each meaning: the next state is the old one but for the fields of the instruction's own unit. -/

theorem encodeOp_changes {s t : State} (h : encodeOp s = .next t) :
    t = { s with
      txf := t.txf, txFlen := t.txFlen, txStat := t.txStat, txFlenKnown := t.txFlenKnown, freeN := t.freeN,
      fault := t.fault, result := t.result, activity := .idle } := by
  rcases encodeOp_cases s with ⟨-, he⟩ | ⟨-, p, -, he⟩ | ⟨-, -, he⟩ <;> rw [he] at h <;> cases h <;> rfl

theorem exchangeOp_changes {s t : State} (h : exchangeOp s = .next t) :
    t = { s with
      txIdx := t.txIdx, resp0 := t.resp0, resp1 := t.resp1, txStat := t.txStat, fault := t.fault, result := t.result,
      activity := .idle, peer := t.peer, linkN := t.linkN, sent := t.sent, freeN := t.freeN,
      respKnown := t.respKnown } := by
  rcases exchangeOp_cases s with ⟨-, he⟩ | ⟨-, frame, -, he⟩ | ⟨-, -, he⟩ <;> rw [he] at h <;> cases h
  · rfl
  · rw [exchangeBytes_frame]
    rfl

theorem execDecodeStatus_changes {s t : State} (h : execDecodeStatus s = .next t) :
    t = { s with cond := t.cond, fault := t.fault, result := t.result, activity := .idle } := by
  unfold execDecodeStatus at h
  split at h <;> cases h <;> rfl

theorem execAddByte_next {s t : State} (h : execAddByte s = .next t) : rxByte s.rxIn s = .next t := by
  unfold execAddByte at h
  split at h
  · exact h
  · cases h

theorem execAddByte_changes {s t : State} (h : execAddByte s = .next t) :
    t = { s with
      rxb := t.rxb, rxN := t.rxN, rxState := t.rxState, rxSum := t.rxSum, rxStat := t.rxStat, fault := t.fault,
      result := t.result, activity := .idle } := by
  rcases rxByte_next (execAddByte_next h) with ⟨-, -, e⟩ | ⟨-, -, e⟩ | ⟨-, e⟩ | ⟨q, e⟩ | ⟨q, e⟩ <;> rw [e] <;> rfl

theorem execVerify_changes {s t : State} (h : execVerify s = .next t) :
    t = { s with rxStat := t.rxStat, fault := t.fault, result := t.result, activity := .idle } := by
  rcases execVerify_cases s with ⟨-, he⟩ | ⟨-, chk, -, he⟩ | ⟨-, -, he⟩ <;> rw [he] at h <;> cases h <;> rfl

theorem execRxReset_changes {s t : State} (h : execRxReset s = .next t) : t = State.endOk (rxClear s) := by
  cases h
  rfl

theorem execPack_changes {s t : State} (h : execPack s = .next t) :
    t = { s with
      til := t.til, tileLen := t.tileLen, fault := t.fault, result := t.result, activity := .idle } := by
  rcases execPack_cases s with ⟨-, he⟩ | ⟨-, bytes, -, he⟩ | ⟨-, -, he⟩ <;> rw [he] at h <;> cases h <;> rfl

theorem execUnpack_changes {s t : State} (h : execUnpack s = .next t) :
    t = { s with pix := t.pix, tileH := t.tileH, fault := t.fault, result := t.result, activity := .idle } := by
  rcases execUnpack_cases s with ⟨-, he⟩ | ⟨-, px, -, he⟩ | ⟨-, -, he⟩ <;> rw [he] at h <;> cases h <;> rfl

theorem execFaultClear_changes {s t : State} (h : execFaultClear s = .next t) :
    t = State.endOk s.clearFault := by
  cases h
  rfl

/-- A run changes the output, the two counters and, where it was truncated, how DECOMPRESS ended. -/
theorem execRep_changes {n : BitVec 7} {v : Byte} {s t : State} (h : execRep n v s = .next t) :
    t = { s with
      rlo := t.rlo, rleIp := t.rleIp, rleOcnt := t.rleOcnt, fault := t.fault, result := t.result,
      activity := t.activity } := by
  rcases execRep_cases n v s with ⟨-, he⟩ | ⟨-, he⟩ <;> rw [he] at h <;> cases h <;> rfl

theorem execLit_changes {bs : List Byte} {s t : State} (h : execLit bs s = .next t) :
    t = { s with
      rlo := t.rlo, rleIp := t.rleIp, rleOcnt := t.rleOcnt, fault := t.fault, result := t.result,
      activity := t.activity } := by
  rcases execLit_cases bs s with ⟨-, he⟩ | ⟨-, he⟩ <;> rw [he] at h <;> cases h <;> rfl

/-- DECOMPRESS changes what its runs change. -/
theorem execDecompress_changes {s t : State} (h : execDecompress s = .next t) :
    t = { s with
      rlo := t.rlo, rleIp := t.rleIp, rleOcnt := t.rleOcnt, fault := t.fault, result := t.result,
      activity := .idle } := by
  rw [rleLoop_frame h]
  rfl

/-- A SEND that answers a next state had a payload TXP holds, and ran EXCHANGE on its frame (R101). -/
theorem sendFrame_next {cmd comp : Byte} {p : List Byte} {s t : State} (h : sendFrame cmd comp p s = .next t) :
    p.length ≤ 65535 ∧
    t = exchangeBytes (frameBytes cmd comp p) (exchangeStart (sendEncoded cmd comp p s)) := by
  by_cases hp : p.length ≤ 65535
  · rw [sendFrame_exchanges hp] at h
    cases h
    exact ⟨hp, rfl⟩
  · rw [sendFrame, if_neg (show ¬ p.length ≤ Config.lenMax from hp)] at h
    cases h

theorem sendFrame_changes {cmd comp : Byte} {p : List Byte} {s t : State} (h : sendFrame cmd comp p s = .next t) :
    t = { s with
      txCmd := t.txCmd, txComp := t.txComp, txPlen := t.txPlen, txp := t.txp, txf := t.txf, txFlen := t.txFlen,
      txStat := t.txStat, txFlenKnown := t.txFlenKnown, txIdx := t.txIdx, resp0 := t.resp0, resp1 := t.resp1,
      respKnown := t.respKnown, fault := t.fault, result := t.result, activity := .idle, peer := t.peer,
      linkN := t.linkN, sent := t.sent, freeN := t.freeN } := by
  rw [(sendFrame_next h).2, exchangeBytes_frame]
  rfl

/-- Executing a wire command is the SEND of its id, flag and payload (R80, R101; log 2). -/
theorem exec_wireFields {i : Instr} {cmd comp : Byte} {p : List Byte} (h : wireFields i = some (cmd, comp, p)) (s : State) :
    exec i s = sendFrame cmd comp p s := by
  cases i <;> cases h <;> rfl

theorem wireFields_isSome {i : Instr} (h : i.family = .frame) : (wireFields i).isSome := by
  cases i <;> first | rfl | cases h

theorem exec_wire_changes {i : Instr} {s t : State} (h : exec i s = .next t) (hi : i.family = .frame) :
    t = { s with
      txCmd := t.txCmd, txComp := t.txComp, txPlen := t.txPlen, txp := t.txp, txf := t.txf, txFlen := t.txFlen,
      txStat := t.txStat, txFlenKnown := t.txFlenKnown, txIdx := t.txIdx, resp0 := t.resp0, resp1 := t.resp1,
      respKnown := t.respKnown, fault := t.fault, result := t.result, activity := .idle, peer := t.peer,
      linkN := t.linkN, sent := t.sent, freeN := t.freeN } := by
  obtain ⟨⟨cmd, comp, p⟩, hw⟩ := Option.isSome_iff_exists.1 (wireFields_isSome hi)
  rw [exec_wireFields hw] at h
  exact sendFrame_changes h

/-! ### What a step can do (R34, R92, R157) -/

/-- What the host's next action does at a state when it runs no instruction: a reserved number faults (R225), a step form starts
(log 3), or the host writes, reads, routes a packet, sends a frame that is no row of the table, or rewrites its own list (R34,
R57, R101, R173). -/
inductive HostEffect (s t : State) : Prop
  | illegalOp (h : t = State.raise .illegalOp none s)
  | startExchange (h : t = exchangeBegin s)
  | startDecompress (h : t = rleBegin s)
  | register (n x : Nat) (h : writeRegister n x s = .next t)
  | bytes (b : BufName) (i : Nat) (bs : List Byte) (h : writeBytes b i bs s = .next t)
  | pixel (y x : Nat) (p : Pixel) (h : writePixel y x p s = .next t)
  | read (vs : List Nat) (h : t = { s with readback := vs })
  | route (h : routeData s = .next t)
  | send (cmd comp : Byte) (p : List Byte) (h : sendFrame cmd comp p s = .next t)
  | list (actions : List HostAction) (h : t = { s with host := actions })

theorem fetchOp_other {w : BitVec 4} {s t : State} (h : fetchOp w s = .other (.next t)) : HostEffect s t := by
  unfold fetchOp at h
  split at h <;> cases h
  exact .illegalOp rfl

theorem fetchOpStepped_other {w : BitVec 4} {s t : State} (h : fetchOpStepped w s = .other (.next t)) :
    HostEffect s t := by
  rcases fetchOpStepped_cases w s with ⟨-, he⟩ | ⟨-, he⟩ | ⟨-, -, he⟩ <;> rw [he] at h
  · cases h
    exact .startExchange rfl
  · cases h
    exact .startDecompress rfl
  · exact fetchOp_other h

theorem fetchRegWrite_other {n : Nat} {v : HostVal} {s t : State} (h : fetchRegWrite n v s = .other (.next t)) :
    HostEffect s t := by
  unfold fetchRegWrite at h
  split at h
  · cases h
  · split at h
    · split at h
      · exact fetchOp_other h
      · cases h
    · injection h with h
      exact .register _ _ h

theorem fetchSend_other {bytes : List Byte} {s t : State} (h : fetchSend bytes s = .other (.next t)) :
    HostEffect s t := by
  unfold fetchSend at h
  split at h
  · cases h
  · injection h with h
    rcases sendOther_cases bytes s with ⟨f, -, -, he⟩ | ⟨f, -, -, he⟩ | ⟨-, he⟩ <;> rw [he] at h
    · exact .send _ _ _ h
    · cases h
    · cases h

theorem writePixel_next {y x : Nat} {p : Pixel} {s t : State} (h : writePixel y x p s = .next t) :
    y < Config.hMax ∧ x < 160 ∧ t = { s with pix := s.pix.splice (pixelAt y x) [p] } := by
  unfold writePixel at h
  split at h
  · rename_i hp
    obtain ⟨hy, hx⟩ := pixelExists_iff.1 hp
    cases h
    exact ⟨hy, hx, rfl⟩
  · cases h

theorem copyBytes_next {src dst : BufName} {i j n : Nat} {s t : State} (h : copyBytes src i dst j n s = .next t) :
    ∃ bs, writeBytes dst j bs s = .next t := by
  unfold copyBytes at h
  split at h
  · exact ⟨_, h⟩
  · cases h

theorem returnRead_effect {r : Except Refusal (List Nat)} {s t : State} (h : returnRead r s = .next t) :
    HostEffect s t :=
  have ⟨vs, _, ht⟩ := returnRead_next h
  .read vs ht

/-- Every host action that runs no instruction has one of the effects. -/
theorem fetchAction_other {a : HostAction} {s t : State} (h : fetchAction a s = .other (.next t)) : HostEffect s t := by
  cases a with
  | opWrite w => exact fetchOp_other h
  | opWriteStepped w => exact fetchOpStepped_other h
  | regWrite n v => exact fetchRegWrite_other h
  | send frame => exact fetchSend_other h
  | regRead n => exact returnRead_effect (Fetched.other.inj h)
  | bufRead b i => exact returnRead_effect (Fetched.other.inj h)
  | pixRead y x => exact returnRead_effect (Fetched.other.inj h)
  | viewRead v => exact returnRead_effect (Fetched.other.inj h)
  | bufWrite b i bs => exact .bytes b i bs (Fetched.other.inj h)
  | pixWrite y x p => exact .pixel y x p (Fetched.other.inj h)
  | copy src i dst j n =>
    obtain ⟨bs, hw⟩ := copyBytes_next (Fetched.other.inj h)
    exact .bytes dst j bs hw
  | routeRxData => exact .route (Fetched.other.inj h)
  | waitPrinted =>
    cases h
    exact .list _ rfl
  | testPrinted =>
    cases h
    cases hp : s.printed with
    | true => exact .list s.host (testPrinted_printed hp)
    | false => exact .list _ (testPrinted_again hp)

/-- At an idle block a step without an instruction is a wait, or the next host action's effect. -/
theorem fetch_idle_other {s t : State} (ha : s.activity = .idle) (h : fetch s = .other (.next t)) :
    t = s ∨ ∃ rest, HostEffect { s with host := rest } t := by
  cases hh : s.host with
  | nil =>
    rw [fetch_idle ha hh] at h
    cases h
    exact .inl rfl
  | cons a rest =>
    rw [fetch_action ha hh] at h
    exact .inr ⟨rest, fetchAction_other h⟩

/-- Everything a step can do: run an instruction; at an idle block wait, or let the host act; inside EXCHANGE one `LinkXfer`;
inside DECOMPRESS the end. -/
theorem step_cases {s t : State} (h : step s = .next t) :
    (∃ i u, fetch s = .instr i u ∧ (u = s ∨ ∃ rest, u = { s with host := rest }) ∧ exec i u = .next t) ∨
    (s.activity = .idle ∧ (t = s ∨ ∃ rest, HostEffect { s with host := rest } t)) ∨
    (s.activity = .exchanging ∧ exchangeStep s = .next t) ∨
    (s.activity = .decompressing ∧ (t = rleFinish s ∨ t = rleTruncate s)) := by
  cases hf : fetch s with
  | instr i u => exact .inl ⟨i, u, rfl, fetch_instr hf, step_instr hf ▸ h⟩
  | other o =>
    right
    have ho : o = .next t := step_other hf ▸ h
    subst ho
    cases ha : s.activity with
    | idle => exact .inl ⟨rfl, ha ▸ fetch_idle_other ha hf⟩
    | exchanging =>
      rw [fetch_exchanging ha] at hf
      exact .inr (.inl ⟨rfl, Fetched.other.inj hf⟩)
    | decompressing =>
      rw [fetch_decompressing ha, fetchRunStep] at hf
      refine .inr (.inr ⟨rfl, ?_⟩)
      split at hf
      · cases hf
        exact .inl rfl
      · split at hf <;> cases hf
        exact .inr rfl

/-! ### One `LinkXfer` of EXCHANGE taken step by step (R92) -/

/-- The answer to a `LinkXfer`: none, or a reply. -/
theorem linkXfer_cases (b : Byte) (s : State) :
    linkXfer b s = (.timeout, (linkXfer b s).2) ∨ ∃ r, linkXfer b s = (.reply r, (linkXfer b s).2) := by
  cases h : (linkXfer b s).1 with
  | timeout => exact .inl (Prod.ext h rfl)
  | reply r => exact .inr ⟨r, Prod.ext h rfl⟩

/-- Everything one step of EXCHANGE can do: a byte without an answer, a byte of the frame, the first reply, the second one. -/
theorem exchangeStep_next {s t : State} (h : exchangeStep s = .next t) :
    (∃ b, t = afterTimeout b s) ∨
    (∃ b, s.txIdx.toNat < s.txFlen.toNat ∧ t = bumpIdx (linkXfer b s).2) ∨
    (∃ r, s.txIdx.toNat = s.txFlen.toNat ∧ t = { bumpIdx (linkXfer 0x00 s).2 with resp0 := r }) ∨
    (∃ r, s.txIdx.toNat = s.txFlen.toNat + 1 ∧ t = exchangeDone s.resp0 r (bumpIdx (linkXfer 0x00 s).2)) := by
  unfold exchangeStep at h
  split at h
  · rename_i hlt
    split at h
    · rename_i b hb
      injection h with h
      rw [exchangeFrameStep] at h
      rcases linkXfer_cases b s with hl | ⟨r, hl⟩ <;> rw [hl] at h
      · exact .inl ⟨b, h.symm⟩
      · exact .inr (.inl ⟨b, hlt, h.symm⟩)
    · cases h
  · split at h
    · rename_i heq
      injection h with h
      rw [exchangeFirstReply] at h
      rcases linkXfer_cases 0x00 s with hl | ⟨r, hl⟩ <;> rw [hl] at h
      · exact .inl ⟨0x00, h.symm⟩
      · exact .inr (.inr (.inl ⟨r, heq, h.symm⟩))
    · split at h
      · rename_i heq
        injection h with h
        rw [exchangeSecondReply] at h
        rcases linkXfer_cases 0x00 s with hl | ⟨r, hl⟩ <;> rw [hl] at h
        · exact .inl ⟨0x00, h.symm⟩
        · exact .inr (.inr (.inr ⟨r, heq, h.symm⟩))
      · cases h

/-- One step of EXCHANGE changes the TX unit's counters and replies and the link, and no buffer. -/
theorem exchangeStep_changes {s t : State} (h : exchangeStep s = .next t) :
    t = { s with
      txIdx := t.txIdx, resp0 := t.resp0, resp1 := t.resp1, txStat := t.txStat, fault := t.fault, result := t.result,
      activity := t.activity, peer := t.peer, linkN := t.linkN, sent := t.sent, freeN := t.freeN,
      respKnown := t.respKnown } := by
  rcases exchangeStep_next h with ⟨b, e⟩ | ⟨b, -, e⟩ | ⟨r, -, e⟩ | ⟨r, -, e⟩ <;> rw [e] <;> rfl

end Sys2Proof.Machine

/-! ## The parser's shape at every point (R35) -/

namespace Sys2Proof.Machine

/-! ### RX_STATE by position -/

/-- R35's table read the other way: where the parser stands, in terms of RX_N and the data size, in each of its states. -/
def RxState.At (n d : Nat) : RxState → Prop
  | .empty => n = 0
  | .preamblePartial => n = 1
  | .preambleDone => n = 2
  | .headerPartial => 3 ≤ n ∧ n < 6
  | .headerDone => n = 6 ∧ 0 < d
  | .dataPartial => 6 < n ∧ n < 6 + d
  | .dataDone => n = 6 + d
  | .checksumPartial => n = 7 + d
  | .checksumDone => n = 8 + d
  | .responsePartial => n = 9 + d
  | .complete => 10 + d ≤ n

theorem rxStateOf_at (n d : Nat) : (rxStateOf n d).At n d := by
  unfold rxStateOf
  split_ifs <;> simp only [RxState.At] <;> omega

/-- No two states stand at one position. -/
theorem RxState.At.unique {n d : Nat} {p q : RxState} (hp : p.At n d) (hq : q.At n d) : p = q := by
  cases p <;> cases q <;> first | rfl | (simp only [RxState.At] at hp hq; omega)

theorem rxStateOf_eq_iff {n d : Nat} {q : RxState} : rxStateOf n d = q ↔ q.At n d :=
  ⟨fun h => h ▸ rxStateOf_at n d, fun h => (rxStateOf_at n d).unique h⟩

theorem ParserShape.at {s : State} (h : ParserShape s) : s.rxState.At s.rxN.toNat (declaredSize s) :=
  rxStateOf_eq_iff.1 h.state.symm

theorem ParserShape.at_of {s : State} {q : RxState} (h : ParserShape s) (hq : s.rxState = q) :
    q.At s.rxN.toNat (declaredSize s) :=
  hq ▸ h.at

/-- Once the size bytes are stored, the declared size is theirs. -/
theorem ParserShape.dataSize {s : State} (h : ParserShape s) (hn : 6 ≤ s.rxN.toNat) :
    s.dataSize = some (declaredSize s) := by
  obtain ⟨lo, hlo⟩ := Option.isSome_iff_exists.1 (h.stored 4 (by omega))
  obtain ⟨hi, hhi⟩ := Option.isSome_iff_exists.1 (h.stored 5 (by omega))
  rw [declaredSize, dataSize_of_read hlo hhi, Option.getD_some]

/-- RX_N counts the next byte without wrapping. -/
theorem ParserShape.rxStore_rxN {s : State} (h : ParserShape s) (b : Byte) :
    (rxStore b s).rxN.toNat = s.rxN.toNat + 1 := by
  have hd := declaredSize_lt s
  have hc := h.capacity
  exact rxStore_rxN_toNat b (by omega)

/-! ### What ADD_BYTE does at each position (R121 to R131) -/

/-- ADD_BYTE's byte rule at a parser in shape, by RX_N: a preamble byte that is not the magic is ignored or resyncs, COMPLETE
faults, and every other byte is stored, summed from the header to the last data byte, with RX_STATE moved on as R35's table
says. -/
inductive ByteTaken (b : Byte) (s t : State) : Prop
  | ignored (ht : t = State.endOk s)
  | resync (ht : t = State.endOk (rxClear s))
  | full (ht : t = State.raise .alreadyComplete (some b.toNat) s)
  | stored (q : RxState) (hq : q.At (s.rxN.toNat + 1) (declaredSize (rxStore b s)))
      (hm0 : s.rxN.toNat = 0 → b = 0x88) (hm1 : s.rxN.toNat = 1 → b = 0x33)
      (hpos : s.rxN.toNat < 2 ∨ 6 + declaredSize s ≤ s.rxN.toNat)
      (hroom : 6 ≤ s.rxN.toNat → s.rxN.toNat < 10 + declaredSize s)
      (ht : t = State.endOk { rxStore b s with rxState := q })
  | summed (q : RxState) (hq : q.At (s.rxN.toNat + 1) (declaredSize (rxStore b s)))
      (hpos : 2 ≤ s.rxN.toNat) (hroom : 6 ≤ s.rxN.toNat → s.rxN.toNat < 6 + declaredSize s)
      (ht : t = State.endOk { rxStoreSum b s with rxState := q })

theorem rxStore_declaredSize (b : Byte) {s : State} (h : 6 ≤ s.rxN.toNat) :
    declaredSize (rxStore b s) = declaredSize s := by
  rw [declaredSize, rxStore_dataSize b h, declaredSize]

/-- A header byte (R124): the sixth one decides by the size it completes. -/
theorem ByteTaken.header {b : Byte} {s t : State} (h : ParserShape s) (hq : s.rxState = .headerPartial)
    (hb : rxByte b s = .next t) : ByteTaken b s t := by
  obtain ⟨hn3, hn6⟩ : 3 ≤ s.rxN.toNat ∧ s.rxN.toNat < 6 := h.at_of hq
  by_cases hn : s.rxN = 5
  · have h5 : s.rxN.toNat = 5 := by rw [hn]; rfl
    obtain ⟨lo, hlo⟩ := Option.isSome_iff_exists.1 (h.stored 4 (by omega))
    have hd : declaredSize (rxStore b s) = lo.toNat + 256 * b.toNat := by
      rw [declaredSize, dataSize_of_read (lo := lo) (hi := b), Option.getD_some]
      · rw [rxStore_read_ne b s (by omega), hlo]
      · rw [← h5, rxStore_read_self]
    rw [rxByte_header_last hq hn hlo] at hb
    cases hb
    refine .summed _ ?_ (by omega) (by omega) rfl
    rw [hd, h5]
    split
    · simp only [RxState.At]
      omega
    · exact ⟨rfl, by omega⟩
  · have h5 : s.rxN.toNat ≠ 5 := fun h5 => hn (BitVec.eq_of_toNat_eq h5)
    rw [rxByte_header hq hn] at hb
    cases hb
    exact .summed .headerPartial ⟨by omega, by omega⟩ (by omega) (by omega) rfl

/-- A data byte (R125, R126). -/
theorem ByteTaken.data {b : Byte} {s t : State} (h : ParserShape s)
    (hq : s.rxState = .headerDone ∨ s.rxState = .dataPartial) (hn : s.rxN.toNat < 65545)
    (hb : rxByte b s = .next t) : ByteTaken b s t := by
  have hpos : 6 ≤ s.rxN.toNat ∧ s.rxN.toNat < 6 + declaredSize s := by
    rcases hq with hq | hq
    · obtain ⟨hn6, hd⟩ : s.rxN.toNat = 6 ∧ 0 < declaredSize s := h.at_of hq
      omega
    · obtain ⟨hn6, hd⟩ : 6 < s.rxN.toNat ∧ s.rxN.toNat < 6 + declaredSize s := h.at_of hq
      omega
  rw [rxByte_data hq hpos.1 hn (h.dataSize hpos.1)] at hb
  cases hb
  refine .summed _ ?_ (by omega) (fun _ => hpos.2) rfl
  rw [rxStore_declaredSize b hpos.1]
  split <;> simp only [RxState.At] <;> omega

/-- A check or response byte (R127 to R130): it stands past the data and is stored without being summed. -/
theorem ByteTaken.of_tail {b : Byte} {s t : State} {q : RxState} (hb : rxByte b s = .next t)
    (he : rxByte b s = .next (State.endOk { rxStore b s with rxState := q }))
    (hn : 6 + declaredSize s ≤ s.rxN.toNat) (hroom : s.rxN.toNat < 10 + declaredSize s)
    (hq : q.At (s.rxN.toNat + 1) (declaredSize s)) : ByteTaken b s t := by
  rw [he] at hb
  cases hb
  exact .stored q (by rwa [rxStore_declaredSize b (by omega)]) (by omega) (by omega) (.inr hn) (fun _ => hroom) rfl

/-- Everything the byte rule does from a parser in shape. -/
theorem ParserShape.byteTaken {b : Byte} {s t : State} (h : ParserShape s)
    (hn : s.rxState = .complete ∨ s.rxN.toNat < 65545) (hb : rxByte b s = .next t) : ByteTaken b s t := by
  obtain ⟨hdone, hpartial, hcheck, hresp⟩ := @rxByte_tail b s
  cases hq : s.rxState with
  | empty =>
    have hp : s.rxN.toNat = 0 := h.at_of hq
    simp only [rxByte, hq] at hb
    split at hb <;> cases hb
    · rename_i h88
      exact .stored .preamblePartial (show s.rxN.toNat + 1 = 1 by omega) (fun _ => h88) (by omega) (.inl (by omega))
        (by omega) rfl
    · exact .ignored rfl
  | preamblePartial =>
    have hp : s.rxN.toNat = 1 := h.at_of hq
    simp only [rxByte, hq] at hb
    split at hb <;> cases hb
    · rename_i h33
      exact .stored .preambleDone (show s.rxN.toNat + 1 = 2 by omega) (by omega) (fun _ => h33) (.inl (by omega))
        (by omega) rfl
    · exact .resync rfl
  | preambleDone =>
    have hp : s.rxN.toNat = 2 := h.at_of hq
    rw [rxByte_preambleDone b hq] at hb
    cases hb
    exact .summed .headerPartial ⟨by omega, by omega⟩ (by omega) (by omega) rfl
  | headerPartial => exact .header h hq hb
  | headerDone => exact .data h (.inl hq) (hn.resolve_left (by rw [hq]; decide)) hb
  | dataPartial => exact .data h (.inr hq) (hn.resolve_left (by rw [hq]; decide)) hb
  | dataDone =>
    have hp : s.rxN.toNat = 6 + declaredSize s := h.at_of hq
    exact .of_tail hb (hdone hq) (by omega) (by omega) (show s.rxN.toNat + 1 = 7 + declaredSize s by omega)
  | checksumPartial =>
    have hp : s.rxN.toNat = 7 + declaredSize s := h.at_of hq
    exact .of_tail hb (hpartial hq) (by omega) (by omega) (show s.rxN.toNat + 1 = 8 + declaredSize s by omega)
  | checksumDone =>
    have hp : s.rxN.toNat = 8 + declaredSize s := h.at_of hq
    exact .of_tail hb (hcheck hq) (by omega) (by omega) (show s.rxN.toNat + 1 = 9 + declaredSize s by omega)
  | responsePartial =>
    have hp : s.rxN.toNat = 9 + declaredSize s := h.at_of hq
    exact .of_tail hb (hresp hq) (by omega) (by omega) (show 10 + declaredSize s ≤ s.rxN.toNat + 1 by omega)
  | complete =>
    simp only [rxByte, hq] at hb
    cases hb
    exact .full rfl

/-! ### ADD_BYTE keeps the shape -/

/-- The shape is a matter of RXB, RX_N and RX_STATE. -/
theorem ParserShape.congr {s t : State} (h : ParserShape s) (hb : t.rxb = s.rxb) (hn : t.rxN = s.rxN)
    (hq : t.rxState = s.rxState) : ParserShape t := by
  have hd : declaredSize t = declaredSize s := by
    rw [declaredSize, declaredSize, dataSize_congr (s := s) (by rw [hb]) (by rw [hb])]
  constructor
  · rw [hn, hb]; exact h.stored
  · rw [hn, hq, hd]; exact h.state
  · rw [hn, hd]; exact h.capacity
  · rw [hn, hb]; exact h.magic0
  · rw [hn, hb]; exact h.magic1

/-- The empty parser is in shape, whatever RXB holds. -/
theorem ParserShape.of_empty {s : State} (hn : s.rxN = 0) (hq : s.rxState = .empty) : ParserShape s := by
  have h0 : s.rxN.toNat = 0 := by rw [hn]; rfl
  refine ⟨?_, by rw [hq, h0]; rfl, ?_, ?_, ?_⟩ <;> intros <;> omega

/-- A stored byte keeps the shape if it is the magic where the preamble stands, there is room for it, and RX_STATE moves on as
R35's table says. -/
theorem ParserShape.store {b : Byte} {s t : State} (h : ParserShape s) (hb : t.rxb = (rxStore b s).rxb)
    (hn : t.rxN = (rxStore b s).rxN) (hq : t.rxState.At (s.rxN.toNat + 1) (declaredSize (rxStore b s)))
    (hm0 : s.rxN.toNat = 0 → b = 0x88) (hm1 : s.rxN.toNat = 1 → b = 0x33)
    (hroom : 6 ≤ s.rxN.toNat → s.rxN.toNat < 10 + declaredSize s) : ParserShape t := by
  have hn' : (rxStore b s).rxN.toNat = s.rxN.toNat + 1 := h.rxStore_rxN b
  suffices hs : ParserShape { rxStore b s with rxState := t.rxState } from hs.congr hb hn rfl
  constructor
  · show ∀ i, i < (rxStore b s).rxN.toNat → ((rxStore b s).rxb.read i).isSome
    intro i hi
    by_cases hin : i = s.rxN.toNat
    · rw [hin, rxStore_read_self]
      rfl
    · rw [rxStore_read_ne b s hin]
      exact h.stored i (by omega)
  · show t.rxState = rxStateOf (rxStore b s).rxN.toNat (declaredSize (rxStore b s))
    rw [hn', rxStateOf_eq_iff.2 hq]
  · show 6 ≤ (rxStore b s).rxN.toNat → (rxStore b s).rxN.toNat ≤ 10 + declaredSize (rxStore b s)
    intro h6
    by_cases hs : 6 ≤ s.rxN.toNat
    · have := hroom hs
      rw [rxStore_declaredSize b hs]
      omega
    · omega
  · show 1 ≤ (rxStore b s).rxN.toNat → (rxStore b s).rxb.read 0 = some 0x88
    intro _
    by_cases h0 : s.rxN.toNat = 0
    · rw [← hm0 h0, ← h0, rxStore_read_self]
    · rw [rxStore_read_ne b s (by omega), h.magic0 (by omega)]
  · show 2 ≤ (rxStore b s).rxN.toNat → (rxStore b s).rxb.read 1 = some 0x33
    intro _
    by_cases h1 : s.rxN.toNat = 1
    · rw [← hm1 h1, ← h1, rxStore_read_self]
    · rw [rxStore_read_ne b s (by omega), h.magic1 (by omega)]

theorem ByteTaken.keeps_shape {b : Byte} {s t : State} (hb : ByteTaken b s t) (h : ParserShape s) : ParserShape t := by
  cases hb with
  | ignored ht => exact ht ▸ h.congr rfl rfl rfl
  | resync ht => exact ht ▸ .of_empty rfl rfl
  | full ht => exact ht ▸ h.congr rfl rfl rfl
  | stored q hq hm0 hm1 _ hroom ht =>
    subst ht
    exact h.store rfl rfl hq hm0 hm1 hroom
  | summed q hq hpos hroom ht =>
    subst ht
    exact h.store rfl rfl hq (by omega) (by omega) fun h6 => by have := hroom h6; omega

/-- ADD_BYTE does what its byte rule does, by position. -/
theorem ParserShape.execAddByte {s t : State} (h : ParserShape s) (hs : execAddByte s = .next t) :
    ByteTaken s.rxIn s t := by
  refine h.byteTaken ?_ (execAddByte_next hs)
  unfold Machine.execAddByte at hs
  split at hs
  · assumption
  · cases hs

/-! ### Every other step leaves the parser alone -/

/-- What the RX unit holds (R22 to R27), RX_IN apart. -/
def rxPart (s : State) : Memory 8 × BitVec 17 × RxState × BitVec 16 × BitVec 2 :=
  (s.rxb, s.rxN, s.rxState, s.rxSum, s.rxStat)

theorem ParserShape.of_rxPart {s t : State} (h : ParserShape s) (e : rxPart t = rxPart s) : ParserShape t := by
  simp only [rxPart, Prod.mk.injEq] at e
  obtain ⟨hb, hn, hq, -, -⟩ := e
  exact h.congr hb hn hq

/-- Only the three instructions of the RX unit change what it holds (R41). -/
theorem exec_rxPart {i : Instr} {s t : State} (h : exec i s = .next t) (h1 : i ≠ .addByte) (h2 : i ≠ .verify)
    (h3 : i ≠ .rxReset) : rxPart t = rxPart s := by
  cases i with
  | addByte => exact absurd rfl h1
  | verify => exact absurd rfl h2
  | rxReset => exact absurd rfl h3
  | encode => rw [encodeOp_changes h]; rfl
  | exchange => rw [exchangeOp_changes h]; rfl
  | decodeStatus => rw [execDecodeStatus_changes h]; rfl
  | decompress => rw [execDecompress_changes h]; rfl
  | pack => rw [execPack_changes h]; rfl
  | unpack => rw [execUnpack_changes h]; rfl
  | faultClear => rw [execFaultClear_changes h]; rfl
  | init | print | data | brk | status => rw [exec_wire_changes h rfl]; rfl
  | rep => rw [execRep_changes h]; rfl
  | lit => rw [execLit_changes h]; rfl

/-- The host's actions do not reach the RX unit but by an instruction. -/
theorem HostEffect.rxPart {s t : State} (h : HostEffect s t) : rxPart t = rxPart s := by
  cases h with
  | illegalOp h => rw [h]; rfl
  | startExchange h =>
    rw [h, exchangeBegin]
    split <;> rfl
  | startDecompress h => rw [h]; rfl
  | register n x h =>
    rcases writeRegister_next h with ⟨-, e⟩ | ⟨-, e⟩ | ⟨-, e⟩ | ⟨-, e⟩ | ⟨-, e⟩ | ⟨-, e⟩ | ⟨-, e⟩ <;> rw [e] <;> rfl
  | bytes b i bs h => rcases (writeBytes_next h).2 with ⟨-, e⟩ | ⟨-, e⟩ | ⟨-, e⟩ <;> rw [e] <;> rfl
  | pixel y x p h =>
    obtain ⟨-, -, rfl⟩ := writePixel_next h
    rfl
  | read vs h => rw [h]; rfl
  | route h => rcases routeData_next h with ⟨bs, -, e⟩ | ⟨bs, -, e⟩ <;> rw [e] <;> rfl
  | send cmd comp p h => rw [sendFrame_changes h]; rfl
  | list actions h => rw [h]; rfl

theorem rleFinish_rxPart (s : State) : rxPart (rleFinish s) = rxPart s := by
  rcases rleFinish_cases s with ⟨-, e⟩ | ⟨-, m, e⟩ <;> rw [e] <;> rfl

theorem exec_keeps_parserShape {i : Instr} {s t : State} (h : ParserShape s) (he : exec i s = .next t) :
    ParserShape t := by
  by_cases h1 : i = .addByte
  · subst h1
    exact (h.execAddByte he).keeps_shape h
  by_cases h2 : i = .verify
  · subst h2
    rw [execVerify_changes he]
    exact h.congr rfl rfl rfl
  by_cases h3 : i = .rxReset
  · subst h3
    rw [execRxReset_changes he]
    exact .of_empty rfl rfl
  exact h.of_rxPart (exec_rxPart he h1 h2 h3)

/-- Settles O5: RX_STATE follows R35's table from reset on, because ADD_BYTE moves it as the table says, VERIFY leaves it,
RX_RESET empties it, and no other step touches the RX unit. -/
theorem parserShapeHoldsAtEveryPoint : Obligations.ParserShapeHoldsAtEveryPoint := by
  unfold Obligations.ParserShapeHoldsAtEveryPoint
  refine ⟨.of_empty rfl rfl, fun s t h hs => ?_⟩
  rcases step_cases hs with ⟨i, u, -, hu, he⟩ | ⟨-, rfl | ⟨rest, he⟩⟩ | ⟨-, he⟩ | ⟨-, rfl | rfl⟩
  · refine exec_keeps_parserShape ?_ he
    rcases hu with rfl | ⟨rest, rfl⟩
    · exact h
    · exact h.congr rfl rfl rfl
  · exact h
  · exact h.of_rxPart he.rxPart
  · rw [exchangeStep_changes he]
    exact h.congr rfl rfl rfl
  · exact h.of_rxPart (rleFinish_rxPart s)
  · exact h.congr rfl rfl rfl

end Sys2Proof.Machine

/-! ## The invariant `GoodState`, unit by unit -/

namespace Sys2Proof.Machine

/-! ### The invariant by unit

Each unit's part of `GoodState` depends on that unit's part of the state only, so an operation is judged on the parts it
writes. -/

/-- The buffers the host fills (R25, R34). -/
def inputPart (s : State) : Memory 8 × Memory 8 × Memory 8 × Memory 2 := (s.txp, s.rli, s.til, s.pix)

/-- What the TX unit's invariant speaks of (R17 to R20). -/
def txPart (s : State) : Memory 8 × BitVec 17 × BitVec 2 × BitVec 17 × Bool × Bool :=
  (s.txf, s.txFlen, s.txStat, s.txIdx, s.txFlenKnown, s.respKnown)

/-- What the RLE unit's invariant speaks of (R29). -/
def rlePart (s : State) : Memory 8 × BitVec 17 × BitVec 24 := (s.rlo, s.rleIp, s.rleOcnt)

structure InputsOk (s : State) : Prop where
  txp : s.txp.wf ∧ s.txp.below (BufName.size .txp)
  rli : s.rli.wf ∧ s.rli.below (BufName.size .rli)
  til : s.til.wf ∧ s.til.below (BufName.size .til)
  pix : s.pix.wf ∧ s.pix.below (BufName.size .pix)

structure TxOk (s : State) : Prop where
  txf : s.txf.wf ∧ s.txf.below (BufName.size .txf)
  shape : TxShape s

structure RxOk (s : State) : Prop where
  rxb : s.rxb.wf ∧ s.rxb.below (BufName.size .rxb)
  parser : ParserShape s
  sum : ParserSum s
  verify : VerifyStatus s

structure RleOk (s : State) : Prop where
  rlo : s.rlo.wf ∧ s.rlo.below (BufName.size .rlo)
  shape : RleShape s

/-- `GoodState` without the clause on the operation in progress. -/
structure UnitsOk (s : State) : Prop where
  fault : s.fault.toNat ≤ 9
  cond : CondShape s.cond
  inputs : InputsOk s
  tx : TxOk s
  rx : RxOk s
  rle : RleOk s

theorem goodState_iff {s : State} : GoodState s ↔ UnitsOk s ∧ ActivityShape s := by
  constructor
  · rintro ⟨⟨txp, txf, rxb, rli, rlo, til, pix⟩, fault, cond, parser, sum, verify, tx, rle, activity⟩
    exact ⟨⟨fault, cond, ⟨txp, rli, til, pix⟩, ⟨txf, tx⟩, ⟨rxb, parser, sum, verify⟩, ⟨rlo, rle⟩⟩, activity⟩
  · rintro ⟨⟨fault, cond, ⟨txp, rli, til, pix⟩, ⟨txf, tx⟩, ⟨rxb, parser, sum, verify⟩, ⟨rlo, rle⟩⟩, activity⟩
    exact ⟨⟨txp, txf, rxb, rli, rlo, til, pix⟩, fault, cond, parser, sum, verify, tx, rle, activity⟩

theorem GoodState.units {s : State} (h : GoodState s) : UnitsOk s := (goodState_iff.1 h).1

/-- An idle block has no operation in progress to speak of. -/
theorem UnitsOk.good_of_idle {s : State} (h : UnitsOk s) (ha : s.activity = .idle) : GoodState s :=
  goodState_iff.2 ⟨h, by rw [ha]; exact nofun, by rw [ha]; exact nofun⟩

section Parts
variable {s t : State}

theorem InputsOk.of_part (h : InputsOk s) (e : inputPart t = inputPart s) : InputsOk t := by
  simp only [inputPart, Prod.mk.injEq] at e
  obtain ⟨ep, ei, et, ex⟩ := e
  exact ⟨ep ▸ h.txp, ei ▸ h.rli, et ▸ h.til, ex ▸ h.pix⟩

theorem TxOk.of_part (h : TxOk s) (e : txPart t = txPart s) : TxOk t := by
  cases s
  cases t
  simp only [txPart, Prod.mk.injEq] at e
  obtain ⟨rfl, rfl, rfl, rfl, rfl, rfl⟩ := e
  exact ⟨h.txf, h.shape.frame, h.shape.flenKnown, h.shape.idx, h.shape.resp⟩

theorem RxOk.of_part (h : RxOk s) (e : rxPart t = rxPart s) : RxOk t := by
  refine ⟨?_, h.parser.of_rxPart e, ?_, ?_⟩ <;> cases s <;> cases t <;> simp only [rxPart, Prod.mk.injEq] at e <;>
    obtain ⟨rfl, rfl, rfl, rfl, rfl⟩ := e
  · exact h.rxb
  · exact h.sum
  · exact ⟨h.verify.valid, h.verify.invalid⟩

theorem RleOk.of_part (h : RleOk s) (e : rlePart t = rlePart s) : RleOk t := by
  simp only [rlePart, Prod.mk.injEq] at e
  obtain ⟨eo, ei, ec⟩ := e
  exact ⟨eo ▸ h.rlo, ⟨ei ▸ h.shape.ip, ei ▸ ec ▸ h.shape.count⟩⟩

end Parts

/-! ### How an operation ends -/

theorem OpFault.code_le (f : OpFault) : f.code.toNat ≤ 9 := by
  cases f <;> decide

/-- An operation that ends `ok` leaves a good state if the units are in order. -/
theorem UnitsOk.endOk {s : State} (h : UnitsOk s) : GoodState s.endOk :=
  UnitsOk.good_of_idle
    ⟨h.fault, h.cond, h.inputs.of_part rfl, h.tx.of_part rfl, h.rx.of_part rfl, h.rle.of_part rfl⟩ rfl

/-- An operation that faults leaves a good state if the units are in order. -/
theorem UnitsOk.raise {s : State} (h : UnitsOk s) (f : OpFault) (info : Option Nat) :
    GoodState (State.raise f info s) := by
  refine UnitsOk.good_of_idle
    ⟨?_, h.cond, h.inputs.of_part rfl, h.tx.of_part rfl, h.rx.of_part rfl, h.rle.of_part rfl⟩ rfl
  rw [raise_fault]
  split
  · exact f.code_le
  · exact h.fault

/-! ### The RX unit (R27, R35, R132) -/

/-- A byte beyond the summed ones leaves the sum's meaning alone. -/
theorem ParserSum.keep {s t : State} (h : ParserSum s) (hsum : t.rxSum = s.rxSum) (hn : summedBytes t = summedBytes s)
    (hr : ∀ k, k < summedBytes s → t.rxb.read (2 + k) = s.rxb.read (2 + k)) : ParserSum t := by
  obtain ⟨bs, hb, he⟩ := h
  exact ⟨bs, by rw [hn, Memory.readRange_congr hr, hb], hsum.trans he⟩

/-- A summed byte stands right behind the bytes summed so far. -/
theorem ParserSum.snoc {b : Byte} {s t : State} (h : ParserSum s) (hsum : t.rxSum = s.rxSum + b.setWidth 16)
    (hn : summedBytes t = summedBytes s + 1)
    (hr : ∀ k, k < summedBytes s → t.rxb.read (2 + k) = s.rxb.read (2 + k))
    (hb : t.rxb.read (2 + summedBytes s) = some b) : ParserSum t := by
  obtain ⟨bs, hbs, he⟩ := h
  refine ⟨bs ++ [b], ?_, ?_⟩
  · rw [hn]
    exact Memory.readRange_append (by rw [Memory.readRange_congr hr, hbs]) (by simp [Memory.readRange, hb])
  · rw [hsum, he, byteSum_append]
    apply BitVec.eq_of_toNat_eq
    have := b.isLt
    simp only [BitVec.toNat_add, BitVec.toNat_ofNat, BitVec.toNat_setWidth, byteSum_cons, byteSum_nil]
    omega

/-- The preamble, the check and the responses are not summed (R132). -/
theorem summedBytes_rxStore_unsummed {b : Byte} {s : State} (h : ParserShape s)
    (hp : s.rxN.toNat < 2 ∨ 6 + declaredSize s ≤ s.rxN.toNat) :
    summedBytes (rxStore b s) = summedBytes s ∧ 2 + summedBytes s ≤ max 2 s.rxN.toNat := by
  unfold summedBytes
  rw [h.rxStore_rxN b]
  rcases hp with hp | hp
  · rw [if_pos (by omega), if_pos (by omega)]
    omega
  · rw [if_neg (by omega), if_neg (by omega), rxStore_declaredSize b (by omega)]
    omega

/-- From the first header byte to the last data byte every byte is summed (R132). -/
theorem summedBytes_rxStore_summed {b : Byte} {s : State} (h : ParserShape s) (hp : 2 ≤ s.rxN.toNat)
    (hroom : 6 ≤ s.rxN.toNat → s.rxN.toNat < 6 + declaredSize s) :
    summedBytes (rxStore b s) = summedBytes s + 1 ∧ 2 + summedBytes s = s.rxN.toNat := by
  unfold summedBytes
  rw [h.rxStore_rxN b]
  by_cases h6 : s.rxN.toNat < 6
  · rw [if_pos h6]
    split <;> omega
  · have := hroom (by omega)
    rw [if_neg (by omega), if_neg h6, rxStore_declaredSize b (by omega)]
    omega

/-- The check bytes are in from RX_N = 8 + D on. -/
theorem RxState.At.checksumIn_iff {q : RxState} {n d : Nat} (h : q.At n d) : q.checksumIn = true ↔ 8 + d ≤ n := by
  cases q <;> simp only [RxState.At] at h <;> simp only [RxState.checksumIn, true_iff, reduceCtorEq, false_iff] <;> omega

/-- A byte stored past the check leaves the received check alone. -/
theorem ParserShape.receivedCheck_rxStore {b : Byte} {s : State} (h : ParserShape s)
    (hn : 6 ≤ s.rxN.toNat) (hp : 8 + declaredSize s ≤ s.rxN.toNat) :
    (rxStore b s).receivedCheck = s.receivedCheck := by
  unfold State.receivedCheck
  rw [rxStore_dataSize b hn, h.dataSize hn]
  simp only
  rw [rxStore_read_ne b s (by omega), rxStore_read_ne b s (by omega)]

/-- Before the check bytes are in, CVALID is 0, and storing a byte leaves it so. -/
theorem VerifyStatus.of_invalid {s t : State} (h : VerifyStatus s) (hs : s.rxState.checksumIn ≠ true)
    (ht : t.rxStat = s.rxStat) : VerifyStatus t := by
  have hc : s.cvalid = false := Bool.eq_false_iff.2 fun hc => hs (h.valid hc).1
  have hc' : t.cvalid = false := by rw [State.cvalid, ht]; exact hc
  have hk : t.cok = s.cok := by rw [State.cok, ht, State.cok]
  exact ⟨fun hv => absurd (hc'.symm.trans hv) (by decide), fun _ => hk.trans (h.invalid hc)⟩

theorem VerifyStatus.store {b : Byte} {s : State} {q : RxState} (h : VerifyStatus s) (hs : ParserShape s)
    (hq : q.At (s.rxN.toNat + 1) (declaredSize (rxStore b s))) :
    VerifyStatus (State.endOk { rxStore b s with rxState := q }) := by
  by_cases hc : s.rxState.checksumIn = true
  · have h8 := hs.at.checksumIn_iff.1 hc
    have h6 : 6 ≤ s.rxN.toNat := by omega
    refine ⟨fun hv => ⟨hq.checksumIn_iff.2 (by rw [rxStore_declaredSize b h6]; omega), ?_⟩, h.invalid⟩
    show s.cok = true ↔ (rxStore b s).receivedCheck = some s.rxSum
    rw [hs.receivedCheck_rxStore h6 h8]
    exact (h.valid hv).2
  · exact h.of_invalid hc rfl

theorem rxStore_rxb_ok {b : Byte} {s : State} (h : s.rxb.wf ∧ s.rxb.below (BufName.size .rxb))
    (hroom : 6 ≤ s.rxN.toNat → s.rxN.toNat < 10 + declaredSize s) :
    (rxStore b s).rxb.wf ∧ (rxStore b s).rxb.below (BufName.size .rxb) := by
  rw [rxStore_rxb]
  refine ⟨Memory.wf_splice h.1 _ _, Memory.below_splice h.2 ?_⟩
  have := declaredSize_lt s
  simp only [BufName.size, List.length_singleton]
  omega

/-- The cleared parser: nothing stored, nothing summed, nothing verified (R134). -/
theorem rxOk_rxClear (s : State) : RxOk (rxClear s) where
  rxb := ⟨Memory.wf_nil, Memory.below_nil _⟩
  parser := .of_empty rfl rfl
  sum := ⟨[], rfl, rfl⟩
  verify := ⟨fun h => by simp [State.cvalid] at h, fun _ => by simp [State.cok]⟩

/-- ADD_BYTE keeps the RX unit in order. -/
theorem ByteTaken.keeps_rxOk {b : Byte} {s t : State} (hb : ByteTaken b s t) (h : RxOk s) : RxOk t := by
  have hshape := hb.keeps_shape h.parser
  cases hb with
  | ignored ht => exact ht ▸ h.of_part rfl
  | resync ht => exact ht ▸ (rxOk_rxClear s).of_part rfl
  | full ht => exact ht ▸ h.of_part rfl
  | stored q hq _ _ hpos hroom ht =>
    subst ht
    obtain ⟨hn, hk⟩ := summedBytes_rxStore_unsummed (b := b) h.parser hpos
    refine ⟨rxStore_rxb_ok h.rxb hroom, hshape, h.sum.keep rfl hn fun k hk' => ?_,
      h.verify.store h.parser hq⟩
    exact rxStore_read_ne b s (by omega)
  | summed q hq hpos hroom ht =>
    subst ht
    obtain ⟨hn, hk⟩ := summedBytes_rxStore_summed (b := b) h.parser hpos hroom
    refine ⟨rxStore_rxb_ok h.rxb (by omega), hshape, h.sum.snoc rfl hn (fun k hk' => ?_) ?_,
      h.verify.of_invalid (fun hc => ?_) rfl⟩
    · exact rxStore_read_ne b s (by omega)
    · rw [hk]
      exact rxStore_read_self b s
    · have := h.parser.at.checksumIn_iff.1 hc
      omega

/-- VERIFY's report is the comparison (R27, R133). -/
theorem VerifyStatus.of_verify {s : State} {chk : BitVec 16} (hc : s.rxState.checksumIn = true)
    (hr : s.receivedCheck = some chk) : VerifyStatus { s with rxStat := verifyStat (chk == s.rxSum) } := by
  refine ⟨fun _ => ⟨hc, ?_⟩, fun hv => ?_⟩
  · show (verifyStat (chk == s.rxSum)).getLsbD 1 = true ↔ s.receivedCheck = some s.rxSum
    rw [verifyStat_bit1, hr, beq_iff_eq, Option.some.injEq]
  · change (verifyStat (chk == s.rxSum)).getLsbD 0 = false at hv
    rw [verifyStat_bit0] at hv
    cases hv

/-- An operation of the RX unit changes that unit's part only. -/
theorem UnitsOk.of_rx {s t : State} (h : UnitsOk s) (hr : RxOk t) (hf : t.fault.toNat ≤ 9) (hc : t.cond = s.cond)
    (hi : inputPart t = inputPart s) (ht : txPart t = txPart s) (hl : rlePart t = rlePart s) : UnitsOk t :=
  ⟨hf, hc ▸ h.cond, h.inputs.of_part hi, h.tx.of_part ht, hr, h.rle.of_part hl⟩

theorem ByteTaken.keeps_good {b : Byte} {s t : State} (hb : ByteTaken b s t) (h : UnitsOk s) : GoodState t := by
  have hr := hb.keeps_rxOk h.rx
  cases hb with
  | ignored ht => exact ht ▸ h.endOk
  | resync ht =>
    subst ht
    exact UnitsOk.good_of_idle (h.of_rx hr h.fault rfl rfl rfl rfl) rfl
  | full ht => exact ht ▸ h.raise _ _
  | stored q _ _ _ _ _ ht =>
    subst ht
    exact UnitsOk.good_of_idle (h.of_rx hr h.fault rfl rfl rfl rfl) rfl
  | summed q _ _ _ ht =>
    subst ht
    exact UnitsOk.good_of_idle (h.of_rx hr h.fault rfl rfl rfl rfl) rfl

theorem execAddByte_keeps_good {s t : State} (h : UnitsOk s) (hs : execAddByte s = .next t) : GoodState t :=
  (h.rx.parser.execAddByte hs).keeps_good h

theorem execVerify_keeps_good {s t : State} (h : UnitsOk s) (hs : execVerify s = .next t) : GoodState t := by
  rcases execVerify_cases s with ⟨-, he⟩ | ⟨hc, chk, hr, he⟩ | ⟨-, -, he⟩ <;> rw [he] at hs <;> cases hs
  · exact h.raise _ _
  · have hx : RxOk { s with rxStat := verifyStat (chk == s.rxSum) } :=
      ⟨h.rx.rxb, h.rx.parser.congr rfl rfl rfl, h.rx.sum, .of_verify hc hr⟩
    exact (h.of_rx hx h.fault rfl rfl rfl rfl).endOk

theorem execRxReset_keeps_good {s t : State} (h : UnitsOk s) (hs : execRxReset s = .next t) : GoodState t := by
  rw [execRxReset_changes hs]
  exact (h.of_rx (rxOk_rxClear s) h.fault rfl rfl rfl rfl).endOk

end Sys2Proof.Machine

/-! ## FAULT (R14, R216) and the end of DECOMPRESS's loop -/

namespace Sys2Proof.Machine

/-! ### The loop of DECOMPRESS, its induction packaged once -/

/-- What every run keeps holds where DECOMPRESS's loop ends (R150). -/
theorem rleLoop_invariant {P : State → Prop}
    (hrep : ∀ s n v, P s → s.rleIp.toNat + 2 ≤ s.rleIlen.toNat → P (repRun n v s))
    (hlit : ∀ s bs, P s → s.rleIp.toNat + 1 + bs.length ≤ s.rleIlen.toNat → P (litRun bs s))
    {fuel : Nat} {s t : State} (h : P s) (hl : rleLoop fuel s = .next t) :
    ∃ u, P u ∧ (t = rleFinish u ∨ t = rleTruncate u) := by
  induction fuel generalizing s with
  | zero => cases hl
  | succ fuel ih =>
    by_cases he : s.rleIlen.toNat ≤ s.rleIp.toNat
    · rw [rleLoop_end he] at hl
      cases hl
      exact ⟨s, h, .inl rfl⟩
    · have hlt := Nat.not_le.1 he
      rcases fetchRun_cases s with ⟨n, v, hf, hfit⟩ | ⟨bs, hf, -, -, hfit⟩ | hf | hf
      · rw [rleLoop_rep hlt hf] at hl
        exact ih (hrep s n v h hfit) hl
      · rw [rleLoop_lit hlt hf] at hl
        exact ih (hlit s bs h hfit) hl
      · rw [rleLoop_truncated hlt hf] at hl
        cases hl
        exact ⟨s, h, .inr rfl⟩
      · rw [rleLoop_unwritten hlt hf] at hl
        cases hl

/-! ### What happens to FAULT -/

/-- FAULT is as before, or it took a fault's code if it held none (R216). -/
def FaultStep (s t : State) : Prop := t.fault = s.fault ∨ ∃ f : OpFault, t.fault = latched s f.code

theorem FaultStep.same {s t : State} (h : t.fault = s.fault) : FaultStep s t := .inl h

theorem FaultStep.raised {s u : State} (f : OpFault) (info : Option Nat) (h : u.fault = s.fault) :
    FaultStep s (State.raise f info u) :=
  .inr ⟨f, by rw [raise_fault, latched, h]⟩

theorem FaultStep.kept {s t : State} (h : FaultStep s t) (hs : s.fault ≠ 0) : t.fault = s.fault := by
  rcases h with h | ⟨f, h⟩
  · exact h
  · rw [h, latched, if_neg hs]

theorem FaultStep.le {s t : State} (h : FaultStep s t) (hs : s.fault.toNat ≤ 9) : t.fault.toNat ≤ 9 := by
  rcases h with h | ⟨f, h⟩ <;> rw [h]
  · exact hs
  · rw [latched]
    split
    · exact f.code_le
    · exact hs

theorem FaultStep.of_eq {s u t : State} (h : FaultStep u t) (hu : u.fault = s.fault) : FaultStep s t := by
  unfold FaultStep latched at h ⊢
  rwa [hu] at h

theorem rleFinish_faultStep (s : State) : FaultStep s (rleFinish s) := by
  rcases rleFinish_cases s with ⟨-, e⟩ | ⟨-, m, e⟩ <;> rw [e]
  · exact .same rfl
  · exact .raised _ _ rfl

theorem rleTruncate_faultStep (s : State) : FaultStep s (rleTruncate s) := .raised _ _ rfl

theorem afterTimeout_faultStep (b : Byte) (s : State) : FaultStep s (afterTimeout b s) := .raised _ _ rfl

theorem exchangeBytes_faultStep (bs : List Byte) (s : State) : FaultStep s (exchangeBytes bs s) := by
  rcases exchangeBytes_cases bs s with ⟨r0, r1, e⟩ | ⟨k, b, -, -, e⟩ <;> rw [e]
  · exact .same rfl
  · exact (afterTimeout_faultStep b _).of_eq rfl

theorem exchangeStep_faultStep {s t : State} (h : exchangeStep s = .next t) : FaultStep s t := by
  rcases exchangeStep_next h with ⟨b, rfl⟩ | ⟨b, -, rfl⟩ | ⟨r, -, rfl⟩ | ⟨r, -, rfl⟩
  · exact afterTimeout_faultStep b s
  · exact .same rfl
  · exact .same rfl
  · exact .same rfl

theorem encodeOp_faultStep {s t : State} (h : encodeOp s = .next t) : FaultStep s t := by
  rcases encodeOp_cases s with ⟨-, he⟩ | ⟨-, p, -, he⟩ | ⟨-, -, he⟩ <;> rw [he] at h <;> cases h
  · exact .raised _ _ rfl
  · exact .same rfl

theorem exchangeOp_faultStep {s t : State} (h : exchangeOp s = .next t) : FaultStep s t := by
  rcases exchangeOp_cases s with ⟨-, he⟩ | ⟨-, frame, -, he⟩ | ⟨-, -, he⟩ <;> rw [he] at h <;> cases h
  · exact .raised _ _ rfl
  · exact (exchangeBytes_faultStep frame _).of_eq rfl

theorem sendFrame_faultStep {cmd comp : Byte} {p : List Byte} {s t : State} (h : sendFrame cmd comp p s = .next t) :
    FaultStep s t := by
  rw [(sendFrame_next h).2]
  exact (exchangeBytes_faultStep _ _).of_eq rfl

theorem execDecodeStatus_faultStep {s t : State} (h : execDecodeStatus s = .next t) : FaultStep s t := by
  unfold execDecodeStatus at h
  split at h <;> cases h
  · exact .same rfl
  · exact .raised _ _ rfl

theorem execAddByte_faultStep {s t : State} (h : execAddByte s = .next t) : FaultStep s t := by
  rcases rxByte_next (execAddByte_next h) with ⟨-, -, rfl⟩ | ⟨-, -, rfl⟩ | ⟨-, rfl⟩ | ⟨q, rfl⟩ | ⟨q, rfl⟩
  · exact .same rfl
  · exact .same rfl
  · exact .raised _ _ rfl
  · exact .same rfl
  · exact .same rfl

theorem execVerify_faultStep {s t : State} (h : execVerify s = .next t) : FaultStep s t := by
  rcases execVerify_cases s with ⟨-, he⟩ | ⟨-, chk, -, he⟩ | ⟨-, -, he⟩ <;> rw [he] at h <;> cases h
  · exact .raised _ _ rfl
  · exact .same rfl

theorem execDecompress_faultStep {s t : State} (h : execDecompress s = .next t) : FaultStep s t := by
  obtain ⟨u, hu, rfl | rfl⟩ := rleLoop_invariant (P := fun u => u.fault = s.fault) (s := rleStart s)
    (fun _ _ _ hu _ => hu) (fun _ _ hu _ => hu) rfl h
  · exact (rleFinish_faultStep u).of_eq hu
  · exact (rleTruncate_faultStep u).of_eq hu

theorem execPack_faultStep {s t : State} (h : execPack s = .next t) : FaultStep s t := by
  rcases execPack_cases s with ⟨-, he⟩ | ⟨-, bytes, -, he⟩ | ⟨-, -, he⟩ <;> rw [he] at h <;> cases h
  · exact .raised _ _ rfl
  · exact .same rfl

theorem execUnpack_faultStep {s t : State} (h : execUnpack s = .next t) : FaultStep s t := by
  rcases execUnpack_cases s with ⟨-, he⟩ | ⟨-, px, -, he⟩ | ⟨-, -, he⟩ <;> rw [he] at h <;> cases h
  · exact .raised _ _ rfl
  · exact .same rfl

theorem execRep_faultStep {n : BitVec 7} {v : Byte} {s t : State} (h : execRep n v s = .next t) : FaultStep s t := by
  rcases execRep_cases n v s with ⟨-, he⟩ | ⟨-, he⟩ <;> rw [he] at h <;> cases h
  · exact .same rfl
  · exact rleTruncate_faultStep s

theorem execLit_faultStep {bs : List Byte} {s t : State} (h : execLit bs s = .next t) : FaultStep s t := by
  rcases execLit_cases bs s with ⟨-, he⟩ | ⟨-, he⟩ <;> rw [he] at h <;> cases h
  · exact .same rfl
  · exact rleTruncate_faultStep s

theorem exec_wire_faultStep {i : Instr} {s t : State} (h : exec i s = .next t) (hi : i.family = .frame) :
    FaultStep s t := by
  obtain ⟨⟨cmd, comp, p⟩, hw⟩ := Option.isSome_iff_exists.1 (wireFields_isSome hi)
  rw [exec_wireFields hw] at h
  exact sendFrame_faultStep h

/-- Every instruction but FAULT_CLEAR leaves FAULT, or latches a code into it (R216, R233). -/
theorem exec_faultStep {i : Instr} {s t : State} (h : exec i s = .next t) (hi : i ≠ .faultClear) : FaultStep s t := by
  cases i with
  | encode => exact encodeOp_faultStep h
  | exchange => exact exchangeOp_faultStep h
  | decodeStatus => exact execDecodeStatus_faultStep h
  | addByte => exact execAddByte_faultStep h
  | verify => exact execVerify_faultStep h
  | rxReset => exact .same (by rw [execRxReset_changes h]; rfl)
  | decompress => exact execDecompress_faultStep h
  | pack => exact execPack_faultStep h
  | unpack => exact execUnpack_faultStep h
  | faultClear => exact absurd rfl hi
  | init | print | data | brk | status => exact exec_wire_faultStep h rfl
  | rep n v => exact execRep_faultStep h
  | lit bs => exact execLit_faultStep h

theorem exchangeBegin_faultStep (s : State) : FaultStep s (exchangeBegin s) := by
  unfold exchangeBegin
  split
  · exact .same rfl
  · exact .raised _ _ rfl

/-- The host writes FAULT by no action but an operation's (R11, R14). -/
theorem HostEffect.faultStep {s t : State} (h : HostEffect s t) : FaultStep s t := by
  cases h with
  | illegalOp h => exact h ▸ .raised _ _ rfl
  | startExchange h => exact h ▸ exchangeBegin_faultStep s
  | startDecompress h => exact h ▸ .same rfl
  | register n x h =>
    rcases writeRegister_next h with ⟨-, rfl⟩ | ⟨-, rfl⟩ | ⟨-, rfl⟩ | ⟨-, rfl⟩ | ⟨-, rfl⟩ | ⟨-, rfl⟩ | ⟨-, rfl⟩ <;>
      exact .same rfl
  | bytes b i bs h => rcases (writeBytes_next h).2 with ⟨-, rfl⟩ | ⟨-, rfl⟩ | ⟨-, rfl⟩ <;> exact .same rfl
  | pixel y x p h =>
    obtain ⟨-, -, rfl⟩ := writePixel_next h
    exact .same rfl
  | read vs h => exact h ▸ .same rfl
  | route h => rcases routeData_next h with ⟨bs, -, rfl⟩ | ⟨bs, -, rfl⟩ <;> exact .same rfl
  | send cmd comp p h => exact sendFrame_faultStep h
  | list actions h => exact h ▸ .same rfl

/-- A step leaves FAULT or latches a code into it, unless it runs FAULT_CLEAR. -/
theorem step_fault {s t : State} (h : step s = .next t) :
    FaultStep s t ∨ ∃ u, fetch s = .instr .faultClear u ∧ t.fault = 0 := by
  rcases step_cases h with ⟨i, u, hf, hu, he⟩ | ⟨-, rfl | ⟨rest, he⟩⟩ | ⟨-, he⟩ | ⟨-, rfl | rfl⟩
  · by_cases hi : i = .faultClear
    · subst hi
      exact .inr ⟨u, hf, by rw [execFaultClear_changes he]; rfl⟩
    · refine .inl ((exec_faultStep he hi).of_eq ?_)
      rcases hu with rfl | ⟨rest, rfl⟩ <;> rfl
  · exact .inl (.same rfl)
  · exact .inl (he.faultStep.of_eq rfl)
  · exact .inl (exchangeStep_faultStep he)
  · exact .inl (rleFinish_faultStep s)
  · exact .inl (rleTruncate_faultStep s)

/-- Settles O16: a step but FAULT_CLEAR's leaves FAULT or latches a code, and a nonzero FAULT takes no other code. -/
theorem firstFaultCodeIsKept : Obligations.FirstFaultCodeIsKept := by
  unfold Obligations.FirstFaultCodeIsKept
  intro s t h hs ht
  rcases step_fault h with hk | hc
  · exact absurd (hk.kept hs) ht
  · exact hc

end Sys2Proof.Machine

/-! ## Every step keeps `GoodState` -/

namespace Sys2Proof.Machine

/-! ### The TX unit (R17 to R19, R90 to R92) -/

/-- An operation of the TX unit changes that unit's part only. -/
theorem UnitsOk.of_tx {s t : State} (h : UnitsOk s) (hx : TxOk t) (hf : FaultStep s t) (hc : t.cond = s.cond)
    (hi : inputPart t = inputPart s) (hr : rxPart t = rxPart s) (hl : rlePart t = rlePart s) : UnitsOk t :=
  ⟨hf.le h.fault, hc ▸ h.cond, h.inputs.of_part hi, hx, h.rx.of_part hr, h.rle.of_part hl⟩

/-- Exchanges leave the frame and FVALID; TX_IDX and the status pair have to be in order again. -/
theorem TxOk.exchanged {s t : State} (h : TxOk s) (hf : t.txf = s.txf) (hl : t.txFlen = s.txFlen)
    (hk : t.txFlenKnown = s.txFlenKnown) (hv : t.fvalid = s.fvalid) (hi : t.txIdx.toNat ≤ 65545)
    (hr : t.rvalid = true → t.respKnown = true) : TxOk t :=
  ⟨hf ▸ h.txf, ⟨hv ▸ hl ▸ hf ▸ h.shape.frame, hv ▸ hk ▸ h.shape.flenKnown, hi, hr⟩⟩

/-- With FVALID, TX_FLEN is at most the longest frame (R12, R17). -/
theorem TxOk.txFlen_le {s : State} (h : TxOk s) (hv : s.fvalid = true) : s.txFlen.toNat ≤ 65543 := by
  obtain ⟨cmd, comp, p, hp, hl, -⟩ := h.shape.frame hv
  omega

theorem exchangeStart_rvalid (s : State) : (exchangeStart s).rvalid = false := withBit1_bit1 _ _

theorem exchangeStart_fvalid (s : State) : (exchangeStart s).fvalid = s.fvalid := withBit1_bit0 _ _

theorem exchangeDone_fvalid (r0 r1 : Byte) (s : State) : (exchangeDone r0 r1 s).fvalid = s.fvalid := withBit1_bit0 _ _

theorem UnitsOk.exchangeStart {s : State} (h : UnitsOk s) : UnitsOk (exchangeStart s) :=
  h.of_tx (h.tx.exchanged rfl rfl rfl (exchangeStart_fvalid s) (by simp) fun hv => by
    rw [exchangeStart_rvalid] at hv; cases hv) (.same rfl) rfl rfl rfl rfl

/-- Answered bytes move TX_IDX, which stays in range. -/
theorem UnitsOk.afterXfers {s : State} (h : UnitsOk s) {bs : List Byte} (hi : s.txIdx.toNat + bs.length ≤ 65545) :
    UnitsOk (afterXfers bs s) :=
  h.of_tx (h.tx.exchanged rfl rfl rfl rfl (by rw [afterXfers_txIdx (by omega)]; exact hi) h.tx.shape.resp)
    (.same rfl) rfl rfl rfl rfl

/-- A timeout ends EXCHANGE without a status pair (R219). -/
theorem UnitsOk.afterTimeout {s : State} (h : UnitsOk s) (hv : s.rvalid = false) (b : Byte) :
    GoodState (afterTimeout b s) := by
  have hr : (Machine.afterTimeout b s).rvalid = false := hv
  refine UnitsOk.good_of_idle (h.of_tx (h.tx.exchanged rfl rfl rfl rfl h.tx.shape.idx fun ht => ?_)
    (afterTimeout_faultStep b s) rfl rfl rfl rfl) rfl
  rw [hr] at ht
  cases ht

/-- The status pair is specified where it becomes valid (R91). -/
theorem UnitsOk.exchangeDone {s : State} (h : UnitsOk s) (r0 r1 : Byte) : GoodState (exchangeDone r0 r1 s) :=
  UnitsOk.good_of_idle (h.of_tx (h.tx.exchanged rfl rfl rfl (exchangeDone_fvalid r0 r1 s) h.tx.shape.idx fun _ => rfl)
    (.same rfl) rfl rfl rfl rfl) rfl

/-- EXCHANGE of a frame that is no longer than the longest one leaves a good state, whatever the link answers. -/
theorem UnitsOk.exchangeBytes {s : State} (h : UnitsOk s) {bs : List Byte} (hl : bs.length ≤ 65543) :
    GoodState (exchangeBytes bs (Machine.exchangeStart s)) := by
  have h0 := h.exchangeStart
  have hz : (Machine.exchangeStart s).txIdx.toNat = 0 := rfl
  rcases exchangeBytes_cases bs (Machine.exchangeStart s) with ⟨r0, r1, e⟩ | ⟨k, b, hk, -, e⟩ <;> rw [e]
  · exact (h0.afterXfers (by rw [hz]; simp; omega)).exchangeDone r0 r1
  · exact (h0.afterXfers (by rw [hz]; simp; omega)).afterTimeout (exchangeStart_rvalid s) b

theorem exchangeOp_keeps_good {s t : State} (h : UnitsOk s) (hs : exchangeOp s = .next t) : GoodState t := by
  rcases exchangeOp_cases s with ⟨-, he⟩ | ⟨hv, frame, hr, he⟩ | ⟨-, -, he⟩ <;> rw [he] at hs <;> cases hs
  · exact h.raise _ _
  · refine h.exchangeBytes ?_
    rw [Memory.readRange_length hr]
    exact h.tx.txFlen_le hv

/-- TXF after ENCODE is a frame inside TXF (R90). -/
theorem UnitsOk.encodeFrame {s : State} (h : UnitsOk s) {p : List Byte} (hl : s.txPlen.toNat ≤ 65535)
    (hp : p.length = s.txPlen.toNat) : GoodState (encodeFrame p s) := by
  have hflen := encodeFrame_txFlen (p := p) hl
  refine UnitsOk.good_of_idle (h.of_tx ⟨?_, fun _ => ?_, fun _ => rfl, h.tx.shape.idx, ?_⟩ (.same rfl) rfl rfl rfl rfl) rfl
  · refine ⟨Memory.wf_splice h.tx.txf.1 _ _, Memory.below_splice h.tx.txf.2 ?_⟩
    rw [frameBytes_length]
    simp only [BufName.size]
    omega
  · refine ⟨s.txCmd, s.txComp, p, by omega, by rw [hflen, hp], ?_⟩
    rw [hflen, ← hp]
    exact encodeFrame_txf p s
  · rw [encodeFrame_rvalid]
    exact h.tx.shape.resp

theorem encodeOp_keeps_good {s t : State} (h : UnitsOk s) (hs : encodeOp s = .next t) : GoodState t := by
  have hf := encodeOp_faultStep hs
  rcases encodeOp_cases s with ⟨-, he⟩ | ⟨hl, p, hp, he⟩ | ⟨-, -, he⟩ <;> rw [he] at hs <;> cases hs
  · have hv := encodeTooLarge_fvalid s
    refine UnitsOk.good_of_idle (h.of_tx ⟨⟨Memory.wf_nil, Memory.below_nil _⟩, ?_, ?_, h.tx.shape.idx, ?_⟩ hf
      rfl rfl rfl rfl) rfl
    · rw [hv]
      exact nofun
    · rw [hv]
      exact nofun
    · exact fun hr => h.tx.shape.resp (by rwa [State.rvalid, encodeTooLarge, raise_txStat, withBit0_bit1] at hr)
  · exact h.encodeFrame hl (Memory.readRange_length hp)

theorem UnitsOk.of_inputs {s t : State} (h : UnitsOk s) (hi : InputsOk t) (hf : t.fault = s.fault) (hc : t.cond = s.cond)
    (ht : txPart t = txPart s) (hr : rxPart t = rxPart s) (hl : rlePart t = rlePart s) : UnitsOk t :=
  ⟨hf ▸ h.fault, hc ▸ h.cond, hi, h.tx.of_part ht, h.rx.of_part hr, h.rle.of_part hl⟩

/-- A buffer spliced inside its size stays in order (R48). -/
theorem splice_ok {n size i : Nat} {m : Memory n} {vs : List (BitVec n)} (h : m.wf ∧ m.below size)
    (hi : i + vs.length ≤ size) : (m.splice i vs).wf ∧ (m.splice i vs).below size :=
  ⟨Memory.wf_splice h.1 _ _, Memory.below_splice h.2 hi⟩

theorem UnitsOk.loadTx {s : State} (h : UnitsOk s) {cmd comp : Byte} {p : List Byte} (hp : p.length ≤ 65535) :
    UnitsOk (loadTx cmd comp p s) :=
  h.of_inputs ⟨splice_ok h.inputs.txp (by simpa [BufName.size] using hp), h.inputs.rli, h.inputs.til, h.inputs.pix⟩
    rfl rfl rfl rfl rfl

theorem sendFrame_keeps_good {cmd comp : Byte} {p : List Byte} {s t : State} (h : UnitsOk s)
    (hs : sendFrame cmd comp p s = .next t) : GoodState t := by
  obtain ⟨hp, rfl⟩ := sendFrame_next hs
  have hl : (Machine.loadTx cmd comp p s).txPlen.toNat = p.length := loadTx_txPlen_toNat hp
  have he : GoodState (sendEncoded cmd comp p s) := (h.loadTx hp).encodeFrame (by omega) hl.symm
  exact he.units.exchangeBytes (by rw [frameBytes_length]; omega)

/-- DECODE_STATUS gives COND one of its three shapes (R21, R94). -/
theorem condShape_condOf (keepalive flags : Byte) : CondShape (condOf keepalive flags) := by
  cases hk : keepaliveLive keepalive with
  | false => exact .inr (.inl (condOf_notLive flags hk))
  | true =>
    by_cases hf : flags = 0x00
    · subst hf
      exact .inr (.inr (.inl (condOf_ok hk)))
    · rw [condOf_flags hk hf]
      have hlt := flags.isLt
      have h0 : flags.toNat ≠ 0 := fun h0 => hf (BitVec.eq_of_toNat_eq h0)
      refine .inr (.inr (.inr ?_))
      rw [BitVec.toNat_setWidth, Nat.mod_eq_of_lt (by omega)]
      exact ⟨hlt, h0⟩

theorem execDecodeStatus_keeps_good {s t : State} (h : UnitsOk s) (hs : execDecodeStatus s = .next t) : GoodState t := by
  unfold execDecodeStatus at hs
  split at hs <;> cases hs
  · have hc : UnitsOk { s with cond := condOf s.resp0 s.resp1 } :=
      ⟨h.fault, condShape_condOf _ _, h.inputs.of_part rfl, h.tx.of_part rfl, h.rx.of_part rfl, h.rle.of_part rfl⟩
    exact hc.endOk
  · exact h.raise _ _

end Sys2Proof.Machine

namespace Sys2Proof.Machine

/-! ### The RLE unit (R12, R29, R150 to R157) -/

theorem UnitsOk.of_rle {s t : State} (h : UnitsOk s) (hl : RleOk t) (hf : t.fault = s.fault) (hc : t.cond = s.cond)
    (hi : inputPart t = inputPart s) (ht : txPart t = txPart s) (hr : rxPart t = rxPart s) : UnitsOk t :=
  ⟨hf ▸ h.fault, hc ▸ h.cond, h.inputs.of_part hi, h.tx.of_part ht, h.rx.of_part hr, hl⟩

/-- Every byte counted so far stands in RLO, as far as RLO reaches (R155). -/
def OutputThere (s : State) : Prop := ∀ i, i < min s.rleOcnt.toNat 640 → (s.rlo.read i).isSome

section Run
variable {s : State} {bs : List Byte} {len : Nat}

/-- RLE_OCNT never wraps: the input is too short for it (R29, R156). -/
theorem RleOk.emit_rleOcnt (h : RleOk s) (hb : bs.length ≤ 129 * 65535) :
    (emit bs s).rleOcnt.toNat = s.rleOcnt.toNat + bs.length := by
  have hi := h.shape.ip
  have hc := h.shape.count
  exact emit_rleOcnt_toNat (by omega)

/-- A run inside the input that emits at most 129 bytes for two of input keeps the RLE unit in order (R156). -/
theorem RleOk.run (h : RleOk s) (hb : 2 * bs.length ≤ 129 * len) (hfit : s.rleIp.toNat + len ≤ s.rleIlen.toNat) :
    RleOk (advanceIp len (emit bs s)) := by
  have hil := s.rleIlen.isLt
  have hip : (advanceIp len (emit bs s)).rleIp.toNat = s.rleIp.toNat + len :=
    advanceIp_rleIp_toNat (by rw [emit_rleIp]; omega)
  have hoc : (advanceIp len (emit bs s)).rleOcnt.toNat = s.rleOcnt.toNat + bs.length := h.emit_rleOcnt (by omega)
  have hc := h.shape.count
  exact ⟨emit_rlo_ok h.rlo.1 h.rlo.2, ⟨by omega, by omega⟩⟩

theorem OutputThere.run (h : OutputThere s) (hs : RleOk s) (hb : bs.length ≤ 129 * 65535) :
    OutputThere (advanceIp len (emit bs s)) := by
  show ∀ i, i < min (emit bs s).rleOcnt.toNat 640 → ((emit bs s).rlo.read i).isSome
  rw [hs.emit_rleOcnt hb]
  intro i hi
  by_cases hold : i < s.rleOcnt.toNat
  · rw [emit_read_outside (.inl hold)]
    exact h i (by omega)
  · have hk : i - s.rleOcnt.toNat < bs.length := by omega
    have := emit_read_inside (s := s) hk (by omega)
    rw [show s.rleOcnt.toNat + (i - s.rleOcnt.toNat) = i by omega, List.getElem?_eq_getElem hk] at this
    rw [this]
    rfl

theorem UnitsOk.run (h : UnitsOk s) (hb : 2 * bs.length ≤ 129 * len)
    (hfit : s.rleIp.toNat + len ≤ s.rleIlen.toNat) : UnitsOk (advanceIp len (emit bs s)) :=
  h.of_rle (h.rle.run hb hfit) rfl rfl rfl rfl rfl

/-- A run of the stream keeps a good state good, and DECOMPRESS in progress. -/
theorem GoodState.run (h : GoodState s) (hb : 2 * bs.length ≤ 129 * len)
    (hfit : s.rleIp.toNat + len ≤ s.rleIlen.toNat) : GoodState (advanceIp len (emit bs s)) := by
  have hil := s.rleIlen.isLt
  refine goodState_iff.2 ⟨h.units.run hb hfit, h.activity.exchanging, fun ha => ⟨?_, ?_⟩⟩
  · rw [advanceIp_rleIp_toNat (by rw [emit_rleIp]; omega)]
    exact hfit
  · have hout : OutputThere s := (h.activity.decompressing ha).2
    exact hout.run h.units.rle (by omega)

end Run

/-- A REP emits at most 129 bytes for its two, a LIT at most two for each of its own (R151, R152, R156). -/
theorem repCount_le (n : BitVec 7) : repCount n ≤ 129 := by
  have := n.isLt
  unfold repCount
  omega

theorem UnitsOk.clearRlo {s : State} (h : UnitsOk s) : UnitsOk { s with rlo := [] } :=
  h.of_rle ⟨⟨Memory.wf_nil, Memory.below_nil _⟩, h.rle.shape.ip, h.rle.shape.count⟩ rfl rfl rfl rfl rfl

theorem UnitsOk.rleFinish {s : State} (h : UnitsOk s) : GoodState (rleFinish s) := by
  unfold Machine.rleFinish
  split
  · exact h.endOk
  · exact h.clearRlo.raise _ _

theorem UnitsOk.rleTruncate {s : State} (h : UnitsOk s) : GoodState (rleTruncate s) := h.clearRlo.raise _ _

theorem UnitsOk.rleStart {s : State} (h : UnitsOk s) : UnitsOk (rleStart s) :=
  h.of_rle ⟨h.rle.rlo, ⟨Nat.zero_le _, Nat.zero_le _⟩⟩ rfl rfl rfl rfl rfl

theorem execDecompress_keeps_good {s t : State} (h : UnitsOk s) (hs : execDecompress s = .next t) : GoodState t := by
  have hrep : ∀ s n v, UnitsOk s → s.rleIp.toNat + 2 ≤ s.rleIlen.toNat → UnitsOk (repRun n v s) := fun s n v hu hfit =>
    hu.run (by have := repCount_le n; rw [List.length_replicate]; omega) hfit
  have hlit : ∀ s bs, UnitsOk s → s.rleIp.toNat + 1 + bs.length ≤ s.rleIlen.toNat → UnitsOk (litRun bs s) :=
    fun s bs hu hfit => hu.run (by omega) (by omega)
  obtain ⟨u, hu, rfl | rfl⟩ := rleLoop_invariant hrep hlit h.rleStart hs
  · exact hu.rleFinish
  · exact hu.rleTruncate

theorem execRep_keeps_good {n : BitVec 7} {v : Byte} {s t : State} (h : GoodState s) (hs : execRep n v s = .next t) :
    GoodState t := by
  rcases execRep_cases n v s with ⟨hfit, he⟩ | ⟨-, he⟩ <;> rw [he] at hs <;> cases hs
  · exact h.run (by have := repCount_le n; rw [List.length_replicate]; omega) hfit
  · exact h.units.rleTruncate

theorem execLit_keeps_good {bs : List Byte} {s t : State} (h : GoodState s) (hs : execLit bs s = .next t) :
    GoodState t := by
  rcases execLit_cases bs s with ⟨hfit, he⟩ | ⟨-, he⟩ <;> rw [he] at hs <;> cases hs
  · exact h.run (by omega) (by omega)
  · exact h.units.rleTruncate

/-! ### The TILE unit (R75, R191, R192) -/

/-- The loop over pieces of one length gives that many elements a round. -/
theorem collect_length {α : Type} {count len : Nat} {f : Nat → Option (List α)} {xs : List α}
    (hf : ∀ k ys, f k = some ys → ys.length = len) (h : collect count f = some xs) : xs.length = count * len := by
  induction count generalizing xs with
  | zero =>
    cases h
    simp
  | succ count ih =>
    simp only [collect] at h
    split at h <;> cases h
    rename_i us vs hu hv
    rw [List.length_append, ih hu, hf _ _ hv, Nat.succ_mul]

theorem packBytes_length {m : Memory 2} {bands : Nat} {bytes : List Byte} (h : packBytes m bands = some bytes) :
    bytes.length = 320 * bands := by
  have hrow : ∀ s t r ys, packTileRow m s t r = some ys → ys.length = 2 := by
    intro s t r ys hr
    obtain ⟨px, -, rfl⟩ := Option.map_eq_some_iff.1 hr
    rfl
  rw [Nat.mul_comm]
  exact collect_length (fun s _ => collect_length (len := 8 * 2) fun t _ => collect_length fun r ys => hrow s t r ys) h

theorem unpackPixels_length {m : Memory 8} {rows : Nat} {px : List Pixel} (h : unpackPixels m rows = some px) :
    px.length = 160 * rows := by
  have hpix : ∀ y x ys, (unpackPixel m y x).map (fun p => [p]) = some ys → ys.length = 1 := by
    intro y x ys hp
    obtain ⟨p, -, rfl⟩ := Option.map_eq_some_iff.1 hp
    rfl
  rw [Nat.mul_comm]
  exact collect_length (fun y _ => collect_length fun x ys => hpix y x ys) h

theorem execPack_keeps_good {s t : State} (h : UnitsOk s) (hs : execPack s = .next t) : GoodState t := by
  rcases execPack_cases s with ⟨-, he⟩ | ⟨hl, bytes, hb, he⟩ | ⟨-, -, he⟩ <;> rw [he] at hs <;> cases hs
  · exact h.raise _ _
  · have hfit : 0 + bytes.length ≤ BufName.size .til := by
      have := heightLegal_iff.1 hl
      rw [packBytes_length hb]
      simp only [BufName.size]
      omega
    have hi : InputsOk { s with
        til := s.til.splice 0 bytes, tileLen := BitVec.ofNat 24 (40 * s.tileH.toNat) } :=
      ⟨h.inputs.txp, h.inputs.rli, splice_ok h.inputs.til hfit, h.inputs.pix⟩
    exact (h.of_inputs hi rfl rfl rfl rfl rfl).endOk

theorem execUnpack_keeps_good {s t : State} (h : UnitsOk s) (hs : execUnpack s = .next t) : GoodState t := by
  rcases execUnpack_cases s with ⟨-, he⟩ | ⟨hl, px, hp, he⟩ | ⟨-, -, he⟩ <;> rw [he] at hs <;> cases hs
  · exact h.raise _ _
  · have hfit : 0 + px.length ≤ BufName.size .pix := by
      have := lengthLegal_iff.1 hl
      rw [unpackPixels_length hp]
      simp only [BufName.size]
      omega
    have hi : InputsOk { s with
        pix := s.pix.splice 0 px, tileH := BitVec.ofNat 16 (s.tileLen.toNat / 40) } :=
      ⟨h.inputs.txp, h.inputs.rli, h.inputs.til, splice_ok h.inputs.pix hfit⟩
    exact (h.of_inputs hi rfl rfl rfl rfl rfl).endOk

theorem execFaultClear_keeps_good {s t : State} (h : UnitsOk s) (hs : execFaultClear s = .next t) : GoodState t := by
  rw [execFaultClear_changes hs]
  have hu : UnitsOk s.clearFault :=
    ⟨Nat.zero_le _, h.cond, h.inputs.of_part rfl, h.tx.of_part rfl, h.rx.of_part rfl, h.rle.of_part rfl⟩
  exact hu.endOk

/-! ### Instructions, host actions, steps -/

theorem exec_keeps_good {i : Instr} {s t : State} (h : GoodState s) (hs : exec i s = .next t) : GoodState t := by
  have hwire : i.family = .frame → GoodState t := by
    intro hi
    obtain ⟨⟨cmd, comp, p⟩, hw⟩ := Option.isSome_iff_exists.1 (wireFields_isSome hi)
    rw [exec_wireFields hw] at hs
    exact sendFrame_keeps_good h.units hs
  cases i with
  | encode => exact encodeOp_keeps_good h.units hs
  | exchange => exact exchangeOp_keeps_good h.units hs
  | decodeStatus => exact execDecodeStatus_keeps_good h.units hs
  | addByte => exact execAddByte_keeps_good h.units hs
  | verify => exact execVerify_keeps_good h.units hs
  | rxReset => exact execRxReset_keeps_good h.units hs
  | decompress => exact execDecompress_keeps_good h.units hs
  | pack => exact execPack_keeps_good h.units hs
  | unpack => exact execUnpack_keeps_good h.units hs
  | faultClear => exact execFaultClear_keeps_good h.units hs
  | init | print | data | brk | status => exact hwire rfl
  | rep n v => exact execRep_keeps_good h hs
  | lit bs => exact execLit_keeps_good h hs

/-- What no part of the invariant speaks of may change. -/
theorem UnitsOk.of_parts {s t : State} (h : UnitsOk s) (hf : t.fault = s.fault) (hc : t.cond = s.cond)
    (hi : inputPart t = inputPart s) (ht : txPart t = txPart s) (hr : rxPart t = rxPart s)
    (hl : rlePart t = rlePart s) : UnitsOk t :=
  h.of_inputs (h.inputs.of_part hi) hf hc ht hr hl

theorem exchangeBegin_keeps_good {s : State} (h : UnitsOk s) : GoodState (exchangeBegin s) := by
  unfold exchangeBegin
  split
  · rename_i hv
    have hu : UnitsOk { exchangeStart s with activity := .exchanging } :=
      h.exchangeStart.of_parts rfl rfl rfl rfl rfl rfl
    exact goodState_iff.2 ⟨hu, fun _ => ⟨(exchangeStart_fvalid s).trans hv, exchangeStart_rvalid s, Nat.zero_le _⟩, nofun⟩
  · exact h.raise _ _

theorem rleBegin_keeps_good {s : State} (h : UnitsOk s) : GoodState (rleBegin s) := by
  have hu : UnitsOk (rleBegin s) := h.rleStart.of_parts rfl rfl rfl rfl rfl rfl
  refine goodState_iff.2 ⟨hu, nofun, fun _ => ⟨Nat.zero_le _, fun i hi => ?_⟩⟩
  have h0 : (rleBegin s).rleOcnt.toNat = 0 := rfl
  omega

/-- Pixel `(y, x)` lies inside PIX. -/
theorem pixelAt_lt {y x : Nat} (hy : y < Config.hMax) (hx : x < 160) : pixelAt y x + 1 ≤ BufName.size .pix := by
  simp only [pixelAt, Config.width, BufName.size]
  omega

/-- What the host does between operations keeps a good state good. -/
theorem HostEffect.keeps_good {s t : State} (he : HostEffect s t) (h : UnitsOk s) (ha : s.activity = .idle) :
    GoodState t := by
  cases he with
  | illegalOp e => exact e ▸ h.raise _ _
  | startExchange e => exact e ▸ exchangeBegin_keeps_good h
  | startDecompress e => exact e ▸ rleBegin_keeps_good h
  | register n x e =>
    rcases writeRegister_next e with ⟨-, rfl⟩ | ⟨-, rfl⟩ | ⟨-, rfl⟩ | ⟨-, rfl⟩ | ⟨-, rfl⟩ | ⟨-, rfl⟩ | ⟨-, rfl⟩ <;>
      exact UnitsOk.good_of_idle (h.of_parts rfl rfl rfl rfl rfl rfl) ha
  | bytes b i bs e =>
    obtain ⟨hfit, ⟨rfl, rfl⟩ | ⟨rfl, rfl⟩ | ⟨rfl, rfl⟩⟩ := writeBytes_next e
    · exact UnitsOk.good_of_idle (h.of_inputs ⟨splice_ok h.inputs.txp hfit, h.inputs.rli, h.inputs.til, h.inputs.pix⟩
        rfl rfl rfl rfl rfl) ha
    · exact UnitsOk.good_of_idle (h.of_inputs ⟨h.inputs.txp, splice_ok h.inputs.rli hfit, h.inputs.til, h.inputs.pix⟩
        rfl rfl rfl rfl rfl) ha
    · exact UnitsOk.good_of_idle (h.of_inputs ⟨h.inputs.txp, h.inputs.rli, splice_ok h.inputs.til hfit, h.inputs.pix⟩
        rfl rfl rfl rfl rfl) ha
  | pixel y x p e =>
    obtain ⟨hy, hx, rfl⟩ := writePixel_next e
    exact UnitsOk.good_of_idle (h.of_inputs
      ⟨h.inputs.txp, h.inputs.rli, h.inputs.til, splice_ok h.inputs.pix (pixelAt_lt hy hx)⟩ rfl rfl rfl rfl rfl) ha
  | read vs e =>
    subst e
    exact UnitsOk.good_of_idle (h.of_parts rfl rfl rfl rfl rfl rfl) ha
  | route e =>
    rcases routeData_next e with ⟨bs, hfit, rfl⟩ | ⟨bs, hfit, rfl⟩
    · exact UnitsOk.good_of_idle (h.of_inputs
        ⟨h.inputs.txp, h.inputs.rli, splice_ok h.inputs.til (by omega), h.inputs.pix⟩ rfl rfl rfl rfl rfl) ha
    · exact UnitsOk.good_of_idle (h.of_inputs
        ⟨h.inputs.txp, splice_ok h.inputs.rli (by simp only [BufName.size]; omega), h.inputs.til, h.inputs.pix⟩
        rfl rfl rfl rfl rfl) ha
  | send cmd comp p e => exact sendFrame_keeps_good h e
  | list actions e =>
    subst e
    exact UnitsOk.good_of_idle (h.of_parts rfl rfl rfl rfl rfl rfl) ha

/-- One `LinkXfer` of EXCHANGE in progress keeps a good state good, and EXCHANGE inside its range (R92). -/
theorem exchangeStep_keeps_good {s t : State} (h : GoodState s) (ha : s.activity = .exchanging)
    (hs : exchangeStep s = .next t) : GoodState t := by
  obtain ⟨hv, hr, -⟩ := h.activity.exchanging ha
  have hlen := h.units.tx.txFlen_le hv
  have hsent : ∀ b, s.txIdx.toNat ≤ s.txFlen.toNat + 1 →
      (bumpIdx (linkXfer b s).2).txIdx.toNat = s.txIdx.toNat + 1 ∧ UnitsOk (bumpIdx (linkXfer b s).2) := by
    intro b hi
    have hx := h.units.afterXfers (bs := [b]) (by rw [List.length_singleton]; omega)
    have hidx := afterXfers_txIdx (bs := [b]) (s := s) (by rw [List.length_singleton]; omega)
    rw [← afterXfers_cons, afterXfers_nil] at hx hidx
    exact ⟨hidx, hx⟩
  rcases exchangeStep_next hs with ⟨b, rfl⟩ | ⟨b, hlt, rfl⟩ | ⟨r, heq, rfl⟩ | ⟨r, heq, rfl⟩
  · exact h.units.afterTimeout hr b
  · obtain ⟨hidx, hu⟩ := hsent b (by omega)
    refine goodState_iff.2 ⟨hu, fun _ => ⟨hv, hr, ?_⟩, fun hd => absurd (ha.symm.trans hd) (by decide)⟩
    rw [hidx]
    exact Nat.succ_le_succ hlt.le
  · obtain ⟨hidx, hu⟩ := hsent 0x00 (by omega)
    refine goodState_iff.2 ⟨hu.of_parts rfl rfl rfl rfl rfl rfl, fun _ => ⟨hv, hr, ?_⟩,
      fun hd => absurd (ha.symm.trans hd) (by decide)⟩
    exact hidx.le.trans (Nat.succ_le_succ heq.le)
  · exact (hsent 0x00 (by omega)).2.exchangeDone _ _

/-- The invariant does not speak of what the host will do. -/
theorem GoodState.with_host {s : State} (h : GoodState s) (actions : List HostAction) :
    GoodState { s with host := actions } :=
  goodState_iff.2 ⟨h.units.of_parts rfl rfl rfl rfl rfl rfl, h.activity.exchanging, h.activity.decompressing⟩

/-- Settles O3: an instruction, a host action, a `LinkXfer` and the end of DECOMPRESS each keep the units in order; an operation
that ends leaves the block idle, and one in progress stays inside its range. -/
theorem everyStepKeepsInvariant : Obligations.EveryStepKeepsInvariant := by
  unfold Obligations.EveryStepKeepsInvariant
  intro s t h hs
  rcases step_cases hs with ⟨i, u, -, hu, he⟩ | ⟨ha, rfl | ⟨rest, he⟩⟩ | ⟨ha, he⟩ | ⟨-, rfl | rfl⟩
  · refine exec_keeps_good ?_ he
    rcases hu with rfl | ⟨rest, rfl⟩
    · exact h
    · exact h.with_host rest
  · exact h
  · exact he.keeps_good (h.with_host rest).units ha
  · exact exchangeStep_keeps_good h ha he
  · exact h.units.rleFinish
  · exact h.units.rleTruncate

/-- Settles O2: at reset no buffer lists anything, the parser is empty, and no valid bit is set. -/
theorem resetMeetsInvariant : Obligations.ResetMeetsInvariant := by
  have hnil : ∀ {n : Nat} (size : Nat), Memory.wf ([] : Memory n) ∧ Memory.below ([] : Memory n) size :=
    fun size => ⟨Memory.wf_nil, Memory.below_nil size⟩
  have hrx : RxOk State.reset := (rxOk_rxClear State.reset).of_part rfl
  have htx : TxShape State.reset := ⟨nofun, nofun, by decide, nofun⟩
  exact UnitsOk.good_of_idle ⟨by decide, .inl rfl, ⟨hnil _, hnil _, hnil _, hnil _⟩, ⟨hnil _, htx⟩, hrx,
    ⟨hnil _, ⟨by decide, by decide⟩⟩⟩ rfl

end Sys2Proof.Machine

/-! ## The host's side: its registers, its buffers, its reads -/

namespace Sys2Proof.Machine

open Host (Outcome)

/-! ### What only the host writes (R11, R34, R257) -/

/-- The host's list, its last read and the registers only the host writes, TX_CMD to TILE_LEN among them (R11). -/
def hostSide (s : State) :
    List HostAction × List Nat × Byte × BitVec 16 × Byte × Byte × BitVec 17 × BitVec 16 × BitVec 24 :=
  (s.host, s.readback, s.rxIn, s.rleIlen, s.txCmd, s.txComp, s.txPlen, s.tileH, s.tileLen)

/-- A wire command loads three of the host's registers, UNPACK sets TILE_H, PACK sets TILE_LEN; no other instruction touches the
host's side. -/
theorem exec_hostSide {i : Instr} {s t : State} (h : exec i s = .next t) (hw : i.family ≠ .frame) (hu : i ≠ .unpack)
    (hp : i ≠ .pack) : hostSide t = hostSide s := by
  cases i with
  | encode => rw [encodeOp_changes h]; rfl
  | exchange => rw [exchangeOp_changes h]; rfl
  | decodeStatus => rw [execDecodeStatus_changes h]; rfl
  | addByte => rw [execAddByte_changes h]; rfl
  | verify => rw [execVerify_changes h]; rfl
  | rxReset => rw [execRxReset_changes h]; rfl
  | decompress => rw [execDecompress_changes h]; rfl
  | pack => exact absurd rfl hp
  | unpack => exact absurd rfl hu
  | faultClear => rw [execFaultClear_changes h]; rfl
  | init | print | data | brk | status => exact absurd rfl hw
  | rep => rw [execRep_changes h]; rfl
  | lit => rw [execLit_changes h]; rfl

/-- Settles O54: the three kinds of instruction that set a register of the host's leave the others, and every other instruction
leaves them all. -/
theorem instructionsLeaveHostRegisters : Obligations.InstructionsLeaveHostRegisters := by
  unfold Obligations.InstructionsLeaveHostRegisters
  intro i s t h
  by_cases hw : i.family = .frame
  · rw [exec_wire_changes h hw]
    exact ⟨rfl, rfl, rfl, rfl, fun hn => absurd hw hn, fun _ => rfl, fun _ => rfl⟩
  by_cases hu : i = .unpack
  · subst hu
    rw [execUnpack_changes h]
    exact ⟨rfl, rfl, rfl, rfl, fun _ => ⟨rfl, rfl, rfl⟩, fun hn => absurd rfl hn, fun _ => rfl⟩
  by_cases hp : i = .pack
  · subst hp
    rw [execPack_changes h]
    exact ⟨rfl, rfl, rfl, rfl, fun _ => ⟨rfl, rfl, rfl⟩, fun _ => rfl, fun hn => absurd rfl hn⟩
  have hs := exec_hostSide h hw hu hp
  simp only [hostSide, Prod.mk.injEq] at hs
  obtain ⟨hhost, hread, hin, hilen, hcmd, hcomp, hplen, hh, hlen⟩ := hs
  exact ⟨hhost, hread, hin, hilen, fun _ => ⟨hcmd, hcomp, hplen⟩, fun _ => hh, fun _ => hlen⟩

/-- A run taken by DECOMPRESS in progress changes the RLE unit only. -/
theorem exec_run_changes {i : Instr} {s t : State} (h : exec i s = .next t) (hi : i.family = .run) :
    t = { s with
      rlo := t.rlo, rleIp := t.rleIp, rleOcnt := t.rleOcnt, fault := t.fault, result := t.result,
      activity := t.activity } := by
  cases i with
  | rep n v => exact execRep_changes h
  | lit bs => exact execLit_changes h
  | encode | exchange | decodeStatus | addByte | verify | rxReset | decompress | pack | unpack | faultClear | init
  | print | data | brk | status => cases hi

theorem rleFinish_changes (s : State) :
    rleFinish s = { s with
      rlo := (rleFinish s).rlo, fault := (rleFinish s).fault, result := (rleFinish s).result, activity := .idle } := by
  rcases rleFinish_cases s with ⟨-, e⟩ | ⟨-, m, e⟩ <;> rw [e] <;> rfl

/-- Settles O55: a step of an operation in progress is one `LinkXfer`, one run, or the end of DECOMPRESS, and none of these
reaches the host's list, its registers or the input buffers. -/
theorem hostWaitsDuringOperation : Obligations.HostWaitsDuringOperation := by
  unfold Obligations.HostWaitsDuringOperation
  intro s t ha h
  rcases step_cases h with ⟨i, u, hf, -, he⟩ | ⟨hidle, -⟩ | ⟨-, he⟩ | ⟨-, rfl | rfl⟩
  · cases hact : s.activity with
    | idle => exact absurd hact ha
    | exchanging =>
      rw [fetch_exchanging hact] at hf
      cases hf
    | decompressing =>
      obtain ⟨rfl, hi⟩ := fetch_instr_decompressing hact hf
      rw [exec_run_changes he hi]
      exact ⟨rfl, rfl, rfl, rfl, rfl, rfl, rfl, rfl, rfl⟩
  · exact absurd hidle ha
  · rw [exchangeStep_changes he]
    exact ⟨rfl, rfl, rfl, rfl, rfl, rfl, rfl, rfl, rfl⟩
  · rw [rleFinish_changes]
    exact ⟨rfl, rfl, rfl, rfl, rfl, rfl, rfl, rfl, rfl⟩
  · exact ⟨rfl, rfl, rfl, rfl, rfl, rfl, rfl, rfl, rfl⟩

/-! ### Registers by number (R11) -/

theorem writeRegister_fits {n x w : Nat} (hw : regWidth n = some w) (hx : x < 2 ^ w) (s : State) :
    writeRegister n x s = setRegister n x s := by
  rw [writeRegister, hw]
  exact if_pos hx

theorem ofNat_reads_back {w x : Nat} (hx : x < 2 ^ w) : (Except.ok (BitVec.ofNat w x).toNat : Except Refusal Nat) = .ok x := by
  rw [BitVec.toNat_ofNat, Nat.mod_eq_of_lt hx]

/-- A register that fits is set, it reads the number, and no other register reads another one. -/
theorem setRegister_reads_back {n x w : Nat} {s : State} (hn : n ∈ [2, 3, 4, 11, 16, 19, 20]) (hw : regWidth n = some w)
    (hx : x < 2 ^ w) :
    ∃ t, setRegister n x s = .next t ∧ readRegister n t = .ok x ∧ ∀ m, m ≠ n → readRegister m t = readRegister m s := by
  simp only [List.mem_cons, List.not_mem_nil, or_false] at hn
  rcases hn with rfl | rfl | rfl | rfl | rfl | rfl | rfl <;> cases hw <;>
    refine ⟨_, rfl, ofNat_reads_back hx, fun m hm => ?_⟩
  all_goals
    unfold readRegister
    split <;> first | rfl | exact absurd rfl hm

/-- Settles O57: a writable register takes a number that fits, and its field is read by its own number only. -/
theorem writtenRegisterReadsBack : Obligations.WrittenRegisterReadsBack := by
  unfold Obligations.WrittenRegisterReadsBack
  intro s n x w hn hw hx
  rw [writeRegister_fits hw hx]
  exact setRegister_reads_back hn hw hx

/-- A read-only register's number is refused by every write, whatever the number's size. -/
theorem writeRegister_readOnly {n x : Nat} {s : State} (hn : n ∈ [1, 5, 6, 7, 8, 9, 10, 12, 13, 14, 15, 17, 18]) :
    ∃ r, writeRegister n x s = .refused r := by
  cases h : writeRegister n x s with
  | refused r => exact ⟨r, rfl⟩
  | next t =>
    rcases writeRegister_next h with ⟨rfl, -⟩ | ⟨rfl, -⟩ | ⟨rfl, -⟩ | ⟨rfl, -⟩ | ⟨rfl, -⟩ | ⟨rfl, -⟩ | ⟨rfl, -⟩ <;>
      exact absurd hn (by decide)
  | fault f =>
    unfold writeRegister at h
    split at h
    · cases h
    · split at h
      · unfold setRegister at h
        split at h <;> cases h
      · cases h

theorem regWidth_none {n : Nat} (hn : 21 ≤ n) : regWidth n = none := by
  unfold regWidth
  split <;> first | omega | rfl

theorem readRegister_none {n : Nat} (hn : 21 ≤ n) (s : State) : readRegister n s = .error (.noSuchRegister n) := by
  unfold readRegister
  split <;> first | omega | rfl

theorem writeBytes_readOnly {b : BufName} (hb : b = .txf ∨ b = .rxb ∨ b = .rlo) (i : Nat) (bs : List Byte) (s : State) :
    ∃ r, writeBytes b i bs s = .refused r := by
  unfold writeBytes
  split
  · rcases hb with rfl | rfl | rfl <;> exact ⟨_, rfl⟩
  · exact ⟨_, rfl⟩

/-- Settles O59: a write goes on only for TXP, RLI, TIL and R11's writable numbers, and no number from 21 on has a width. -/
theorem outputsAreReadOnlyToHost : Obligations.OutputsAreReadOnlyToHost := by
  unfold Obligations.OutputsAreReadOnlyToHost
  refine ⟨fun s b i bs hb => writeBytes_readOnly hb i bs s, fun s n x hn => writeRegister_readOnly hn,
    fun s n x hn => ⟨?_, readRegister_none hn s⟩, fun _ => rfl⟩
  rw [writeRegister, regWidth_none hn]

/-! ### Buffers and pixels (R34, R46, R48) -/

/-- A host write inside TXP, RLI or TIL is taken: that buffer is spliced, and nothing else changes. -/
theorem writeBytes_taken {b : BufName} {i : Nat} {bs : List Byte} (hb : b = .txp ∨ b = .rli ∨ b = .til)
    (hfit : i + bs.length ≤ b.size) (s : State) :
    ∃ t m, writeBytes b i bs s = .next t ∧ s.bytes b = some m ∧ t.bytes b = some (m.splice i bs) ∧
      t = { s with txp := t.txp, rli := t.rli, til := t.til } ∧ ∀ c, c ≠ b → sameBuffer c s t := by
  unfold writeBytes
  rw [if_pos hfit]
  rcases hb with rfl | rfl | rfl <;> refine ⟨_, _, rfl, rfl, rfl, rfl, fun c hc => ?_⟩ <;> cases c <;>
    first | rfl | exact absurd rfl hc

/-- A range that does not overlap a write reads as before it. -/
theorem Memory.readRange_splice_outside {n : Nat} {m : Memory n} {i j len : Nat} {vs : List (BitVec n)}
    (h : j + len ≤ i ∨ i + vs.length ≤ j) : (m.splice i vs).readRange j len = m.readRange j len :=
  Memory.readRange_congr fun k hk => Memory.read_splice_outside (by omega)

theorem readBytes_splice_outside {b : BufName} {m : Memory 8} {i j n : Nat} {bs : List Byte} {s t : State}
    (hs : s.bytes b = some m) (ht : t.bytes b = some (m.splice i bs)) (h : j + n ≤ i ∨ i + bs.length ≤ j) :
    readBytes b j n t = readBytes b j n s := by
  unfold readBytes
  rw [hs, ht]
  simp only [Memory.readRange_splice_outside h]

theorem step_host {s : State} {a : HostAction} {rest : List HostAction} {o : Outcome State Fault Refusal}
    (ha : s.activity = .idle) (hh : s.host = a :: rest) (h : fetchAction a { s with host := rest } = .other o) :
    step s = o :=
  step_other ((fetch_action ha hh).trans h)

theorem readPixel_splice_self {y x : Nat} {p : Pixel} {s t : State} (hy : y < Config.hMax) (hx : x < 160)
    (ht : t.pix = s.pix.splice (pixelAt y x) [p]) : readPixel y x t = .ok p.toNat := by
  have hp : t.pix.read (pixelAt y x) = some p := by
    rw [ht]
    exact Memory.read_splice_inside (k := 0) (by simp)
  rw [readPixel, if_pos (pixelExists_iff.2 ⟨hy, hx⟩), hp]

theorem readPixel_splice_other {y x v u : Nat} {p : Pixel} {s t : State} (hx : x < 160)
    (ht : t.pix = s.pix.splice (pixelAt y x) [p]) (h : v ≠ y ∨ u ≠ x) : readPixel v u t = readPixel v u s := by
  unfold readPixel
  split
  · rename_i he
    rw [ht, Memory.read_splice_outside]
    simpa using pixelAt_ne hx (pixelExists_iff.1 he).2 h
  · rfl

/-- Settles O58: the host's write splices one buffer, and a range or a pixel elsewhere does not see it. -/
theorem writtenBufferReadsBack : Obligations.WrittenBufferReadsBack := by
  unfold Obligations.WrittenBufferReadsBack
  refine ⟨fun s b i bs rest ha hb hfit hh => ?_, fun s y x p rest ha hy hx hh => ?_⟩
  · obtain ⟨t, m, hw, hs, ht, heq, hsame⟩ := writeBytes_taken hb hfit { s with host := rest }
    refine ⟨t, (step_host ha hh rfl).trans hw, hw, heq, hsame, readBytes_ok ht hfit (Memory.readRange_splice m i bs),
      fun j n hjn => readBytes_splice_outside (hs := hs) ht hjn⟩
  · have hw : writePixel y x p { s with host := rest } =
        .next { s with host := rest, pix := s.pix.splice (pixelAt y x) [p] } := by
      rw [writePixel, if_pos (pixelExists_iff.2 ⟨hy, hx⟩)]
    exact ⟨_, (step_host ha hh rfl).trans hw, hw, rfl, readPixel_splice_self (s := s) hy hx rfl,
      fun v u hne => readPixel_splice_other hx rfl hne⟩

/-! ### Views of the packet (R28) -/

/-- A valid view is made of bytes below RX_N. -/
theorem ParserShape.view_below {s : State} (h : ParserShape s) {v : View} (hv : s.viewValid v = true) :
    (viewBytes (declaredSize s) v).1 + (viewBytes (declaredSize s) v).2 ≤ s.rxN.toNat := by
  unfold State.viewValid State.viewNeeds at hv
  by_cases h6 : 6 ≤ s.rxN.toNat
  · rw [h.dataSize h6] at hv
    cases v <;> simp [h6] at hv <;> simp only [viewBytes] <;> omega
  · cases v <;> simp [h6] at hv <;> simp only [viewBytes] <;> omega

/-- In a parser in shape a view is read exactly when it is valid (R28, U11). -/
theorem ParserShape.readView_iff {s : State} (h : ParserShape s) (v : View) :
    (∃ ns, s.readView v = .ok ns) ↔ s.viewValid v = true := by
  unfold State.readView
  constructor
  · rintro ⟨ns, hr⟩
    split at hr
    · assumption
    · cases hr
  · intro hv
    have hb := h.view_below hv
    obtain ⟨bs, hbs⟩ := Memory.readRange_isSome (m := s.rxb) (i := (viewBytes (declaredSize s) v).1)
      (len := (viewBytes (declaredSize s) v).2) fun k hk => h.stored _ (by omega)
    refine ⟨viewNumbers v bs, ?_⟩
    rw [if_pos hv, show s.dataSize.getD 0 = declaredSize s from rfl, hbs]

/-- From which RX_N on a view that starts or ends past the size bytes is valid (R28). -/
theorem ParserShape.viewValid_sized {s : State} (h : ParserShape s) {v : View} {k : Nat}
    (hv : s.viewNeeds v = if 6 ≤ s.rxN.toNat then s.dataSize.map (k + ·) else none) :
    s.viewValid v = true ↔ 6 ≤ s.rxN.toNat ∧ k + declaredSize s ≤ s.rxN.toNat := by
  unfold State.viewValid
  rw [hv]
  by_cases h6 : 6 ≤ s.rxN.toNat
  · simp [h6, h.dataSize h6]
  · simp [h6]

/-- Settles O60: a view is read exactly when it is valid, and validity is R28's bound. -/
theorem viewsAreValidOnceStored : Obligations.ViewsAreValidOnceStored := by
  unfold Obligations.ViewsAreValidOnceStored
  intro s h
  have hfull : 6 ≤ s.rxN.toNat ∧ 10 + declaredSize s ≤ s.rxN.toNat ↔
      6 ≤ s.rxN.toNat ∧ s.rxN.toNat = 10 + declaredSize s := by
    have := h.capacity
    omega
  simp only [h.readView_iff]
  refine ⟨?_, ?_, ?_, h.viewValid_sized rfl, h.viewValid_sized rfl, (h.viewValid_sized rfl).trans hfull,
    (h.viewValid_sized rfl).trans hfull⟩ <;> exact decide_eq_true_iff

/-! ### Reset and the idle block -/

theorem reset_bytes_empty {b : BufName} {m : Memory 8} (h : State.reset.bytes b = some m) : m = [] := by
  cases b <;> cases h <;> rfl

theorem reset_register {n : Nat} (h1 : 1 ≤ n) (h20 : n ≤ 20) : readRegister n State.reset = .ok 0 := by
  interval_cases n <;> rfl

/-- Settles O1: `State.reset` field by field, with every buffer the empty list. -/
theorem resetIsZeroEmptyAndIdle : Obligations.ResetIsZeroEmptyAndIdle := by
  unfold Obligations.ResetIsZeroEmptyAndIdle
  refine ⟨fun n h1 h20 => reset_register h1 h20, rfl, fun b m a h => ?_, fun _ => rfl, rfl, rfl, rfl⟩
  rw [reset_bytes_empty h, Memory.read_nil]

/-- Settles O8: with no action to take, `fetch` answers the state itself. -/
theorem idleBlockWaits : Obligations.IdleBlockWaits :=
  fun _ ha hh => step_other (fetch_idle ha hh)

end Sys2Proof.Machine

/-! ## What a step fetches: operations, frames, runs, table words -/

namespace Sys2Proof.Machine

/-! ### Writes of OP and SENDs (R11, R13, R80) -/

theorem fetchOp_ok {w : BitVec 4} {i : Instr} (h : decodeOp w = .ok i) (s : State) : fetchOp w s = .instr i s := by
  rw [fetchOp, h]

theorem fetchSend_ok {bytes : List Byte} {i : Instr} (h : decode .frame bytes = .ok (i, [])) (s : State) :
    fetchSend bytes s = .instr i s := by
  rw [fetchSend, h]

/-- A host action whose fetch is an instruction runs it with that action taken. -/
theorem step_host_instr {s : State} {a : HostAction} {rest : List HostAction} {i : Instr} (ha : s.activity = .idle)
    (hh : s.host = a :: rest) (h : fetchAction a { s with host := rest } = .instr i { s with host := rest }) :
    step s = exec i { s with host := rest } :=
  step_instr ((fetch_action ha hh).trans h)

/-- Two host actions that fetch alike make the same step. -/
theorem step_congr_action {s : State} {a b : HostAction} {rest : List HostAction} (ha : s.activity = .idle)
    (hh : s.host = a :: rest) (h : fetchAction a { s with host := rest } = fetchAction b { s with host := rest }) :
    step s = step { s with host := b :: rest } := by
  have hb : fetch { s with host := b :: rest } = fetchAction b { s with host := rest } := fetch_action ha rfl
  rw [step, step, fetch_action ha hh, hb, h]

/-! ### The run at RLE_IP (R72, R157) -/

theorem Memory.readRange_take {n : Nat} {m : Memory n} {i len k : Nat} {vs : List (BitVec n)}
    (h : m.readRange i len = some vs) (hk : k ≤ len) : m.readRange i k = some (vs.take k) := by
  obtain ⟨hl, hr⟩ := Memory.readRange_eq_some.1 h
  refine Memory.readRange_eq_some.2 ⟨by simp [hl, hk], fun j hj => ?_⟩
  rw [hr j (by omega), List.getElem?_take_of_lt hj]

/-- What a decoded run is: its control byte and the bytes it calls for are there (R72, R73). -/
theorem decodeRun_ok {bytes more : List Byte} {i : Instr} (h : decodeRun bytes = .ok (i, more)) :
    ∃ c rest, bytes = c :: rest ∧ runOperands c ≤ rest.length ∧
      i = if isRep c then .rep (c.setWidth 7) (rest.headD 0) else .lit (rest.take (runOperands c)) := by
  cases bytes with
  | nil => cases h
  | cons c rest =>
    rw [decodeRun] at h
    split at h
    · cases h
    · rename_i hl
      refine ⟨c, rest, rfl, Nat.not_lt.1 hl, ?_⟩
      split at h <;> cases h
      · rename_i hr
        rw [if_pos hr]
      · rename_i hr
        rw [if_neg hr]

/-- The step of DECOMPRESS in progress runs the instruction that stands at RLE_IP (R157). -/
theorem fetchRunStep_decoded {s : State} {len : Nat} {bytes more : List Byte} {i : Instr}
    (hlt : s.rleIp.toNat < s.rleIlen.toNat) (hfit : s.rleIp.toNat + len ≤ s.rleIlen.toNat)
    (hr : s.rli.readRange s.rleIp.toNat len = some bytes) (hd : decodeRun bytes = .ok (i, more)) :
    fetchRunStep s = .instr i s := by
  obtain ⟨c, rest, rfl, hl, rfl⟩ := decodeRun_ok hd
  have hlen : rest.length + 1 = len := Memory.readRange_length hr
  have htake : (rest.take (runOperands c)).length = runOperands c := by rw [List.length_take]; omega
  have hrun : fetchRun s =
      if isRep c then .rep (c.setWidth 7) ((rest.take (runOperands c)).headD 0)
      else .lit (rest.take (runOperands c)) := by
    refine fetchRun_of_read ?_ htake (by omega)
    rw [htake, Memory.readRange_take hr (by omega), Nat.add_comm, List.take_succ_cons]
  unfold fetchRunStep
  rw [if_neg (Nat.not_le.2 hlt), hrun]
  cases hc : isRep c with
  | true =>
    rw [runOperands_rep hc]
    cases rest <;> rfl
  | false => rfl

/-- Settles O6: each way of starting an instruction fetches the instruction its bytes decode to. -/
theorem stepRunsDecodedInstruction : Obligations.StepRunsDecodedInstruction := by
  unfold Obligations.StepRunsDecodedInstruction
  refine ⟨fun s w rest i ha hh hd => ?_, fun s v w rest ha hh hv => ?_, fun s w rest ha hh => ?_,
    fun s bytes rest i ha hh hd => ?_, fun s i more ha hlt len hlen bytes hr hd => ?_⟩
  · exact step_host_instr ha hh (fetchOp_ok hd _)
  · have hf : fetchRegWrite 0 v { s with host := rest } = fetchOp w { s with host := rest } :=
      fetchRegWrite_op (by rw [hostValue_host, hv])
    exact ⟨step_congr_action (b := .opWrite w) ha hh hf,
      fun i hd => step_host_instr ha hh (hf.trans (fetchOp_ok hd _))⟩
  · rcases fetchOpStepped_cases w { s with host := rest } with ⟨rfl, hf⟩ | ⟨rfl, hf⟩ | ⟨h2, h7, hf⟩
    · exact ⟨fun _ => step_host ha hh hf, fun h => absurd h (by decide), fun h => absurd rfl h⟩
    · exact ⟨fun h => absurd h (by decide), fun _ => step_host ha hh hf, fun _ h => absurd rfl h⟩
    · exact ⟨fun h => absurd h h2, fun h => absurd h h7, fun _ _ =>
        ⟨step_congr_action (b := .opWrite w) ha hh hf,
          fun i hd => step_host_instr ha hh (hf.trans (fetchOp_ok hd _))⟩⟩
  · exact step_host_instr ha hh (fetchSend_ok hd _)
  · exact step_instr ((fetch_decompressing ha).trans (fetchRunStep_decoded hlt hlen.le hr hd))

/-! ### Table words (logs 1, 4) -/

/-- A table word read as an operation is the number in its low four bits. -/
theorem decodeOpByte_lo8 {w : Nat} {i : Instr} {more : List Byte}
    (h : decodeOpByte [lo8 (w % 16)] = .ok (i, more)) : decodeOp (BitVec.ofNat 4 w) = .ok i := by
  have hw : (lo8 (w % 16)).setWidth 4 = BitVec.ofNat 4 w := by
    apply BitVec.eq_of_toNat_eq
    rw [BitVec.toNat_setWidth, lo8_toNat, BitVec.toNat_ofNat]
    omega
  have hlt : (lo8 (w % 16)).toNat < 16 := by
    rw [lo8_toNat]
    omega
  rw [decodeOpByte, if_pos hlt, hw] at h
  cases hd : decodeOp (BitVec.ofNat 4 w) with
  | ok j =>
    rw [hd] at h
    cases h
    rfl
  | error e =>
    rw [hd] at h
    cases h

theorem decodeOp_family {w : BitVec 4} {i : Instr} (h : decodeOp w = .ok i) : i.family = .op := by
  unfold decodeOp at h
  split at h <;> cases h <;> rfl

/-- Only an 8-bit word is read as a frame in a table of words of at most 8 bits, and then as STATUS's id. -/
theorem tableFamily_frame {nbits w : Nat} (hn : nbits ≤ 8) (h : tableFamily nbits w = .frame) :
    nbits = 8 ∧ w = 0x0F := by
  unfold tableFamily at h
  split_ifs at h
  · exact ⟨by assumption, by assumption⟩
  · omega

theorem tableFamily_run {nbits w : Nat} (hn : nbits ≤ 8) (h : tableFamily nbits w = .run) : nbits = 8 := by
  unfold tableFamily at h
  split_ifs at h
  · assumption
  · omega

/-- A control byte and as many bytes as it calls for: at most 129 bytes. -/
theorem tableBytes_run {w : Nat} (h : tableFamily 8 w = .run) :
    tableBytes 8 w = lo8 w :: List.replicate (runOperands (lo8 w)) 0x00 := by
  rw [tableBytes, h]
  rfl

theorem runOperands_le (c : Byte) : runOperands c ≤ 128 := by
  revert c
  decide

theorem decodeRun_family {bytes more : List Byte} {i : Instr} (h : decodeRun bytes = .ok (i, more)) : i.family = .run := by
  obtain ⟨c, rest, -, -, rfl⟩ := decodeRun_ok h
  split <;> rfl

/-- A run placed at RLE_IP of DECOMPRESS in progress is what the next step runs. -/
theorem fetch_placed_run {s : State} {w : Nat} {i : Instr} {more : List Byte} (hf : tableFamily 8 w = .run)
    (hd : decodeRun (tableBytes 8 w) = .ok (i, more)) : fetch (placeWord s 8 w) = .instr i (placeWord s 8 w) := by
  have hlen : 1 ≤ (tableBytes 8 w).length ∧ (tableBytes 8 w).length ≤ 129 := by
    have := runOperands_le (lo8 w)
    rw [tableBytes_run hf, List.length_cons, List.length_replicate]
    omega
  have hbase : placeBase s (tableBytes 8 w).length + (tableBytes 8 w).length ≤ 65535 := by
    unfold placeBase
    split <;> omega
  have hplace : placeWord s 8 w = { s with
      activity := .decompressing
      rli := s.rli.splice (placeBase s (tableBytes 8 w).length) (tableBytes 8 w)
      rleIp := BitVec.ofNat 17 (placeBase s (tableBytes 8 w).length)
      rleIlen := BitVec.ofNat 16
        (placeBase s (tableBytes 8 w).length + (tableBytes 8 w).length) } := by
    rw [placeWord, hf]
  rw [hplace]
  generalize placeBase s (tableBytes 8 w).length = base at hbase
  have hip : (BitVec.ofNat 17 base).toNat = base := by
    rw [BitVec.toNat_ofNat]
    omega
  have hil : (BitVec.ofNat 16 (base + (tableBytes 8 w).length)).toNat = base + (tableBytes 8 w).length := by
    rw [BitVec.toNat_ofNat]
    omega
  rw [fetch_decompressing rfl]
  refine fetchRunStep_decoded (len := (tableBytes 8 w).length) ?_ ?_ ?_ hd
  · simp only [hip, hil]
    omega
  · simp only [hip, hil]
    omega
  · simp only [hip]
    exact Memory.readRange_splice _ _ _

/-- Settles O7: an operation's number and STATUS's frame become the host's next action, a run stands at RLE_IP, and each is
fetched as what it decodes to. -/
theorem tableWordRunsAsNextInstruction : Obligations.TableWordRunsAsNextInstruction := by
  unfold Obligations.TableWordRunsAsNextInstruction
  intro s nbits w i hn hd
  unfold decodeTableWord at hd
  split at hd <;> cases hd
  rename_i more hd
  unfold State.withFetchWord
  cases hf : tableFamily nbits w with
  | op =>
    rw [hf, tableBytes, hf] at hd
    have hop := decodeOpByte_lo8 hd
    have hfam := decodeOp_family hop
    refine ⟨{ s with activity := .idle }, ?_, fun _ => rfl, fun h => by rw [hfam] at h; cases h⟩
    rw [placeWord, hf]
    exact step_host_instr rfl rfl (fetchOp_ok hop _)
  | frame =>
    obtain ⟨rfl, rfl⟩ := tableFamily_frame hn hf
    have hstatus : decode .frame (tableBytes 8 0x0F) = .ok (.status, []) := by rfl
    rw [hf, hstatus] at hd
    cases hd
    refine ⟨{ s with activity := .idle }, ?_, fun _ => rfl, nofun⟩
    exact step_host_instr rfl rfl (fetchSend_ok hstatus _)
  | run =>
    obtain rfl := tableFamily_run hn hf
    rw [hf] at hd
    refine ⟨placeWord s 8 w, step_instr (fetch_placed_run hf hd), fun h => absurd (decodeRun_family hd) h,
      fun _ => ⟨rfl, ?_⟩⟩
    rw [placeWord, hf]
    exact ⟨rfl, rfl⟩

end Sys2Proof.Machine

/-! ## An operation that reads a byte without a value is refused (R37) -/

namespace Sys2Proof.Machine

/-- A range with an index that has no value is not read. -/
theorem Memory.readRange_none {n : Nat} {m : Memory n} {i len k : Nat} (hk : k < len) (h : m.read (i + k) = none) :
    m.readRange i len = none := by
  cases hr : m.readRange i len with
  | none => rfl
  | some vs =>
    have hv := Memory.read_of_readRange hr hk
    rw [h, List.getElem?_eq_getElem (by rw [Memory.readRange_length hr]; exact hk)] at hv
    cases hv

/-- The end of a range is read where the range is. -/
theorem Memory.readRange_drop {n : Nat} {m : Memory n} {i : Nat} {us vs : List (BitVec n)}
    (h : m.readRange i (us.length + vs.length) = some (us ++ vs)) :
    m.readRange (i + us.length) vs.length = some vs := by
  refine Memory.readRange_eq_some.2 ⟨rfl, fun k hk => ?_⟩
  rw [Nat.add_assoc, Memory.read_of_readRange h (by omega), List.getElem?_append_right (by omega),
    Nat.add_sub_cancel_left]

/-! ### ENCODE and EXCHANGE -/

theorem encodeOp_unwritten {s : State} {k : Nat} (hl : s.txPlen.toNat ≤ 65535) (hk : k < s.txPlen.toNat)
    (hr : s.txp.read k = none) : encodeOp s = .refused (.unwritten .txp) := by
  have hn : s.txp.readRange 0 s.txPlen.toNat = none := Memory.readRange_none hk (by rwa [Nat.zero_add])
  rcases encodeOp_cases s with ⟨h, -⟩ | ⟨-, p, hp, -⟩ | ⟨-, -, he⟩
  · omega
  · rw [hn] at hp
    cases hp
  · exact he

theorem exchangeOp_unwritten {s : State} {k : Nat} (hv : s.fvalid = true) (hk : k < s.txFlen.toNat)
    (hr : s.txf.read k = none) : exchangeOp s = .refused (.unwritten .txf) := by
  have hn : s.txf.readRange 0 s.txFlen.toNat = none := Memory.readRange_none hk (by rwa [Nat.zero_add])
  rcases exchangeOp_cases s with ⟨h, -⟩ | ⟨-, frame, hf, -⟩ | ⟨-, -, he⟩
  · rw [hv] at h
    cases h
  · rw [hn] at hf
    cases hf
  · exact he

theorem exchangeStep_unwritten {s : State} (hi : s.txIdx.toNat < s.txFlen.toNat)
    (hr : s.txf.read s.txIdx.toNat = none) : exchangeStep s = .refused (.unwritten .txf) := by
  unfold exchangeStep
  rw [if_pos hi, hr]

/-! ### DECOMPRESS -/

theorem runLength_eq (c : Byte) : runLength c = 1 + runOperands c := by
  unfold runLength runOperands
  rw [isRep_iff]
  by_cases h : 128 ≤ c.toNat
  · simp [h]
  · simp [h]
    omega

/-- A run that cannot be read is not fetched. -/
theorem RunUnwritten.fetchRun {s : State} (h : RunUnwritten s s.rleIp.toNat) : fetchRun s = .unwritten := by
  obtain ⟨-, hc | ⟨c, k, hc, hfit, hk, hr⟩⟩ := h
  · exact fetchRun_unwritten hc
  · rw [runLength_eq] at hfit hk
    exact fetchRun_unwritten_byte hc (by omega) hk hr

theorem RunUnwritten.fetchRunStep {s : State} (h : RunUnwritten s s.rleIp.toNat) :
    fetchRunStep s = .other (.refused (.unwritten .rli)) := by
  unfold Machine.fetchRunStep
  rw [if_neg (Nat.not_le.2 h.1), h.fetchRun]

/-- A complete run at RLE_IP takes one round of the loop and moves RLE_IP past itself; the input stays. -/
theorem rleLoop_encoded {fuel : Nat} {s : State} {i : Instr} (hw : i.wf = true) (hi : i.family = .run)
    (hr : s.rli.readRange s.rleIp.toNat (encode i).length = some (encode i))
    (hfit : s.rleIp.toNat + (encode i).length ≤ s.rleIlen.toNat) :
    ∃ u, rleLoop (fuel + 1) s = rleLoop fuel u ∧ u.rli = s.rli ∧ u.rleIlen = s.rleIlen ∧
      u.rleIp.toNat = s.rleIp.toNat + (encode i).length := by
  have hil := s.rleIlen.isLt
  cases i with
  | rep n v =>
    change s.rleIp.toNat + 2 ≤ s.rleIlen.toNat at hfit
    have hf : fetchRun s = .rep n v := by
      rw [fetchRun_of_read (bs := [v]) hr (runOperands_rep (isRep_rep n)).symm hfit, if_pos (isRep_rep n), repField_rep]
      rfl
    exact ⟨repRun n v s, rleLoop_rep (by omega) hf, rfl, rfl, advanceIp_rleIp_toNat (by rw [emit_rleIp]; omega)⟩
  | lit bs =>
    obtain ⟨h1, h128⟩ := lit_wf.1 hw
    obtain ⟨hrep, hops⟩ := litControl h1 h128
    have hlen : (encode (.lit bs)).length = 1 + bs.length := Nat.add_comm _ _
    rw [hlen] at hr hfit ⊢
    have hf : fetchRun s = .lit bs := by
      rw [fetchRun_of_read hr hops.symm (by omega), hrep]
      rfl
    exact ⟨litRun bs s, rleLoop_lit (by omega) hf, rfl, rfl, advanceIp_rleIp_toNat (by rw [emit_rleIp]; omega)⟩
  | encode | exchange | decodeStatus | addByte | verify | rxReset | decompress | pack | unpack | faultClear | init
  | print | data | brk | status => cases hi

theorem encode_length_pos {i : Instr} (hi : i.family = .run) : 1 ≤ (encode i).length := by
  cases i with
  | rep n v => exact Nat.le_add_left _ _
  | lit bs => exact Nat.le_add_left _ _
  | encode | exchange | decodeStatus | addByte | verify | rxReset | decompress | pack | unpack | faultClear | init
  | print | data | brk | status => cases hi

/-- DECOMPRESS takes the complete runs one by one, whatever they emit, and is refused at the first byte without a value. -/
theorem rleLoop_unwritten_after {runs : List Instr} {fuel : Nat} {s : State}
    (hruns : ∀ i ∈ runs, i.wf = true ∧ i.family = .run)
    (hr : s.rli.readRange s.rleIp.toNat (runs.flatMap encode).length = some (runs.flatMap encode))
    (hu : RunUnwritten s (s.rleIp.toNat + (runs.flatMap encode).length))
    (hfuel : (runs.flatMap encode).length < fuel) : rleLoop fuel s = .refused (.unwritten .rli) := by
  induction runs generalizing s fuel with
  | nil =>
    obtain ⟨fuel, rfl⟩ := Nat.exists_eq_succ_of_ne_zero (Nat.ne_zero_of_lt hfuel)
    exact rleLoop_unwritten hu.1 (RunUnwritten.fetchRun hu)
  | cons i runs ih =>
    obtain ⟨hw, hi⟩ := hruns i List.mem_cons_self
    have hpos := encode_length_pos hi
    rw [List.flatMap_cons, List.length_append] at hr hu hfuel
    obtain ⟨fuel, rfl⟩ := Nat.exists_eq_succ_of_ne_zero (Nat.ne_zero_of_lt hfuel)
    obtain ⟨hlt, hat⟩ := hu
    have hhead : s.rli.readRange s.rleIp.toNat (encode i).length = some (encode i) := by
      rw [Memory.readRange_take hr (by omega), List.take_left]
    obtain ⟨u, he, hrli, hilen, hip⟩ := rleLoop_encoded (fuel := fuel) hw hi hhead (by omega)
    rw [he]
    refine ih (fun j hj => hruns j (List.mem_cons_of_mem i hj)) ?_ ?_ (by omega)
    · rw [hrli, hip]
      exact Memory.readRange_drop hr
    · rw [hip, Nat.add_assoc]
      unfold RunUnwritten
      rw [hrli, hilen]
      exact ⟨hlt, hat⟩

/-! ### ADD_BYTE and VERIFY -/

/-- Without a size byte there is no declared size. -/
theorem dataSize_none {s : State} (h : s.rxb.read 4 = none ∨ s.rxb.read 5 = none) : s.dataSize = none := by
  unfold State.dataSize
  rcases h with h | h <;> rw [h]
  split <;> simp_all

theorem execAddByte_header_unwritten {s : State} (hq : s.rxState = .headerPartial) (hn : s.rxN = 5)
    (hr : s.rxb.read 4 = none) : execAddByte s = .refused (.unwritten .rxb) := by
  have hn5 : s.rxN.toNat = 5 := by rw [hn]; rfl
  have h6 : (rxStoreSum s.rxIn s).rxN = 6 := by rw [rxStoreSum_rxN, hn]; rfl
  have hd : (rxStoreSum s.rxIn s).dataSize = none :=
    dataSize_none (.inl ((rxStore_read_ne s.rxIn s (by omega)).trans hr))
  rw [execAddByte_rxByte (by omega), rxByte, hq]
  simp only [rxHeaderByte, if_pos h6, hd]

theorem execAddByte_data_unwritten {s : State} (hq : s.rxState = .headerDone ∨ s.rxState = .dataPartial)
    (hn : 6 ≤ s.rxN.toNat) (hn' : s.rxN.toNat < 65545) (hr : s.rxb.read 4 = none ∨ s.rxb.read 5 = none) :
    execAddByte s = .refused (.unwritten .rxb) := by
  have hd : (rxStoreSum s.rxIn s).dataSize = none := by
    rw [rxStoreSum_dataSize, rxStore_dataSize s.rxIn hn, dataSize_none hr]
  rw [execAddByte_rxByte hn']
  rcases hq with hq | hq <;> rw [rxByte, hq] <;> simp only [rxDataByte, hd]

/-- Without a size byte or a check byte there is no received check. -/
theorem receivedCheck_none {s : State}
    (h : s.rxb.read 4 = none ∨ s.rxb.read 5 = none ∨
      ∃ lo hi, s.rxb.read 4 = some lo ∧ s.rxb.read 5 = some hi ∧
        (s.rxb.read (6 + (lo.toNat + 256 * hi.toNat)) = none ∨ s.rxb.read (7 + (lo.toNat + 256 * hi.toNat)) = none)) :
    s.receivedCheck = none := by
  unfold State.receivedCheck
  rcases h with h | h | ⟨lo, hi, hlo, hhi, h⟩
  · rw [dataSize_none (.inl h)]
  · rw [dataSize_none (.inr h)]
  · rw [dataSize_of_read hlo hhi]
    rcases h with h | h <;> simp only [h]
    split <;> simp_all

theorem execVerify_unwritten {s : State} (hc : s.rxState.checksumIn = true) (hr : s.receivedCheck = none) :
    execVerify s = .refused (.unwritten .rxb) := by
  rw [execVerify, if_pos hc, hr]

/-! ### PACK and UNPACK -/

/-- PACK's bytes are there only if every pixel of its rows is (R191). -/
theorem packBytes_reads {m : Memory 2} {bands y x : Nat} {bytes : List Byte} (h : packBytes m bands = some bytes)
    (hy : y < 8 * bands) (hx : x < 160) : (m.read (160 * y + x)).isSome := by
  obtain ⟨bs, hband⟩ := Option.isSome_iff_exists.1 (collect_isSome h (y / 8) (by omega))
  obtain ⟨ts, htile⟩ := Option.isSome_iff_exists.1 (collect_isSome hband (x / 8) (by omega))
  obtain ⟨rs, hrow⟩ := Option.isSome_iff_exists.1 (collect_isSome htile (y % 8) (by omega))
  obtain ⟨px, hpx, -⟩ := Option.map_eq_some_iff.1 hrow
  have hread := Memory.read_of_readRange hpx (k := x % 8) (by omega)
  rw [show pixIndex (8 * (y / 8) + y % 8) (8 * (x / 8)) + x % 8 = 160 * y + x by unfold pixIndex; omega] at hread
  rw [hread, List.getElem?_eq_getElem (by rw [Memory.readRange_length hpx]; omega)]
  rfl

/-- UNPACK's pixels are there only if both bytes of each are (R192). -/
theorem unpackPixels_reads {m : Memory 8} {rows y x : Nat} {px : List Pixel} (h : unpackPixels m rows = some px)
    (hy : y < rows) (hx : x < 160) : (m.read (tileIndex y x)).isSome ∧ (m.read (tileIndex y x + 1)).isSome := by
  obtain ⟨ps, hrow⟩ := Option.isSome_iff_exists.1 (collect_isSome h y hy)
  obtain ⟨qs, hpix⟩ := Option.isSome_iff_exists.1 (collect_isSome hrow x hx)
  obtain ⟨p, hp, -⟩ := Option.map_eq_some_iff.1 hpix
  unfold unpackPixel at hp
  split at hp
  · rename_i lo hi hlo hhi
    rw [hlo, hhi]
    exact ⟨rfl, rfl⟩
  · cases hp

/-- Every byte below TILE_LEN is one of the two bytes of a pixel (R194). -/
theorem tile_byte_of_pixel {k len : Nat} (hl : len % 320 = 0) (hk : k < len) :
    ∃ y x, y < len / 40 ∧ x < 160 ∧ (k = tileIndex y x ∨ k = tileIndex y x + 1) := by
  have hinv := tileIndex_inverse (k := k - k % 2) (i := 0) (by omega) (by omega)
  exact ⟨8 * ((k - k % 2) / 320) + (k - k % 2) % 16 / 2, 8 * ((k - k % 2) % 320 / 16) + 0, by omega, by omega,
    by rw [hinv]; omega⟩

theorem execPack_unwritten {s : State} {y x : Nat} (h8 : s.tileH.toNat % 8 = 0) (hmax : s.tileH.toNat ≤ Config.hMax)
    (hy : y < s.tileH.toNat) (hx : x < 160) (hr : pixelOf s y x = none) :
    execPack s = .refused (.unwritten .pix) := by
  rcases execPack_cases s with ⟨hl, -⟩ | ⟨-, bytes, hb, -⟩ | ⟨-, -, he⟩
  · rw [heightLegal_iff.2 ⟨h8, hmax⟩] at hl
    cases hl
  · have hs := packBytes_reads (y := y) hb (by omega) hx
    rw [show s.pix.read (160 * y + x) = none from hr] at hs
    cases hs
  · exact he

theorem execUnpack_unwritten {s : State} {k : Nat} (h320 : s.tileLen.toNat % 320 = 0)
    (hmax : s.tileLen.toNat ≤ 40 * Config.hMax) (hk : k < s.tileLen.toNat) (hr : s.til.read k = none) :
    execUnpack s = .refused (.unwritten .til) := by
  rcases execUnpack_cases s with ⟨hl, -⟩ | ⟨-, px, hp, -⟩ | ⟨-, -, he⟩
  · rw [lengthLegal_iff.2 ⟨h320, hmax⟩] at hl
    cases hl
  · obtain ⟨y, x, hy, hx, hkey⟩ := tile_byte_of_pixel h320 hk
    obtain ⟨hlo, hhi⟩ := unpackPixels_reads hp hy hx
    rcases hkey with rfl | rfl
    · rw [hr] at hlo
      cases hlo
    · rw [hr] at hhi
      cases hhi
  · exact he

/-- Settles O19: each operation's read of a byte without a value is a `none` where its meaning refuses. -/
theorem unwrittenInputIsRefused : Obligations.UnwrittenInputIsRefused := by
  unfold Obligations.UnwrittenInputIsRefused
  refine ⟨fun s k hl hk hr => encodeOp_unwritten hl hk hr, fun s runs hruns hr hu => ?_, fun s ha hu => ?_,
    fun s k hv hk hr => exchangeOp_unwritten hv hk hr, fun s ha hi hr => ?_,
    fun s hq hn hr => execAddByte_header_unwritten hq hn hr,
    fun s hq hn hn' hr => execAddByte_data_unwritten hq hn hn' hr, fun s hq hr => ?_,
    fun s y x h8 hmax hy hx hr => execPack_unwritten h8 hmax hy hx hr,
    fun s k h320 hmax hk hr => execUnpack_unwritten h320 hmax hk hr⟩
  · refine rleLoop_unwritten_after (s := rleStart s) hruns hr ?_ (Nat.lt_succ_of_lt hu.1)
    show RunUnwritten s (0 + (runs.flatMap encode).length)
    rwa [Nat.zero_add]
  · exact step_other ((fetch_decompressing ha).trans hu.fetchRunStep)
  · exact (step_other (fetch_exchanging ha)).trans (exchangeStep_unwritten hi hr)
  · exact execVerify_unwritten (by rcases hq with h | h | h <;> rw [h] <;> rfl) (receivedCheck_none hr)

end Sys2Proof.Machine

/-! ## No run from a good state ends in a machine fault (R48, R52) -/

namespace Sys2Proof.Machine

open Host (Outcome)

/-- A machine fault is not the outcome (log 13). -/
def NoFault (o : Outcome State Fault Refusal) : Prop := ∀ f, o ≠ .fault f

@[simp] theorem noFault_next (t : State) : NoFault (.next t) := nofun

@[simp] theorem noFault_refused (r : Refusal) : NoFault (.refused r) := nofun

/-! ### The TX unit: ENCODE and EXCHANGE go on or refuse -/

theorem encodeOp_noFault (s : State) : NoFault (encodeOp s) := by
  rcases encodeOp_cases s with ⟨-, he⟩ | ⟨-, p, -, he⟩ | ⟨-, -, he⟩ <;> simp [he]

theorem exchangeOp_noFault (s : State) : NoFault (exchangeOp s) := by
  rcases exchangeOp_cases s with ⟨-, he⟩ | ⟨-, frame, -, he⟩ | ⟨-, -, he⟩ <;> simp [he]

theorem sendFrame_noFault (cmd comp : Byte) (p : List Byte) (s : State) : NoFault (sendFrame cmd comp p s) := by
  by_cases hp : p.length ≤ 65535
  · rw [sendFrame_exchanges hp]
    exact noFault_next _
  · rw [sendFrame, if_neg (show ¬ p.length ≤ Config.lenMax from hp)]
    exact noFault_refused _

theorem execDecodeStatus_noFault (s : State) : NoFault (execDecodeStatus s) := by
  unfold execDecodeStatus
  split <;> exact noFault_next _

/-- EXCHANGE in progress is not past its last exchange (R92). -/
theorem exchangeStep_noFault {s : State} (h : s.txIdx.toNat ≤ s.txFlen.toNat + 1) : NoFault (exchangeStep s) := by
  unfold exchangeStep
  split
  · split
    · exact noFault_next _
    · exact noFault_refused _
  · split
    · exact noFault_next _
    · rw [if_pos (by omega)]
      exact noFault_next _

/-! ### The RX unit: RX_N is an index of RXB wherever a byte is stored -/

theorem rxHeaderByte_noFault (s : State) : NoFault (rxHeaderByte s) := by
  unfold rxHeaderByte
  split
  · split
    · exact noFault_next _
    · exact noFault_next _
    · exact noFault_refused _
  · exact noFault_next _

theorem rxDataByte_noFault (s : State) : NoFault (rxDataByte s) := by
  unfold rxDataByte
  split
  · split <;> exact noFault_next _
  · exact noFault_refused _

theorem rxByte_noFault (b : Byte) (s : State) : NoFault (rxByte b s) := by
  unfold rxByte
  cases s.rxState with
  | empty | preamblePartial =>
    dsimp only
    split <;> exact noFault_next _
  | headerPartial => exact rxHeaderByte_noFault _
  | headerDone | dataPartial => exact rxDataByte_noFault _
  | preambleDone | dataDone | checksumPartial | checksumDone | responsePartial | complete => exact noFault_next _

/-- A packet holds at most 10 + 65535 bytes, so a parser that has that many is COMPLETE (R48, R52). -/
theorem ParserShape.room {s : State} (h : ParserShape s) : s.rxState = .complete ∨ s.rxN.toNat < 65545 := by
  by_cases hn : s.rxN.toNat < 65545
  · exact .inr hn
  · have hd := declaredSize_lt s
    have hc := h.capacity (by omega)
    exact .inl (h.state.trans (rxStateOf_eq_iff.2 (show 10 + declaredSize s ≤ s.rxN.toNat by omega)))

theorem execAddByte_noFault {s : State} (h : ParserShape s) : NoFault (execAddByte s) := by
  rw [execAddByte, if_pos (show s.rxState = .complete ∨ s.rxN.toNat < BufName.size .rxb from h.room)]
  exact rxByte_noFault _ _

theorem execVerify_noFault (s : State) : NoFault (execVerify s) := by
  rcases execVerify_cases s with ⟨-, he⟩ | ⟨-, chk, -, he⟩ | ⟨-, -, he⟩ <;> simp [he]

/-! ### The RLE and TILE units -/

/-- DECOMPRESS has rounds enough for its input: a run takes at least two bytes of it (R150). -/
theorem execDecompress_noFault (s : State) : NoFault (execDecompress s) := by
  have hip : (rleStart s).rleIp.toNat = 0 := rfl
  have hend := rleLoop_ends (s := rleStart s) (fuel := s.rleIlen.toNat + 1) (by omega) (by rw [rleStart_rleIlen]; omega)
  rcases hend with ⟨t, he⟩ | he <;> rw [execDecompress, he]
  · exact noFault_next _
  · exact noFault_refused _

theorem execPack_noFault (s : State) : NoFault (execPack s) := by
  rcases execPack_cases s with ⟨-, he⟩ | ⟨-, bytes, -, he⟩ | ⟨-, -, he⟩ <;> simp [he]

theorem execUnpack_noFault (s : State) : NoFault (execUnpack s) := by
  rcases execUnpack_cases s with ⟨-, he⟩ | ⟨-, px, -, he⟩ | ⟨-, -, he⟩ <;> simp [he]

theorem execRep_noFault (n : BitVec 7) (v : Byte) (s : State) : NoFault (execRep n v s) := by
  rcases execRep_cases n v s with ⟨-, he⟩ | ⟨-, he⟩ <;> simp [he]

theorem execLit_noFault (bs : List Byte) (s : State) : NoFault (execLit bs s) := by
  rcases execLit_cases bs s with ⟨-, he⟩ | ⟨-, he⟩ <;> simp [he]

/-! ### Instructions, host actions, steps, runs -/

theorem exec_wire_noFault {i : Instr} (hi : i.family = .frame) (s : State) : NoFault (exec i s) := by
  obtain ⟨⟨cmd, comp, p⟩, hw⟩ := Option.isSome_iff_exists.1 (wireFields_isSome hi)
  rw [exec_wireFields hw]
  exact sendFrame_noFault cmd comp p s

/-- ADD_BYTE alone needs the parser's shape; no other instruction computes an index from a register that could be too large. -/
theorem exec_noFault {s : State} (h : ParserShape s) (i : Instr) : NoFault (exec i s) := by
  cases i with
  | encode => exact encodeOp_noFault s
  | exchange => exact exchangeOp_noFault s
  | decodeStatus => exact execDecodeStatus_noFault s
  | addByte => exact execAddByte_noFault h
  | verify => exact execVerify_noFault s
  | rxReset => exact noFault_next _
  | decompress => exact execDecompress_noFault s
  | pack => exact execPack_noFault s
  | unpack => exact execUnpack_noFault s
  | faultClear => exact noFault_next _
  | init | print | data | brk | status => exact exec_wire_noFault rfl s
  | rep n v => exact execRep_noFault n v s
  | lit bs => exact execLit_noFault bs s

theorem returnRead_noFault (r : Except Refusal (List Nat)) (s : State) : NoFault (returnRead r s) := by
  cases r with
  | ok vs => exact noFault_next _
  | error e => exact noFault_refused e

theorem setRegister_noFault (n x : Nat) (s : State) : NoFault (setRegister n x s) := by
  unfold setRegister
  split <;> simp

theorem writeRegister_noFault (n x : Nat) (s : State) : NoFault (writeRegister n x s) := by
  unfold writeRegister
  split
  · exact noFault_refused _
  · split
    · exact setRegister_noFault n x s
    · exact noFault_refused _

theorem writeBytes_noFault (b : BufName) (i : Nat) (bs : List Byte) (s : State) : NoFault (writeBytes b i bs s) := by
  unfold writeBytes
  split
  · cases b with
    | txp | rli | til => exact noFault_next _
    | txf | rxb | rlo | pix => exact noFault_refused _
  · exact noFault_refused _

theorem writePixel_noFault (y x : Nat) (p : Pixel) (s : State) : NoFault (writePixel y x p s) := by
  unfold writePixel
  split <;> simp

theorem copyBytes_noFault (src : BufName) (i : Nat) (dst : BufName) (j n : Nat) (s : State) :
    NoFault (copyBytes src i dst j n s) := by
  unfold copyBytes
  split
  · exact writeBytes_noFault _ _ _ _
  · exact noFault_refused _

theorem routeData_noFault (s : State) : NoFault (routeData s) := by
  unfold routeData
  split
  · split
    · exact noFault_refused _
    · split
      · exact writeBytes_noFault _ _ _ _
      · split
        · exact writeBytes_noFault _ _ _ _
        · exact noFault_refused _
  all_goals exact noFault_refused _

theorem sendOther_noFault (bytes : List Byte) (s : State) : NoFault (sendOther bytes s) := by
  rcases sendOther_cases bytes s with ⟨f, -, -, he⟩ | ⟨f, -, -, he⟩ | ⟨-, he⟩ <;> rw [he]
  · exact sendFrame_noFault _ _ _ s
  · exact noFault_refused _
  · exact noFault_refused _

/-- What is fetched gives no machine fault: an instruction that meets a parser in shape, or an outcome that is none. -/
def Fetched.Safe : Fetched → Prop
  | .instr _ s => ParserShape s
  | .other o => NoFault o

theorem Fetched.Safe.step {s : State} (h : (fetch s).Safe) : NoFault (step s) := by
  cases hf : fetch s with
  | instr i u =>
    rw [hf] at h
    rw [step_instr hf]
    exact exec_noFault h i
  | other o =>
    rw [hf] at h
    rw [step_other hf]
    exact h

section Fetch
variable {s : State} (h : ParserShape s)
include h

theorem fetchOp_safe (w : BitVec 4) : (fetchOp w s).Safe := by
  unfold fetchOp
  split
  · exact h
  · exact noFault_next _

theorem fetchOpStepped_safe (w : BitVec 4) : (fetchOpStepped w s).Safe := by
  rcases fetchOpStepped_cases w s with ⟨-, he⟩ | ⟨-, he⟩ | ⟨-, -, he⟩ <;> rw [he]
  · exact noFault_next _
  · exact noFault_next _
  · exact fetchOp_safe h w

theorem fetchRegWrite_safe (n : Nat) (v : HostVal) : (fetchRegWrite n v s).Safe := by
  unfold fetchRegWrite
  split
  · exact noFault_refused _
  · split
    · split
      · exact fetchOp_safe h _
      · exact noFault_refused _
    · exact writeRegister_noFault _ _ _

theorem fetchSend_safe (bytes : List Byte) : (fetchSend bytes s).Safe := by
  unfold fetchSend
  split
  · exact h
  · exact sendOther_noFault bytes s

theorem fetchAction_safe (a : HostAction) : (fetchAction a s).Safe := by
  cases a with
  | opWrite w => exact fetchOp_safe h w
  | opWriteStepped w => exact fetchOpStepped_safe h w
  | regWrite n v => exact fetchRegWrite_safe h n v
  | send frame => exact fetchSend_safe h frame
  | regRead | bufRead | pixRead | viewRead => exact returnRead_noFault _ s
  | bufWrite b i bs => exact writeBytes_noFault b i bs s
  | pixWrite y x p => exact writePixel_noFault y x p s
  | copy src i dst j n => exact copyBytes_noFault src i dst j n s
  | routeRxData => exact routeData_noFault s
  | waitPrinted => exact noFault_next _
  | testPrinted => exact noFault_next _

theorem fetchHost_safe : (fetchHost s).Safe := by
  unfold fetchHost
  split
  · exact noFault_next _
  · rename_i a rest _
    exact fetchAction_safe (s := { s with host := rest }) (h.congr rfl rfl rfl) a

theorem fetchRunStep_safe : (fetchRunStep s).Safe := by
  unfold fetchRunStep
  split
  · exact noFault_next _
  · split
    · exact h
    · exact h
    · exact noFault_next _
    · exact noFault_refused _

end Fetch

theorem GoodState.step_noFault {s : State} (h : GoodState s) : NoFault (step s) := by
  apply Fetched.Safe.step
  cases ha : s.activity with
  | idle =>
    rw [fetch, ha]
    exact fetchHost_safe h.parser
  | exchanging =>
    rw [fetch_exchanging ha]
    obtain ⟨-, -, hidx⟩ := h.activity.exchanging ha
    exact exchangeStep_noFault hidx
  | decompressing =>
    rw [fetch_decompressing ha]
    exact fetchRunStep_safe h.parser

theorem run_succ (k : Nat) {s t : State} (h : step s = .next t) :
    Host.Core.run Sys2Proof.core (k + 1) s = Host.Core.run Sys2Proof.core k t := by
  simp only [Host.Core.run, show Sys2Proof.core.step s = .next t from h]

theorem run_refused (k : Nat) {s : State} {r : Refusal} (h : step s = .refused r) :
    Host.Core.run Sys2Proof.core (k + 1) s = .refused r := by
  simp only [Host.Core.run, show Sys2Proof.core.step s = .refused r from h]

/-- What every step keeps, and keeps from a machine fault, makes every run safe. -/
theorem safeRun_of_invariant {P : State → Prop} (hkeep : ∀ s t, P s → step s = .next t → P t)
    (hsafe : ∀ s, P s → NoFault (step s)) {s : State} (h : P s) : SafeRun s := by
  intro k
  induction k generalizing s with
  | zero => exact noFault_next s
  | succ k ih =>
    intro f
    cases hs : step s with
    | next t =>
      rw [run_succ k hs]
      exact ih (hkeep s t h hs) f
    | fault r => exact absurd hs (hsafe s h r)
    | refused r =>
      rw [run_refused k hs]
      exact noFault_refused r f

/-- Settles O4: every step keeps the invariant, and from a state that meets it ADD_BYTE's index lies inside RXB, EXCHANGE in
progress is not past its end, and DECOMPRESS has rounds enough. -/
theorem goodStatesRunWithoutMachineFault : Obligations.GoodStatesRunWithoutMachineFault := by
  unfold Obligations.GoodStatesRunWithoutMachineFault
  exact fun s h => safeRun_of_invariant everyStepKeepsInvariant (fun _ => GoodState.step_noFault) h

end Sys2Proof.Machine

/-! ## What the operations of the TX unit leave alone, and how EXCHANGE ends (R41, R90, R91) -/

namespace Sys2Proof.Machine

/-! ### ENCODE -/

theorem encodeTooLarge_rvalid (s : State) : (encodeTooLarge s).rvalid = s.rvalid := withBit0_bit1 _ _

/-- ENCODE leaves RVALID as it is, with a frame or without. -/
theorem encodeOp_rvalid {s t : State} (h : encodeOp s = .next t) : t.rvalid = s.rvalid := by
  rcases encodeOp_cases s with ⟨-, he⟩ | ⟨-, p, -, he⟩ | ⟨-, -, he⟩ <;> rw [he] at h <;> cases h
  · exact encodeTooLarge_rvalid s
  · exact encodeFrame_rvalid p s

/-- ENCODE that ends `ok` has built the frame of its payload. -/
theorem encodeOp_ok {s t : State} (h : encodeOp s = .next t) (hr : t.result = some .ok) :
    ∃ p, p.length = s.txPlen.toNat ∧ t = encodeFrame p s := by
  rcases encodeOp_cases s with ⟨-, he⟩ | ⟨-, p, hp, he⟩ | ⟨-, -, he⟩ <;> rw [he] at h <;> cases h
  · cases hr
  · exact ⟨p, Memory.readRange_length hp, rfl⟩

/-- Settles O22: ENCODE changes its own fields only, neither end of it touches RVALID, and the frame it builds ends at
8 + TX_PLEN. -/
theorem encodeLeavesTheRest : Obligations.EncodeLeavesTheRest := by
  unfold Obligations.EncodeLeavesTheRest
  intro s t h
  refine ⟨encodeOp_changes h, encodeOp_rvalid h, fun hr => ?_⟩
  obtain ⟨p, hp, rfl⟩ := encodeOp_ok h hr
  refine ⟨rfl, fun a ha => ?_⟩
  rw [encodeFrame_read, if_neg (by omega)]

/-! ### EXCHANGE -/

theorem exchangeOp_fvalid {s t : State} (h : exchangeOp s = .next t) : t.fvalid = s.fvalid := by
  rcases exchangeOp_cases s with ⟨-, he⟩ | ⟨-, frame, -, he⟩ | ⟨-, -, he⟩ <;> rw [he] at h <;> cases h
  · rfl
  · exact (exchangeBytes_fvalid frame _).trans (exchangeStart_fvalid s)

/-- Settles O26: EXCHANGE changes its own fields and the link's, and moves RVALID alone of the two valid bits. -/
theorem exchangeLeavesTheRest : Obligations.ExchangeLeavesTheRest := by
  unfold Obligations.ExchangeLeavesTheRest
  exact fun s t h => ⟨exchangeOp_changes h, exchangeOp_fvalid h⟩

theorem exchangeDone_rvalid (r0 r1 : Byte) (s : State) : (exchangeDone r0 r1 s).rvalid = true := withBit1_bit1 _ _

/-- EXCHANGE of the bytes `bs` that began at `s` ended at `t` after `k` exchanges: the first `k` bytes of `bs` and two zero bytes
went out in order, and either all were answered or the last one was not (R91, R255). -/
def ExchangeEnds (bs : List Byte) (s t : State) (k : Nat) : Prop :=
  1 ≤ k ∧ k ≤ bs.length + 2 ∧ t.linkN = s.linkN + k ∧ t.sent = s.sent ++ (bs ++ [0x00, 0x00]).take k ∧
    ((k = bs.length + 2 ∧ t.rvalid = true ∧ t.result = some .ok ∧ t.txIdx.toNat = k) ∨
     (t.rvalid = false ∧ t.result = some (.fault 0x02 (some (k - 1))) ∧ t.txIdx.toNat = k - 1))

/-- TX_IDX counts the answered bytes from the start of EXCHANGE on (R19). -/
theorem afterXfers_exchangeStart_txIdx {bs : List Byte} {s : State} (h : bs.length < 131072) :
    (afterXfers bs (exchangeStart s)).txIdx.toNat = bs.length := by
  have h0 : (exchangeStart s).txIdx.toNat = 0 := rfl
  rw [afterXfers_txIdx (by omega), h0, Nat.zero_add]

/-- The end with a status pair. -/
theorem exchangeDone_ends {bs : List Byte} (r0 r1 : Byte) (s : State) (hl : bs.length ≤ 65543) :
    ExchangeEnds bs s (exchangeDone r0 r1 (afterXfers (bs ++ [0x00, 0x00]) (exchangeStart s))) (bs.length + 2) := by
  have hlen : (bs ++ [0x00, 0x00]).length = bs.length + 2 := by simp
  refine ⟨by omega, le_rfl, ?_, ?_, .inl ⟨rfl, exchangeDone_rvalid _ _ _, rfl, ?_⟩⟩
  · exact congrArg (s.linkN + ·) hlen
  · rw [← hlen, List.take_length]
    rfl
  · exact (afterXfers_exchangeStart_txIdx (by omega)).trans hlen

/-- The end without an answer to byte `k`. -/
theorem afterTimeout_ends {bs : List Byte} {k : Nat} {b : Byte} (s : State) (hl : bs.length ≤ 65543)
    (hk : k < bs.length + 2) (hb : (bs ++ [0x00, 0x00])[k]? = some b) :
    ExchangeEnds bs s (afterTimeout b (afterXfers ((bs ++ [0x00, 0x00]).take k) (exchangeStart s))) (k + 1) := by
  have hlen : ((bs ++ [0x00, 0x00]).take k).length = k := by
    simp
    omega
  have hidx := afterXfers_exchangeStart_txIdx (bs := (bs ++ [0x00, 0x00]).take k) (s := s) (by omega)
  rw [hlen] at hidx
  refine ⟨by omega, hk, ?_, ?_, .inr ⟨exchangeStart_rvalid s, ?_, hidx⟩⟩
  · show s.linkN + ((bs ++ [0x00, 0x00]).take k).length + 1 = _
    rw [hlen, Nat.add_assoc]
  · show s.sent ++ (bs ++ [0x00, 0x00]).take k ++ [b] = _
    rw [List.take_add_one, hb, List.append_assoc, Option.toList_some]
  · exact congrArg (fun i => some (OpResult.fault 0x02 (some i))) hidx

/-- Whatever the link peer answers, EXCHANGE of a frame that is no longer than the longest one ends. -/
theorem exchangeBytes_ends {bs : List Byte} (s : State) (hl : bs.length ≤ 65543) :
    ∃ k, ExchangeEnds bs s (exchangeBytes bs (exchangeStart s)) k := by
  rcases exchangeBytes_cases bs (exchangeStart s) with ⟨r0, r1, e⟩ | ⟨k, b, hk, hb, e⟩ <;> rw [e]
  · exact ⟨_, exchangeDone_ends r0 r1 s hl⟩
  · exact ⟨_, afterTimeout_ends s hl hk hb⟩

/-- Settles O25: EXCHANGE of a frame is the exchange of its bytes and of two zero bytes, which ends with the last answer or at the
first timeout. -/
theorem exchangeAlwaysEnds : Obligations.ExchangeAlwaysEnds := by
  unfold Obligations.ExchangeAlwaysEnds
  intro s frame hv hl hr
  obtain ⟨k, hk⟩ := exchangeBytes_ends (bs := frame) s (by rwa [Memory.readRange_length hr])
  exact ⟨_, k, exchangeOp_frame hv hr, hk⟩

end Sys2Proof.Machine

/-! ## What reaches a buffer and the link, and the host's reads (R41, R47) -/

namespace Sys2Proof.Machine

/-- Settles O52: each instruction's meaning changes its own unit's fields, and of the buffers the ones in its row. -/
theorem instructionsTouchOnlyTheirBuffers : Obligations.InstructionsTouchOnlyTheirBuffers := by
  unfold Obligations.InstructionsTouchOnlyTheirBuffers
  intro i s t b h hb
  cases i with
  | encode => rw [encodeOp_changes h]; cases b <;> simp [buffersWritten, sameBuffer] at hb ⊢
  | exchange => rw [exchangeOp_changes h]; cases b <;> simp [buffersWritten, sameBuffer] at hb ⊢
  | decodeStatus => rw [execDecodeStatus_changes h]; cases b <;> simp [buffersWritten, sameBuffer] at hb ⊢
  | addByte => rw [execAddByte_changes h]; cases b <;> simp [buffersWritten, sameBuffer] at hb ⊢
  | verify => rw [execVerify_changes h]; cases b <;> simp [buffersWritten, sameBuffer] at hb ⊢
  | rxReset => rw [execRxReset_changes h]; cases b <;> simp [buffersWritten, sameBuffer] at hb ⊢
  | decompress => rw [execDecompress_changes h]; cases b <;> simp [buffersWritten, sameBuffer] at hb ⊢
  | pack => rw [execPack_changes h]; cases b <;> simp [buffersWritten, sameBuffer] at hb ⊢
  | unpack => rw [execUnpack_changes h]; cases b <;> simp [buffersWritten, sameBuffer] at hb ⊢
  | faultClear => rw [execFaultClear_changes h]; cases b <;> simp [buffersWritten, sameBuffer] at hb ⊢
  | init | print | data | brk | status =>
    rw [exec_wire_changes h rfl]
    cases b <;> simp [buffersWritten, sameBuffer] at hb ⊢
  | rep | lit => rw [exec_run_changes h rfl]; cases b <;> simp [buffersWritten, sameBuffer] at hb ⊢

/-- Settles O53: the link's fields are among the changes of EXCHANGE and of a SEND only. -/
theorem onlyExchangeReachesLink : Obligations.OnlyExchangeReachesLink := by
  unfold Obligations.OnlyExchangeReachesLink
  intro i s t h hi
  cases i with
  | encode => rw [encodeOp_changes h]; exact ⟨rfl, rfl, rfl⟩
  | decodeStatus => rw [execDecodeStatus_changes h]; exact ⟨rfl, rfl, rfl⟩
  | addByte => rw [execAddByte_changes h]; exact ⟨rfl, rfl, rfl⟩
  | verify => rw [execVerify_changes h]; exact ⟨rfl, rfl, rfl⟩
  | rxReset => rw [execRxReset_changes h]; exact ⟨rfl, rfl, rfl⟩
  | decompress => rw [execDecompress_changes h]; exact ⟨rfl, rfl, rfl⟩
  | pack => rw [execPack_changes h]; exact ⟨rfl, rfl, rfl⟩
  | unpack => rw [execUnpack_changes h]; exact ⟨rfl, rfl, rfl⟩
  | faultClear => rw [execFaultClear_changes h]; exact ⟨rfl, rfl, rfl⟩
  | rep | lit => rw [exec_run_changes h rfl]; exact ⟨rfl, rfl, rfl⟩
  | exchange | init | print | data | brk | status => cases hi

/-- A step whose host action returns a read hands the host the value and does nothing else. -/
theorem step_returnRead {s t : State} {a : HostAction} {rest : List HostAction} {r : Except Refusal (List Nat)}
    (ha : s.activity = .idle) (hh : s.host = a :: rest)
    (hf : fetchAction a { s with host := rest } = .other (returnRead r { s with host := rest }))
    (h : step s = .next t) : t = { s with host := rest, readback := t.readback } := by
  rw [step_host ha hh hf] at h
  obtain ⟨vs, -, rfl⟩ := returnRead_next h
  rfl

/-- Settles O56: each of the four reads is fetched as the return of a value. -/
theorem hostReadsHaveNoSideEffect : Obligations.HostReadsHaveNoSideEffect := by
  unfold Obligations.HostReadsHaveNoSideEffect
  intro s t a rest ha hh hread h
  rcases hread with ⟨n, rfl⟩ | ⟨b, i, rfl⟩ | ⟨y, x, rfl⟩ | ⟨v, rfl⟩ <;> exact step_returnRead ha hh rfl h

end Sys2Proof.Machine

/-! ## The decoder and the encoder are inverse to each other (R61 to R68, R72, R73, R76) -/

namespace Sys2Proof.Machine

/-! ### Operation numbers (R13, R76) -/

theorem decodeOpByte_encode {i : Instr} (hi : i.family = .op) (rest : List Byte) :
    decodeOpByte (encode i ++ rest) = .ok (i, rest) := by
  cases i with
  | encode | exchange | decodeStatus | addByte | verify | rxReset | decompress | pack | unpack | faultClear => rfl
  | _ => cases hi

/-- The byte of the operation a number selects is that number. -/
theorem encode_decodeOp {w : BitVec 4} {i : Instr} (h : decodeOp w = .ok i) : encode i = [w.setWidth 8] := by
  unfold decodeOp at h
  split at h <;> cases h
  all_goals
    rename_i hw
    obtain ⟨-, rfl⟩ := BitVec.toNat_eq_nat.1 hw
    rfl

/-- A byte is decoded as an operation only where it holds a number of 4 bits. -/
theorem decodeOpByte_ok {bytes rest : List Byte} {i : Instr} (h : decodeOpByte bytes = .ok (i, rest)) :
    ∃ b : Byte, b.toNat < 16 ∧ bytes = b :: rest ∧ decodeOp (b.setWidth 4) = .ok i := by
  cases bytes with
  | nil => cases h
  | cons b more =>
    rw [decodeOpByte] at h
    split at h
    · rename_i hb
      cases hd : decodeOp (b.setWidth 4) with
      | ok j =>
        rw [hd] at h
        cases h
        exact ⟨b, hb, rfl, hd⟩
      | error e =>
        rw [hd] at h
        cases h
    · cases h

theorem setWidth_nibble {b : Byte} (h : b.toNat < 16) : (b.setWidth 4).setWidth 8 = b := by
  apply BitVec.eq_of_toNat_eq
  rw [BitVec.toNat_setWidth, BitVec.toNat_setWidth]
  omega

theorem op_wf {i : Instr} (h : i.family = .op) : i.wf = true := by
  cases i with
  | data | lit => cases h
  | _ => rfl

theorem decodeOpByte_encodes_back {bytes rest : List Byte} {i : Instr} (h : decodeOpByte bytes = .ok (i, rest)) :
    i.family = .op ∧ i.wf = true ∧ bytes = encode i ++ rest := by
  obtain ⟨b, hb, rfl, hd⟩ := decodeOpByte_ok h
  have hf := decodeOp_family hd
  refine ⟨hf, op_wf hf, ?_⟩
  rw [encode_decodeOp hd, setWidth_nibble hb]
  rfl

/-! ### Frames (R61 to R68) -/

theorem wireFields_family {i : Instr} {fields : Byte × Byte × List Byte} (h : wireFields i = some fields) :
    i.family = .frame := by
  cases i with
  | init | print | data | brk | status => rfl
  | _ => cases h

/-- The encoding of a wire command is the frame of its id, flag and payload. -/
theorem encode_wireFields {i : Instr} {cmd comp : Byte} {p : List Byte} (h : wireFields i = some (cmd, comp, p)) :
    encode i = frameBytes cmd comp p := by
  cases i <;> cases h <;> rfl

/-- A wire command is well-formed exactly when its payload has a length the field holds (R62). -/
theorem wf_wireFields {i : Instr} {cmd comp : Byte} {p : List Byte} (h : wireFields i = some (cmd, comp, p)) :
    i.wf = true ↔ p.length ≤ 65535 := by
  cases i with
  | data => cases h; exact data_wf
  | init | print | brk | status => cases h; exact iff_of_true rfl (by simp)
  | _ => cases h

/-- An id, a flag and a payload are decoded as the one wire command that has them. -/
theorem decodeCommand_ok_iff {cmd comp : Byte} {p : List Byte} {i : Instr} :
    decodeCommand cmd comp p = .ok i ↔ wireFields i = some (cmd, comp, p) := by
  constructor
  · intro h
    unfold decodeCommand at h
    split at h
    case h_1 | h_4 | h_5 =>
      rename_i hc
      obtain ⟨-, rfl⟩ := BitVec.toNat_eq_nat.1 hc
      obtain ⟨rfl, rfl, rfl⟩ := bareCommand_ok h
      rfl
    case h_2 =>
      rename_i hc
      obtain ⟨-, rfl⟩ := BitVec.toNat_eq_nat.1 hc
      obtain ⟨sheets, margin, palette, exposure, rfl, rfl, rfl⟩ := printCommand_ok h
      show some (_, _, [sheets, marginByte _ _, palette, exposure]) = _
      rw [marginByte_of_nibbles]
      rfl
    case h_3 =>
      rename_i hc
      obtain ⟨-, rfl⟩ := BitVec.toNat_eq_nat.1 hc
      cases h
      rfl
    case h_6 => cases h
  · intro h
    cases i with
    | init | data | brk | status => cases h; rfl
    | print sheets top bottom palette exposure =>
      cases h
      show Except.ok (Instr.print sheets ((marginByte top bottom).extractLsb' 4 4)
        ((marginByte top bottom).extractLsb' 0 4) palette exposure) = _
      rw [marginByte_top, marginByte_bottom]
    | _ => cases h

theorem decodeFrame_encode {i : Instr} (hi : i.family = .frame) (hw : i.wf = true) (rest : List Byte) :
    decodeFrame (encode i ++ rest) = .ok (i, rest) := by
  obtain ⟨⟨cmd, comp, p⟩, hf⟩ := Option.isSome_iff_exists.1 (wireFields_isSome hi)
  rw [encode_wireFields hf, decodeFrame_frameBytes cmd comp p rest ((wf_wireFields hf).1 hw), decodeCommand_ok_iff.2 hf]
  rfl

/-- Bytes are decoded as a wire command only where they are a frame of its id, flag and payload. -/
theorem decodeFrame_ok {bytes rest : List Byte} {i : Instr} (h : decodeFrame bytes = .ok (i, rest)) :
    ∃ f, readFrame bytes = .ok (f, rest) ∧ decodeCommand f.cmd f.comp f.payload = .ok i := by
  unfold decodeFrame at h
  split at h
  · rename_i f tail hr
    cases hd : decodeCommand f.cmd f.comp f.payload with
    | ok j =>
      rw [hd] at h
      cases h
      exact ⟨f, hr, hd⟩
    | error e =>
      rw [hd] at h
      cases h
  · cases h

theorem decodeFrame_encodes_back {bytes rest : List Byte} {i : Instr} (h : decodeFrame bytes = .ok (i, rest)) :
    i.family = .frame ∧ i.wf = true ∧ bytes = encode i ++ rest := by
  obtain ⟨f, hr, hd⟩ := decodeFrame_ok h
  have hf := decodeCommand_ok_iff.1 hd
  obtain ⟨hb, hl⟩ := readFrame_ok hr
  exact ⟨wireFields_family hf, (wf_wireFields hf).2 hl, by rw [encode_wireFields hf, hb]⟩

/-! ### Runs (R72, R73) -/

/-- A control byte with the bytes it calls for is decoded, and what follows them is left. -/
theorem decodeRun_complete {c : Byte} {rest : List Byte} (h : runOperands c ≤ rest.length) :
    decodeRun (c :: rest) =
      .ok (if isRep c then .rep (c.setWidth 7) (rest.headD 0) else .lit (rest.take (runOperands c)),
        rest.drop (runOperands c)) := by
  rw [decodeRun, if_neg (Nat.not_lt.2 h)]
  cases hc : isRep c with
  | true => rw [runOperands_rep hc]; rfl
  | false => rfl

theorem decodeRun_encode {i : Instr} (hi : i.family = .run) (hw : i.wf = true) (rest : List Byte) :
    decodeRun (encode i ++ rest) = .ok (i, rest) := by
  cases i with
  | rep n v =>
    have hop : runOperands (1#1 ++ n) = 1 := runOperands_rep (isRep_rep n)
    show decodeRun ((1#1 ++ n) :: v :: rest) = _
    rw [decodeRun_complete (by simp [hop]), if_pos (isRep_rep n), repField_rep, hop]
    rfl
  | lit bs =>
    obtain ⟨h1, h128⟩ := lit_wf.1 hw
    obtain ⟨hrep, hop⟩ := litControl h1 h128
    show decodeRun (lo8 (bs.length - 1) :: (bs ++ rest)) = _
    rw [decodeRun_complete (by simp [hop]), hrep, hop, List.take_left, List.drop_left]
    rfl
  | _ => cases hi

theorem decodeRun_encodes_back {bytes more : List Byte} {i : Instr} (h : decodeRun bytes = .ok (i, more)) :
    i.family = .run ∧ i.wf = true ∧ bytes = encode i ++ more := by
  refine ⟨decodeRun_family h, ?_⟩
  obtain ⟨c, rest, rfl, hl, -⟩ := decodeRun_ok h
  rw [decodeRun_complete hl] at h
  cases h
  cases hc : isRep c with
  | true =>
    rw [runOperands_rep hc] at hl ⊢
    obtain ⟨v, more, rfl⟩ := List.exists_cons_of_length_pos hl
    refine ⟨rfl, ?_⟩
    show _ = (1#1 ++ c.setWidth 7) :: v :: more
    rw [rep_of_isRep c hc]
  | false =>
    have hop := runOperands_lit hc
    have htake : (rest.take (runOperands c)).length = c.toNat + 1 := by
      rw [List.length_take, Nat.min_eq_left hl, hop]
    have hcontrol : lo8 (c.toNat + 1 - 1) = c := by rw [Nat.add_sub_cancel, lo8, BitVec.ofNat_toNat, BitVec.setWidth_eq]
    refine ⟨lit_wf.2 ?_, ?_⟩
    · have := runOperands_le c
      omega
    · show _ = lo8 ((rest.take (runOperands c)).length - 1) :: (rest.take (runOperands c) ++ rest.drop (runOperands c))
      rw [htake, hcontrol, List.take_append_drop]

/-! ### Both directions -/

/-- Settles O10: each family's encoding, followed by anything, is read by that family's decoder to its end and no further. -/
theorem decodeOfEncodeIsInstruction : Obligations.DecodeOfEncodeIsInstruction := by
  unfold Obligations.DecodeOfEncodeIsInstruction
  intro i rest hw
  cases hi : i.family with
  | op => exact decodeOpByte_encode hi rest
  | frame => exact decodeFrame_encode hi hw rest
  | run => exact decodeRun_encode hi hw rest

/-- Settles O11: each family's decoder accepts only the encodings of that family's well-formed instructions. -/
theorem decodedBytesEncodeBack : Obligations.DecodedBytesEncodeBack := by
  unfold Obligations.DecodedBytesEncodeBack
  intro f bytes i rest h
  cases f with
  | op => exact decodeOpByte_encodes_back h
  | frame => exact decodeFrame_encodes_back h
  | run => exact decodeRun_encodes_back h

end Sys2Proof.Machine

/-! ## The frame byte by byte, in words and in TXF (R61 to R63, R90, R95 to R99) -/

namespace Sys2Proof.Machine

/-! ### The frame of an id, a flag and a payload -/

/-- The two check bytes are the sum of the header from the id on and of the payload (R63). -/
theorem frameCheck_toNat (cmd comp : Byte) (p : List Byte) :
    (lo8 (frameSum cmd comp p).toNat).toNat + 256 * (hi8 (frameSum cmd comp p).toNat).toNat =
      (cmd.toNat + comp.toNat + (lo8 p.length).toNat + (hi8 p.length).toNat + byteSum p) % 65536 := by
  rw [lo8_add_hi8 (BitVec.isLt _), frameSum_toNat]

/-- The frame the model builds is the one of R61 to R63, and the only one. -/
theorem frameOf_iff {frame : List Byte} {cmd comp : Byte} {p : List Byte} :
    FrameOf frame cmd comp p ↔ frame = frameBytes cmd comp p ∧ p.length ≤ 65535 := by
  constructor
  · rintro ⟨ll, lh, cl, ch, rfl, hlen, hsum⟩
    have hll := ll.isLt
    have hlh := lh.isLt
    have hcheck : (frameSum cmd comp p).toNat = cl.toNat + 256 * ch.toNat := by
      rw [frameSum_toNat, ← hlen, lo8_le, hi8_le, hsum]
    refine ⟨?_, by omega⟩
    rw [frameBytes, hcheck, ← hlen, lo8_le, hi8_le, lo8_le, hi8_le]
  · rintro ⟨rfl, hl⟩
    exact ⟨_, _, _, _, rfl, lo8_add_hi8 (by omega), frameCheck_toNat cmd comp p⟩

/-- Settles O12: the decoder runs each of the nine words to its end. -/
theorem sampleWordsDecode : Obligations.SampleWordsDecode := by
  unfold Obligations.SampleWordsDecode
  exact ⟨rfl, rfl, rfl, rfl, rfl, rfl, rfl, rfl, rfl⟩

/-- PRINT's frame has length bytes 4 and 0, which its check sums with the four payload bytes (R67, R96). -/
theorem encode_print (sheets : Byte) (top bottom : BitVec 4) (palette exposure : Byte) :
    ∃ cl ch : Byte, cl.toNat + 256 * ch.toNat =
        (0x02 + 0x04 + sheets.toNat + (marginByte top bottom).toNat + palette.toNat + exposure.toNat) % 65536 ∧
      encode (.print sheets top bottom palette exposure) =
        [0x88, 0x33, 0x02, 0x00, 0x04, 0x00, sheets, marginByte top bottom, palette, exposure, cl, ch] := by
  have hl : (printPayload sheets top bottom palette exposure).length ≤ 65535 := Nat.le_of_ble_eq_true rfl
  obtain ⟨ll, lh, cl, ch, hframe, hlen, hsum⟩ := frameOf_iff (cmd := 0x02) (comp := 0x00).2 ⟨rfl, hl⟩
  change ll.toNat + 256 * lh.toNat = 4 at hlen
  obtain rfl : ll = 0x04 := by bv_omega
  obtain rfl : lh = 0x00 := by bv_omega
  exact ⟨cl, ch, by simpa [printPayload, Nat.add_assoc] using hsum, hframe⟩

/-- Settles O13: three frames are constants, PRINT's has a payload of four bytes, and DATA's is the frame of its payload. -/
theorem wireFramesAreByteExact : Obligations.WireFramesAreByteExact := by
  unfold Obligations.WireFramesAreByteExact
  refine ⟨rfl, rfl, rfl, fun sheets top bottom palette exposure => ?_, fun comp payload hl => ?_⟩
  · exact ⟨_, marginByte_toNat top bottom, encode_print sheets top bottom palette exposure⟩
  · obtain ⟨ll, lh, cl, ch, hframe, hlen, hsum⟩ := frameOf_iff (cmd := 0x04) (comp := comp).2 ⟨rfl, hl⟩
    exact ⟨ll, lh, cl, ch, hlen, hsum, hframe⟩

/-! ### TXF after ENCODE -/

/-- Settles O20: ENCODE of a payload that is there ends with its frame in TXF, and the frame is read off byte by byte. -/
theorem encodeBuildsFrame : Obligations.EncodeBuildsFrame := by
  unfold Obligations.EncodeBuildsFrame
  intro s p hl hp
  have hlen : p.length = s.txPlen.toNat := Memory.readRange_length hp
  have hread : ∀ a, a < 8 + p.length → (encodeFrame p s).txf.read a = (frameBytes s.txCmd s.txComp p)[a]? :=
    fun a ha => by rw [encodeFrame_read, if_pos ha]
  obtain ⟨hcl, hch⟩ := frameBytes_check s.txCmd s.txComp p
  refine ⟨_, encodeOp_payload hl hp, (hread 0 (by omega)).trans rfl, (hread 1 (by omega)).trans rfl,
    (hread 2 (by omega)).trans rfl, (hread 3 (by omega)).trans rfl,
    ⟨_, _, (hread 4 (by omega)).trans rfl, (hread 5 (by omega)).trans rfl, lo8_add_hi8 (by omega),
      _, _, (hread _ (by omega)).trans hcl, (hread _ (by omega)).trans hch, frameCheck_toNat _ _ p⟩,
    fun k hk => ?_, ?_, encodeFrame_fvalid p s, rfl, rfl⟩
  · rw [hread _ (by omega), frameBytes_payload _ _ _ hk, ← Memory.read_of_readRange hp (hlen ▸ hk), Nat.zero_add]
  · rw [encodeFrame_txFlen hl, hlen]

end Sys2Proof.Machine

/-! ## The host's FEED runs as `feed` (R80) -/

namespace Sys2Proof.Machine

/-! ### ADD_BYTE does not look at the host's list -/

/-- The state with another list of host actions. -/
def State.withHost (actions : List HostAction) (s : State) : State := { s with host := actions }

section WithHost
variable (actions : List HostAction) (s : State)

@[simp] theorem withHost_rxN : (s.withHost actions).rxN = s.rxN := rfl
@[simp] theorem withHost_rxIn : (s.withHost actions).rxIn = s.rxIn := rfl
@[simp] theorem withHost_rxState : (s.withHost actions).rxState = s.rxState := rfl
@[simp] theorem withHost_dataSize : (s.withHost actions).dataSize = s.dataSize := rfl

variable {s} {t : State}

theorem rxHeaderByte_withHost (h : rxHeaderByte s = .next t) :
    rxHeaderByte (s.withHost actions) = .next (t.withHost actions) := by
  unfold rxHeaderByte at h ⊢
  rw [withHost_rxN, withHost_dataSize]
  split at h <;> rename_i hn
  · rw [if_pos hn]
    split at h <;> cases h <;> rfl
  · rw [if_neg hn]
    cases h
    rfl

theorem rxDataByte_withHost (h : rxDataByte s = .next t) :
    rxDataByte (s.withHost actions) = .next (t.withHost actions) := by
  unfold rxDataByte at h ⊢
  rw [withHost_rxN, withHost_dataSize]
  split at h
  · split at h <;> rename_i hn <;> cases h
    · exact if_pos hn
    · exact if_neg hn
  · cases h

theorem rxByte_withHost {b : Byte} (h : rxByte b s = .next t) :
    rxByte b (s.withHost actions) = .next (t.withHost actions) := by
  unfold rxByte at h ⊢
  rw [withHost_rxState]
  cases hq : s.rxState with
  | empty | preamblePartial =>
    rw [hq] at h
    dsimp only at h ⊢
    split at h <;> rename_i hb <;> cases h
    · exact if_pos hb
    · exact if_neg hb
  | headerPartial => rw [hq] at h; exact rxHeaderByte_withHost actions h
  | headerDone | dataPartial => rw [hq] at h; exact rxDataByte_withHost actions h
  | preambleDone | dataDone | checksumPartial | checksumDone | responsePartial | complete =>
    rw [hq] at h
    cases h
    rfl

theorem execAddByte_withHost (h : execAddByte s = .next t) :
    execAddByte (s.withHost actions) = .next (t.withHost actions) := by
  unfold execAddByte at h ⊢
  rw [withHost_rxN, withHost_rxIn, withHost_rxState]
  split at h
  · rename_i hroom
    rw [if_pos hroom]
    exact rxByte_withHost actions h
  · cases h

end WithHost
/-! ### Two steps for each byte -/

/-- A host write of RX_IN of the number of a byte (R11). -/
theorem step_write_rxIn {s : State} {b : Byte} {rest : List HostAction} (ha : s.activity = .idle)
    (hh : s.host = .regWrite 11 (.lit b.toNat) :: rest) : step s = .next { s with host := rest, rxIn := b } := by
  have hw : writeRegister 11 b.toNat { s with host := rest } =
      .next { s with host := rest, rxIn := BitVec.ofNat 8 b.toNat } :=
    writeRegister_fits rfl b.isLt _
  rw [BitVec.ofNat_toNat, BitVec.setWidth_eq] at hw
  exact (step_host ha hh rfl).trans hw

/-- The two host actions of one fed byte are RX_IN and ADD_BYTE (R80, R120). -/
theorem run_feed_byte {s t : State} {b : Byte} {rest : List HostAction} (k : Nat) (ha : s.activity = .idle)
    (hh : s.host = .regWrite 11 (.lit b.toNat) :: .opWrite 4 :: rest)
    (h : execAddByte { s with host := rest, rxIn := b } = .next t) :
    Host.Core.run Sys2Proof.core (k + 2) s = Host.Core.run Sys2Proof.core k t := by
  have hop : step { s with host := .opWrite 4 :: rest, rxIn := b } = exec .addByte { s with host := rest, rxIn := b } :=
    step_host_instr ha rfl rfl
  rw [run_succ (k + 1) (step_write_rxIn ha hh), run_succ k (hop.trans h)]

/-- Settles O39: byte by byte, a write of RX_IN and an ADD_BYTE, neither of which looks at the host's list. -/
theorem feedActionsRunAsFeed : Obligations.FeedActionsRunAsFeed := by
  unfold Obligations.FeedActionsRunAsFeed
  intro bytes
  induction bytes with
  | nil =>
    intro s rest t _ hh h
    obtain rfl : s.host = rest := hh
    exact h
  | cons b bytes ih =>
    intro s rest t ha hh h
    have hh' : s.host = .regWrite 11 (.lit b.toNat) :: .opWrite 4 :: (Pseudo.actions (.feed bytes) ++ rest) := hh
    rw [feed] at h
    split at h
    · rename_i u hu
      have hu' := execAddByte_withHost (Pseudo.actions (.feed bytes) ++ rest) hu
      have hidle : u.activity = .idle := by rw [execAddByte_changes hu]
      have hhost : u.host = rest := by rw [execAddByte_changes hu]
      refine (run_feed_byte (2 * bytes.length) ha hh' hu').trans (ih _ rest t hidle rfl ?_)
      have hback : { u.withHost (Pseudo.actions (.feed bytes) ++ rest) with host := rest } = u := by
        rw [← hhost]; rfl
      rwa [hback]
    · cases h
    · cases h

end Sys2Proof.Machine

/-! ## A SEND that gets every reply (R80, R95 to R99, R101) -/

namespace Sys2Proof.Machine

/-- The state SEND ends in when exchange by exchange a reply came, the last two of them `r0` and `r1` (R101). -/
def sendDone (cmd comp : Byte) (p : List Byte) (r0 r1 : Byte) (s : State) : State :=
  exchangeDone r0 r1
    (afterXfers (frameBytes cmd comp p ++ [0x00, 0x00]) (exchangeStart (sendEncoded cmd comp p s)))

section SendReplies
variable {cmd comp r0 r1 : Byte} {p rs : List Byte} {more : List LinkReply} {s : State}

theorem sendFrame_sendDone (hl : p.length ≤ 65535) (hrs : rs.length = 8 + p.length)
    (hpeer : s.peer = rs.map LinkReply.reply ++ [.reply r0, .reply r1] ++ more) :
    sendFrame cmd comp p s = .next (sendDone cmd comp p r0 r1 s) := by
  have hx := exchangeBytes_replies (bs := frameBytes cmd comp p) (s := exchangeStart (sendEncoded cmd comp p s))
    (hrs.trans (frameBytes_length cmd comp p).symm) hpeer
  rw [sendFrame_exchanges hl, hx, sendDone]

/-- What the frame and the two zero bytes leave of the replies fixed beforehand. -/
theorem sendDone_peer (hrs : rs.length = 8 + p.length)
    (hpeer : s.peer = rs.map LinkReply.reply ++ [.reply r0, .reply r1] ++ more) :
    (sendDone cmd comp p r0 r1 s).peer = more := by
  show s.peer.drop (frameBytes cmd comp p ++ [0x00, 0x00]).length = more
  rw [hpeer]
  exact List.drop_left' (by simp [hrs])

theorem sendDone_linkN : (sendDone cmd comp p r0 r1 s).linkN = s.linkN + (10 + p.length) := by
  show s.linkN + (frameBytes cmd comp p ++ [0x00, 0x00]).length = _
  rw [List.length_append, frameBytes_length, List.length_cons, List.length_singleton]
  omega

theorem sendDone_txFlen (hl : p.length ≤ 65535) : (sendDone cmd comp p r0 r1 s).txFlen.toNat = 8 + p.length := by
  have hplen := loadTx_txPlen_toNat (cmd := cmd) (comp := comp) (s := s) hl
  exact (encodeFrame_txFlen (p := p) (hplen.trans_le hl)).trans (by rw [hplen])

theorem sendDone_fvalid : (sendDone cmd comp p r0 r1 s).fvalid = true :=
  calc (sendDone cmd comp p r0 r1 s).fvalid
      _ = (exchangeStart (sendEncoded cmd comp p s)).fvalid := exchangeDone_fvalid r0 r1 _
      _ = (sendEncoded cmd comp p s).fvalid := exchangeStart_fvalid _
      _ = true := encodeFrame_fvalid p _

theorem sendDone_txf_beyond {a : Nat} (ha : 8 + p.length ≤ a) :
    (sendDone cmd comp p r0 r1 s).txf.read a = s.txf.read a :=
  (encodeFrame_read p (loadTx cmd comp p s) a).trans (if_neg (Nat.not_lt.2 ha))

theorem sendDone_txp_beyond {a : Nat} (ha : p.length ≤ a) :
    (sendDone cmd comp p r0 r1 s).txp.read a = s.txp.read a :=
  Memory.read_splice_outside (.inr (by rwa [Nat.zero_add]))

theorem sendFrame_sentWithReplies (hl : p.length ≤ 65535) (hrs : rs.length = 8 + p.length)
    (hpeer : s.peer = rs.map LinkReply.reply ++ [.reply r0, .reply r1] ++ more) :
    ∃ t, sendFrame cmd comp p s = .next t ∧
      SentWithReplies s t cmd comp p (frameBytes cmd comp p) r0 r1 more :=
  ⟨_, sendFrame_sendDone hl hrs hpeer, rfl, rfl, rfl,
    loadTx_txPlen_toNat (cmd := cmd) (comp := comp) (s := s) hl, loadTx_readRange cmd comp p s,
    encodeFrame_txf p (loadTx cmd comp p s), sendDone_txFlen hl,
    (List.append_assoc _ _ _).symm, sendDone_linkN, rfl, rfl, exchangeDone_rvalid r0 r1 _, sendDone_fvalid, rfl,
    rfl, sendDone_peer hrs hpeer, fun _ => sendDone_txp_beyond, fun _ => sendDone_txf_beyond⟩

end SendReplies

/-! ### The host's SEND of a frame (R80, R101; log 25) -/

theorem assignedCommand_iff_mem {cmd : Byte} :
    assignedCommand cmd = true ↔ cmd ∈ [0x01, 0x02, 0x04, 0x08, 0x0F] := by
  rw [assignedCommand_iff]
  simp

/-- A SEND of a frame is the SEND of its id, flag and payload where the id is assigned, and is refused where it is not. -/
theorem step_send_frameOf {s : State} {cmd comp : Byte} {p frame : List Byte} {rest : List HostAction}
    (ha : s.activity = .idle) (hh : s.host = .send frame :: rest) (hf : FrameOf frame cmd comp p) :
    step s = if assignedCommand cmd then sendFrame cmd comp p { s with host := rest }
      else .refused (.unassignedCommand cmd) := by
  obtain ⟨rfl, hl⟩ := frameOf_iff.1 hf
  have hread := readFrame_frameBytes cmd comp p [] hl
  rw [List.append_nil] at hread
  exact step_send ha hh hread

/-- Settles O50: a wire command and a SEND of a frame of an assigned id are both the SEND of an id, a flag and a payload, and with
every reply there that ends in `sendDone`. -/
theorem wireCommandsSendTheirFrame : Obligations.WireCommandsSendTheirFrame := by
  unfold Obligations.WireCommandsSendTheirFrame
  refine ⟨fun i s cmd comp p rs r0 r1 more hi hw hrs hpeer => ?_,
    fun s cmd comp p frame rs r0 r1 more rest ha hh hf hmem hrs hpeer => ?_,
    fun s cmd comp p frame rest ha hh hf hmem => ?_⟩
  · rw [exec_wireFields hi, encode_wireFields hi]
    exact sendFrame_sentWithReplies ((wf_wireFields hi).1 hw) hrs hpeer
  · rw [step_send_frameOf ha hh hf, if_pos (assignedCommand_iff_mem.2 hmem)]
    obtain ⟨rfl, hl⟩ := frameOf_iff.1 hf
    exact sendFrame_sentWithReplies (s := { s with host := rest }) hl hrs hpeer
  · rw [step_send_frameOf ha hh hf, if_neg (fun h => hmem (assignedCommand_iff_mem.1 h))]

end Sys2Proof.Machine

/-! ## The frame check, EXCHANGE and DECODE_STATUS (R91, R92, R94, R102) -/

namespace Sys2Proof.Machine

/-! ### The frame sum (R102) -/

/-- The sum of bytes does not depend on their order. -/
theorem byteSum_perm {p q : List Byte} (h : p.Perm q) : byteSum p = byteSum q := by
  induction h with
  | nil => rfl
  | cons b _ ih => rw [byteSum_cons, byteSum_cons, ih]
  | swap a b bs => simp only [byteSum_cons, Nat.add_left_comm]
  | trans _ _ ih₁ ih₂ => exact ih₁.trans ih₂

/-- Settles O14: a reordered payload has the same length and the same sum of bytes. -/
theorem frameSumIgnoresPayloadOrder : Obligations.FrameSumIgnoresPayloadOrder := by
  unfold Obligations.FrameSumIgnoresPayloadOrder
  intro cmd comp p q h
  rw [frameSum, frameSum, h.length_eq, byteSum_perm h]

/-! ### EXCHANGE with a reply to every byte (R91) -/

/-- What the frame and the two zero bytes leave of the replies fixed beforehand. -/
theorem afterXfers_peer_drop {bs rs : List Byte} {r0 r1 : Byte} {more : List LinkReply} {s : State}
    (hrs : rs.length = bs.length) (hp : s.peer = rs.map LinkReply.reply ++ [.reply r0, .reply r1] ++ more) :
    (afterXfers (bs ++ [0x00, 0x00]) s).peer = more := by
  show s.peer.drop (bs ++ [0x00, 0x00]).length = more
  rw [hp]
  exact List.drop_left' (by simp [hrs])

/-- Settles O23: EXCHANGE of a frame whose bytes are all answered ends in `exchangeDone` with the last two replies. -/
theorem exchangeTakesLastTwoReplies : Obligations.ExchangeTakesLastTwoReplies := by
  unfold Obligations.ExchangeTakesLastTwoReplies
  intro s frame rs r0 r1 more hv hl hr hrs hp
  have hlen : frame.length = s.txFlen.toNat := Memory.readRange_length hr
  have hsent : (frame ++ [0x00, 0x00]).length = s.txFlen.toNat + 2 := by rw [List.length_append, hlen]; rfl
  have hx : exchangeBytes frame (exchangeStart s) =
      exchangeDone r0 r1 (afterXfers (frame ++ [0x00, 0x00]) (exchangeStart s)) := exchangeBytes_replies hrs hp
  refine ⟨_, (exchangeOp_frame hv hr).trans (congrArg _ hx), rfl, rfl, exchangeDone_rvalid _ _ _, ?_, ?_,
    (List.append_assoc _ _ _).symm, afterXfers_peer_drop (s := exchangeStart s) hrs hp, rfl, rfl⟩
  · calc (exchangeDone r0 r1 (afterXfers (frame ++ [0x00, 0x00]) (exchangeStart s))).fvalid
      _ = (exchangeStart s).fvalid := exchangeDone_fvalid r0 r1 _
      _ = true := (exchangeStart_fvalid s).trans hv
  · exact (afterXfers_exchangeStart_txIdx (by omega)).trans hsent

/-! ### EXCHANGE step by step (R92) -/

/-- The state with EXCHANGE in progress step by step. -/
def inExchange (s : State) : State := { s with activity := .exchanging }

theorem step_inExchange (s : State) : step (inExchange s) = exchangeStep (inExchange s) :=
  step_other (fetch_exchanging rfl)

section OneLinkXfer
variable {s : State} {r : Byte}

theorem linkXfer_timeout (b : Byte) (h : s.nextReply = .timeout) : linkXfer b s = (.timeout, (linkXfer b s).2) :=
  Prod.ext h rfl

theorem linkXfer_reply (b : Byte) (h : s.nextReply = .reply r) : linkXfer b s = (.reply r, (linkXfer b s).2) :=
  Prod.ext h rfl

/-- `step(k)` of R92 below F sends TXF[k]. -/
theorem step_inExchange_frame {b : Byte} (hi : s.txIdx.toNat < s.txFlen.toNat)
    (hb : s.txf.read s.txIdx.toNat = some b) : step (inExchange s) = .next (exchangeFrameStep b (inExchange s)) := by
  have hb' : (inExchange s).txf.read (inExchange s).txIdx.toNat = some b := hb
  rw [step_inExchange, exchangeStep, if_pos (show (inExchange s).txIdx.toNat < (inExchange s).txFlen.toNat from hi), hb']

/-- `step(F)` of R92 sends the first zero byte. -/
theorem step_inExchange_first (hi : s.txIdx.toNat = s.txFlen.toNat) :
    step (inExchange s) = .next (exchangeFirstReply (inExchange s)) := by
  have hi' : (inExchange s).txIdx.toNat = (inExchange s).txFlen.toNat := hi
  rw [step_inExchange, exchangeStep, if_neg (Nat.not_lt.2 hi'.ge), if_pos hi']

/-- `step(F+1)` of R92 sends the second zero byte. -/
theorem step_inExchange_second (hi : s.txIdx.toNat = s.txFlen.toNat + 1) :
    step (inExchange s) = .next (exchangeSecondReply (inExchange s)) := by
  have hi' : (inExchange s).txIdx.toNat = (inExchange s).txFlen.toNat + 1 := hi
  rw [step_inExchange, exchangeStep, if_neg (by omega), if_neg (by omega), if_pos hi']

theorem run_one {t : State} (h : step s = .next t) : Host.Core.run Sys2Proof.core 1 s = .next t := run_succ 0 h

theorem bumpIdx_linkXfer_txIdx (b : Byte) (h : s.txIdx.toNat < 131071) :
    (bumpIdx (linkXfer b s).2).txIdx.toNat = s.txIdx.toNat + 1 := by
  have h1 : (1 : BitVec 17).toNat = 1 := rfl
  rw [bumpIdx_txIdx, linkXfer_txIdx, BitVec.toNat_add, h1]
  omega

end OneLinkXfer

/-- From TX_IDX = F on, the step form takes one step for each zero byte to the end of the whole form. -/
theorem run_exchangeReplies {s : State} (hl : s.txFlen.toNat ≤ 65543) (hi : s.txIdx.toNat = s.txFlen.toNat) :
    ∃ k, k ≤ 2 ∧ Host.Core.run Sys2Proof.core k (inExchange s) = .next (exchangeReplies s) := by
  have hfirst := step_inExchange_first hi
  cases h0 : s.nextReply with
  | timeout =>
    refine ⟨1, by omega, (run_one hfirst).trans ?_⟩
    rw [exchangeFirstReply, linkXfer_timeout 0x00 (s := inExchange s) h0, exchangeReplies, linkXfer_timeout 0x00 h0]
    rfl
  | reply r0 =>
    have hu : exchangeFirstReply (inExchange s) = inExchange { bumpIdx (linkXfer 0x00 s).2 with resp0 := r0 } := by
      rw [exchangeFirstReply, linkXfer_reply 0x00 (s := inExchange s) h0]
      rfl
    have hsecond := step_inExchange_second (s := { bumpIdx (linkXfer 0x00 s).2 with resp0 := r0 })
      ((bumpIdx_linkXfer_txIdx 0x00 (by omega)).trans (congrArg (· + 1) hi))
    refine ⟨2, le_rfl, (run_succ 1 (hfirst.trans (congrArg _ hu))).trans ((run_one hsecond).trans ?_)⟩
    rw [exchangeReplies, linkXfer_reply 0x00 h0]
    cases h1 : (bumpIdx (linkXfer 0x00 s).2).nextReply with
    | timeout =>
      rw [exchangeSecondReply,
        linkXfer_timeout 0x00 (s := inExchange { bumpIdx (linkXfer 0x00 s).2 with resp0 := r0 }) h1]
      dsimp only
      rw [linkXfer_timeout 0x00 h1]
      rfl
    | reply r1 =>
      rw [exchangeSecondReply,
        linkXfer_reply 0x00 (s := inExchange { bumpIdx (linkXfer 0x00 s).2 with resp0 := r0 }) h1]
      dsimp only
      rw [linkXfer_reply 0x00 h1]
      rfl

/-- From any byte of the frame on, the step form ends where the whole form ends, one step for each `LinkXfer`. -/
theorem run_exchangeBytes {bs : List Byte} {s : State} (hl : s.txFlen.toNat ≤ 65543)
    (hi : s.txIdx.toNat + bs.length = s.txFlen.toNat)
    (hr : s.txf.readRange s.txIdx.toNat bs.length = some bs) :
    ∃ k, k ≤ bs.length + 2 ∧ Host.Core.run Sys2Proof.core k (inExchange s) = .next (exchangeBytes bs s) := by
  induction bs generalizing s with
  | nil => exact run_exchangeReplies hl hi
  | cons b bs ih =>
    rw [List.length_cons] at hi
    have hstep := step_inExchange_frame (by omega) (Memory.read_of_readRange hr (k := 0) (by simp))
    cases h : s.nextReply with
    | timeout =>
      refine ⟨1, by omega, (run_one hstep).trans ?_⟩
      rw [exchangeFrameStep, linkXfer_timeout b (s := inExchange s) h, exchangeBytes, linkXfer_timeout b h]
      rfl
    | reply r =>
      have hidx := bumpIdx_linkXfer_txIdx (s := s) b (by omega)
      have hrest : s.txf.readRange (s.txIdx.toNat + 1) bs.length = some bs :=
        Memory.readRange_drop (us := [b]) (by rwa [List.length_singleton, Nat.add_comm])
      obtain ⟨k, hk, hrun⟩ := ih (s := bumpIdx (linkXfer b s).2) hl
        (by rw [hidx, bumpIdx_txFlen, linkXfer_txFlen]; omega) (by rw [hidx]; exact hrest)
      have hu : exchangeFrameStep b (inExchange s) = inExchange (bumpIdx (linkXfer b s).2) := by
        rw [exchangeFrameStep, linkXfer_reply b (s := inExchange s) h]
        rfl
      refine ⟨k + 1, by rw [List.length_cons]; omega, (run_succ k (hstep.trans (congrArg _ hu))).trans (hrun.trans ?_)⟩
      rw [exchangeBytes, linkXfer_reply b h]

/-- Settles O27: the step form starts where the whole form starts, with TX_IDX = 0, and each of its steps is one `LinkXfer` of the
whole form. -/
theorem exchangeStepFormAgrees : Obligations.ExchangeStepFormAgrees := by
  unfold Obligations.ExchangeStepFormAgrees
  intro s frame _ hv hl hr
  have hlen : frame.length = s.txFlen.toNat := Memory.readRange_length hr
  obtain ⟨k, hk, hrun⟩ := run_exchangeBytes (bs := frame) (s := exchangeStart s) hl
    (by rw [hlen]; exact Nat.zero_add _) (by rw [hlen]; exact hr)
  refine ⟨k, hk, ?_⟩
  rw [exchangeBegin, if_pos hv]
  exact hrun.trans (exchangeOp_frame hv hr).symm

/-! ### DECODE_STATUS (R94) -/

/-- COND that is the flags byte names the flags that are set (R20, R21). -/
theorem conditions_flags (flags : Byte) :
    conditions (flags.setWidth 10) = (flagNames.filter fun p => flags.getLsbD p.1).map (·.2) := by
  have hflag : ∀ p ∈ flagNames, (flags.setWidth 10).getLsbD p.1 = flags.getLsbD p.1 := by
    intro p hp
    have hlt : p.1 < 10 := (by decide : ∀ p ∈ flagNames, p.1 < 10) p hp
    rw [BitVec.getLsbD_setWidth, decide_eq_true hlt, Bool.true_and]
  have htop : ([(8, .ok), (9, .notConnected)] : List (Nat × Condition)).filter
      (fun p => (flags.setWidth 10).getLsbD p.1) = [] := by simp
  rw [conditions, show condNames = flagNames ++ [(8, .ok), (9, .notConnected)] from rfl, List.filter_append, htop,
    List.append_nil, List.filter_congr hflag]

theorem execDecodeStatus_pair {s : State} (h : s.rvalid = true) :
    execDecodeStatus s = .next (State.endOk { s with cond := condOf s.resp0 s.resp1 }) := if_pos h

theorem execDecodeStatus_notReady {s : State} (h : s.rvalid = false) :
    execDecodeStatus s = .next (State.raise .notReady none s) := if_neg (by rw [h]; exact Bool.false_ne_true)

/-- Settles O28: without a pair DECODE_STATUS faults, and with one COND is `condOf`, which looks at the keepalive first. -/
theorem decodeStatusNamesConditions : Obligations.DecodeStatusNamesConditions := by
  unfold Obligations.DecodeStatusNamesConditions
  refine ⟨fun s h => execDecodeStatus_notReady h, fun s h => ⟨condOf s.resp0 s.resp1, execDecodeStatus_pair h, ?_, ?_, ?_⟩⟩
  · rintro ⟨h80, h81⟩
    have hdead : keepaliveLive s.resp0 = false :=
      Bool.eq_false_iff.2 fun hk => ((keepaliveLive_iff _).1 hk).elim h80 h81
    rw [condOf_notLive _ hdead]
    exact ⟨rfl, by decide⟩
  · intro hk h0
    rw [h0, condOf_ok ((keepaliveLive_iff _).2 hk)]
    exact ⟨rfl, by decide⟩
  · intro hk h0
    rw [condOf_flags ((keepaliveLive_iff _).2 hk) h0]
    exact ⟨BitVec.toNat_setWidth_of_le (by decide), conditions_flags _⟩

/-! ### A wire command ends, whatever the link peer answers (R101, R255) -/

/-- SEND ends as the EXCHANGE of its frame ends. -/
theorem sendFrame_sentAndEnded {cmd comp : Byte} {p : List Byte} (s : State) (hl : p.length ≤ 65535) :
    ∃ t, sendFrame cmd comp p s = .next t ∧ SentAndEnded s t (frameBytes cmd comp p) := by
  have hx := sendFrame_exchanges (cmd := cmd) (comp := comp) (s := s) hl
  have hchanges := sendFrame_changes hx
  obtain ⟨k, hpos, hk, -, hsent, hend⟩ := exchangeBytes_ends (bs := frameBytes cmd comp p) (sendEncoded cmd comp p s)
    (by rw [frameBytes_length]; omega)
  have hidle : (exchangeBytes (frameBytes cmd comp p) (exchangeStart (sendEncoded cmd comp p s))).activity = .idle := by
    rw [hchanges]
  refine ⟨_, hx, k, ?_, hidle, hpos, hk, hsent, ?_⟩
  · unfold OnlyTxChanged
    rw [hidle]
    exact hchanges
  · rcases hend with ⟨hk, hv, hr, -⟩ | ⟨hv, hr, -⟩
    · exact .inl ⟨hk, hv, hr⟩
    · exact .inr ⟨hv, hr⟩

/-- Settles O51: a wire command and a SEND of a frame of an assigned id are both the SEND of an id, a flag and a payload, and that
ends with its EXCHANGE. -/
theorem wireCommandsAlwaysEnd : Obligations.WireCommandsAlwaysEnd := by
  unfold Obligations.WireCommandsAlwaysEnd
  refine ⟨fun i s cmd comp p hi hw => ?_, fun s cmd comp p frame rest ha hh hf hmem => ?_⟩
  · rw [exec_wireFields hi, encode_wireFields hi]
    exact sendFrame_sentAndEnded s ((wf_wireFields hi).1 hw)
  · rw [step_send_frameOf ha hh hf, if_pos (assignedCommand_iff_mem.2 hmem)]
    obtain ⟨rfl, hl⟩ := frameOf_iff.1 hf
    exact sendFrame_sentAndEnded { s with host := rest } hl

end Sys2Proof.Machine

/-! ## The parser takes a whole packet, and what ENCODE built is one (R28, R35, R104, R132, R133) -/

namespace Sys2Proof.Machine

/-! ### ADD_BYTE stores the next byte of a packet -/

/-- From a parser in shape ADD_BYTE answers a next state, whatever the byte. -/
theorem ParserShape.execAddByte_answers {s : State} (h : ParserShape s) : ∃ t, Machine.execAddByte s = .next t := by
  rw [Machine.execAddByte, if_pos (show s.rxState = .complete ∨ s.rxN.toNat < BufName.size .rxb from h.room)]
  cases hq : s.rxState with
  | empty | preamblePartial =>
    simp only [rxByte, hq]
    split <;> exact ⟨_, rfl⟩
  | preambleDone => exact ⟨_, rxByte_preambleDone _ hq⟩
  | headerPartial =>
    by_cases hn : s.rxN = 5
    · obtain ⟨lo, hlo⟩ := Option.isSome_iff_exists.1 (h.stored 4 (by rw [hn]; decide))
      exact ⟨_, rxByte_header_last hq hn hlo⟩
    · exact ⟨_, rxByte_header hq hn⟩
  | headerDone | dataPartial =>
    have h6 : 6 ≤ s.rxN.toNat := by
      have := h.at_of hq
      simp only [RxState.At] at this
      omega
    have hroom : s.rxN.toNat < 65545 := h.room.resolve_left (by rw [hq]; decide)
    exact ⟨_, rxByte_data (by rw [hq]; decide) h6 hroom (h.dataSize h6)⟩
  | dataDone => exact ⟨_, rxByte_tail.1 hq⟩
  | checksumPartial => exact ⟨_, rxByte_tail.2.1 hq⟩
  | checksumDone => exact ⟨_, rxByte_tail.2.2.1 hq⟩
  | responsePartial => exact ⟨_, rxByte_tail.2.2.2 hq⟩
  | complete =>
    rw [rxByte, hq]
    exact ⟨_, rfl⟩

/-- A byte that is the magic where the preamble stands, and for which the packet has room, is stored without a fault. -/
theorem ParserShape.execAddByte_stores {s t : State} (h : ParserShape s) (ht : Machine.execAddByte s = .next t)
    (hm0 : s.rxN.toNat = 0 → s.rxIn = 0x88) (hm1 : s.rxN.toNat = 1 → s.rxIn = 0x33) (hc : s.rxState ≠ .complete) :
    t.rxb = (rxStore s.rxIn s).rxb ∧ t.rxN = (rxStore s.rxIn s).rxN ∧ t.fault = s.fault := by
  rcases rxByte_next (execAddByte_next ht) with ⟨hq, hb, -⟩ | ⟨hq, hb, -⟩ | ⟨hq, -⟩ | ⟨q, e⟩ | ⟨q, e⟩
  · exact absurd (hm0 (h.at_of hq)) hb
  · exact absurd (hm1 (h.at_of hq)) hb
  · exact absurd hq hc
  · rw [e]
    exact ⟨rfl, rfl, rfl⟩
  · rw [e]
    exact ⟨rfl, rfl, rfl⟩

/-- RX_SUM goes on meaning the sum of the header and data bytes (R132), whatever RXB lists. -/
theorem ByteTaken.keeps_sum {b : Byte} {s t : State} (hb : ByteTaken b s t) (h : ParserShape s) (hs : ParserSum s) :
    ParserSum t := by
  cases hb with
  | ignored ht => exact ht ▸ hs.keep rfl rfl fun _ _ => rfl
  | resync ht => exact ht ▸ (rxOk_rxClear s).sum.keep rfl rfl fun _ _ => rfl
  | full ht => exact ht ▸ hs.keep rfl rfl fun _ _ => rfl
  | stored q _ _ _ hpos _ ht =>
    obtain ⟨hn, hk⟩ := summedBytes_rxStore_unsummed (b := b) h hpos
    exact ht ▸ hs.keep rfl hn fun k hk' => rxStore_read_ne b s (by omega)
  | summed q _ hpos hroom ht =>
    obtain ⟨hn, hk⟩ := summedBytes_rxStore_summed (b := b) h hpos hroom
    exact ht ▸ hs.snoc rfl hn (fun k hk' => rxStore_read_ne b s (by omega)) (by rw [hk]; exact rxStore_read_self b s)

/-! ### A packet byte by byte -/

/-- Any piece of what a buffer holds is read as a range. -/
theorem Holds.slice {m : Memory 8} {bs : List Byte} {i n : Nat} (h : Holds m 0 bs) (hn : i + n ≤ bs.length) :
    m.readRange i n = some ((bs.drop i).take n) := by
  refine Memory.readRange_eq_some.2 ⟨by rw [List.length_take, List.length_drop]; omega, fun k hk => ?_⟩
  have hr := Memory.read_of_readRange h (k := i + k) (by omega)
  rw [Nat.zero_add] at hr
  rw [hr, List.getElem?_take_of_lt hk, List.getElem?_drop]

theorem Holds.snoc {m : Memory 8} {bs : List Byte} {b : Byte} (h : Holds m 0 bs) (hb : m.read bs.length = some b) :
    Holds m 0 (bs ++ [b]) := by
  rw [Holds, List.length_append]
  exact Memory.readRange_append h (by simp [Memory.readRange, hb])

/-- The bytes the parser takes for one packet (R28): the magic, a header with the size `lo + 256 * hi`, that many data
bytes, two check bytes and two responses. -/
structure IsPacket (pkt : List Byte) (lo hi : Byte) : Prop where
  magic0 : pkt[0]? = some 0x88
  magic1 : pkt[1]? = some 0x33
  sizeLo : pkt[4]? = some lo
  sizeHi : pkt[5]? = some hi
  length : pkt.length = 10 + (lo.toNat + 256 * hi.toNat)

/-- The parser has stored exactly these bytes since it was EMPTY, and has summed those it has to sum. -/
structure Taken (bs : List Byte) (s : State) : Prop where
  shape : ParserShape s
  sum : ParserSum s
  count : s.rxN.toNat = bs.length
  bytes : Holds s.rxb 0 bs

/-- Once the two size bytes are in, they are the declared size. -/
theorem Taken.declaredSize {bs : List Byte} {s : State} {lo hi : Byte} (h : Taken bs s) (h4 : bs[4]? = some lo)
    (h5 : bs[5]? = some hi) : declaredSize s = lo.toNat + 256 * hi.toNat := by
  have hl : 5 < bs.length := (List.getElem?_eq_some_iff.1 h5).1
  have hlo := (Memory.read_of_readRange h.bytes (k := 4) (by omega)).trans h4
  have hhi := (Memory.read_of_readRange h.bytes hl).trans h5
  rw [Machine.declaredSize, dataSize_of_read hlo hhi, Option.getD_some]

/-- One byte of a packet. -/
theorem Taken.addByte {pre post : List Byte} {lo hi b : Byte} {s t : State} (h : Taken pre s)
    (hp : IsPacket (pre ++ b :: post) lo hi) (ht : execAddByte { s with rxIn := b } = .next t) :
    Taken (pre ++ [b]) t ∧ t.fault = s.fault := by
  have hshape : ParserShape { s with rxIn := b } := h.shape.congr rfl rfl rfl
  have hb : (pre ++ b :: post)[pre.length]? = some b := by simp
  have hc : s.rxState ≠ .complete := by
    intro hc
    have hn : 10 + Machine.declaredSize s ≤ s.rxN.toNat := h.shape.at_of hc
    have hn' := h.count
    have h4 := hp.sizeLo
    have h5 := hp.sizeHi
    rw [List.getElem?_append_left (by omega)] at h4 h5
    have hl := hp.length
    rw [h.declaredSize h4 h5] at hn
    rw [List.length_append, List.length_cons] at hl
    omega
  obtain ⟨hrxb, hrxN, hfault⟩ := hshape.execAddByte_stores ht
    (fun h0 => Option.some.inj (by rw [← hb, ← h.count, h0, hp.magic0]))
    (fun h1 => Option.some.inj (by rw [← hb, ← h.count, h1, hp.magic1])) hc
  have htaken := hshape.execAddByte ht
  refine ⟨⟨htaken.keeps_shape hshape, htaken.keeps_sum hshape h.sum, ?_, ?_⟩, hfault⟩
  · rw [hrxN, hshape.rxStore_rxN, List.length_append]
    exact congrArg (· + 1) h.count
  · have hold : Holds (rxStore b { s with rxIn := b }).rxb 0 pre :=
      (Memory.readRange_congr fun j hj => rxStore_read_ne b { s with rxIn := b } (by rw [h.count]; omega)).trans h.bytes
    rw [hrxb]
    exact hold.snoc (h.count ▸ rxStore_read_self b { s with rxIn := b })

/-- FEED of the rest of a packet stores all of it without a fault. -/
theorem Taken.feed {pre post : List Byte} {lo hi : Byte} {s : State} (h : Taken pre s) (hp : IsPacket (pre ++ post) lo hi) :
    ∃ t, feed post s = .next t ∧ Taken (pre ++ post) t ∧ t.fault = s.fault := by
  induction post generalizing pre s with
  | nil => exact ⟨s, rfl, by rwa [List.append_nil], rfl⟩
  | cons b post ih =>
    obtain ⟨u, hu⟩ := (h.shape.congr (t := { s with rxIn := b }) rfl rfl rfl).execAddByte_answers
    obtain ⟨htaken, hfault⟩ := h.addByte hp hu
    have happ : pre ++ b :: post = pre ++ [b] ++ post := by simp
    rw [happ] at hp ⊢
    obtain ⟨t, ht, hall, hfault'⟩ := ih htaken hp
    exact ⟨t, (feed_cons hu).trans ht, hall, hfault'.trans hfault⟩

/-- An EMPTY parser takes a whole packet. -/
theorem feed_packet {pkt : List Byte} {lo hi : Byte} {q : State} (hp : IsPacket pkt lo hi) (hq : q.rxState = .empty)
    (hn : q.rxN = 0) (hs : q.rxSum = 0) : ∃ t, feed pkt q = .next t ∧ Taken pkt t ∧ t.fault = q.fault := by
  have h0 : q.rxN.toNat = 0 := by rw [hn]; rfl
  have hsum : summedBytes q = 0 := by rw [summedBytes, h0, if_pos (by omega)]
  exact Taken.feed (pre := []) ⟨.of_empty hn hq, ⟨[], by rw [hsum]; rfl, hs⟩, h0, rfl⟩ hp

/-! ### What the parser holds after a packet -/

section WholePacket
variable {pkt : List Byte} {lo hi : Byte} {t : State}

theorem Taken.packet_size (h : Taken pkt t) (hp : IsPacket pkt lo hi) :
    Machine.declaredSize t = lo.toNat + 256 * hi.toNat := h.declaredSize hp.sizeLo hp.sizeHi

theorem Taken.packet_rxN (h : Taken pkt t) (hp : IsPacket pkt lo hi) : t.rxN.toNat = 10 + Machine.declaredSize t := by
  rw [h.count, hp.length, h.packet_size hp]

theorem Taken.packet_complete (h : Taken pkt t) (hp : IsPacket pkt lo hi) : t.rxState = .complete :=
  h.shape.state.trans (rxStateOf_eq_iff.2 (h.packet_rxN hp).ge)

/-- Every view of a whole packet is valid and reads as its piece of the packet (R28). -/
theorem Taken.packet_readView (h : Taken pkt t) (hp : IsPacket pkt lo hi) (v : View) :
    t.readView v = .ok (viewNumbers v ((pkt.drop (viewBytes (lo.toNat + 256 * hi.toNat) v).1).take
      (viewBytes (lo.toNat + 256 * hi.toNat) v).2)) := by
  have hn := h.packet_rxN hp
  have hv : t.viewValid v = true := by
    cases v with
    | type | comp | dsize => exact decide_eq_true (by omega)
    | data | chk | resp0 | resp1 => exact (h.shape.viewValid_sized rfl).2 ⟨by omega, by omega⟩
  have hbelow := h.shape.view_below hv
  rw [h.count] at hbelow
  have hsize : t.dataSize.getD 0 = Machine.declaredSize t := rfl
  rw [State.readView, if_pos hv, hsize, h.bytes.slice hbelow, h.packet_size hp]

/-- RX_SUM is the sum of the packet from the command to the last data byte (R132). -/
theorem Taken.packet_rxSum (h : Taken pkt t) (hp : IsPacket pkt lo hi) :
    t.rxSum = BitVec.ofNat 16 (byteSum ((pkt.drop 2).take (4 + (lo.toNat + 256 * hi.toNat)))) := by
  have hn := h.packet_rxN hp
  have hs : summedBytes t = 4 + (lo.toNat + 256 * hi.toNat) := by
    rw [summedBytes, if_neg (by omega), hn, h.packet_size hp]
    omega
  obtain ⟨bs, hbs, hsum⟩ := h.sum
  rw [hs, h.bytes.slice (by rw [hp.length]; omega)] at hbs
  rw [hsum, Option.some.inj hbs]

/-- The check bytes stand behind the data. -/
theorem Taken.packet_receivedCheck (h : Taken pkt t) (hp : IsPacket pkt lo hi) {cl ch : Byte}
    (hl : pkt[6 + (lo.toNat + 256 * hi.toNat)]? = some cl) (hh : pkt[7 + (lo.toNat + 256 * hi.toNat)]? = some ch) :
    t.receivedCheck = some (le16 cl ch) := by
  have hn := h.packet_rxN hp
  have hread : ∀ {i b}, pkt[i]? = some b → t.rxb.read i = some b := fun {i b} hb => by
    have := Memory.read_of_readRange h.bytes (List.getElem?_eq_some_iff.1 hb).1
    rwa [Nat.zero_add, hb] at this
  refine receivedCheck_of_read (h.shape.dataSize (by omega)) ?_ ?_ <;> rw [h.packet_size hp]
  · exact hread hl
  · exact hread hh

end WholePacket

/-- With the check bytes in, VERIFY reports whether they are RX_SUM (R133). -/
theorem execVerify_check {s : State} {chk : BitVec 16} (hc : s.rxState.checksumIn = true)
    (hr : s.receivedCheck = some chk) :
    execVerify s = .next (State.endOk { s with rxStat := verifyStat (chk == s.rxSum) }) := by
  simp only [execVerify, hc, hr, if_true]

/-! ### The frame ENCODE built, and two responses (R104) -/

section FrameAndResponses
variable (cmd comp : Byte) (p : List Byte) (r0 r1 : Byte)

theorem frame_responses_eq : frameBytes cmd comp p ++ [r0, r1] =
    0x88 :: 0x33 :: cmd :: comp :: lo8 p.length :: hi8 p.length ::
      (p ++ [lo8 (frameSum cmd comp p).toNat, hi8 (frameSum cmd comp p).toNat, r0, r1]) := by
  simp [frameBytes]

/-- What follows the payload: the check and the responses. -/
theorem frame_responses_tail : (frameBytes cmd comp p ++ [r0, r1]).drop (6 + p.length) =
    [lo8 (frameSum cmd comp p).toNat, hi8 (frameSum cmd comp p).toNat, r0, r1] := by
  rw [frame_responses_eq, Nat.add_comm]
  exact List.drop_left

/-- What the parser sums: the header from the command on, and the payload. -/
theorem frame_responses_summed : ((frameBytes cmd comp p ++ [r0, r1]).drop 2).take (4 + p.length) =
    cmd :: comp :: lo8 p.length :: hi8 p.length :: p := by
  rw [frame_responses_eq, Nat.add_comm]
  show cmd :: comp :: lo8 p.length :: hi8 p.length :: (p ++ _).take p.length = _
  rw [List.take_left]

theorem frame_responses_isPacket (hl : p.length ≤ 65535) :
    IsPacket (frameBytes cmd comp p ++ [r0, r1]) (lo8 p.length) (hi8 p.length) where
  magic0 := rfl
  magic1 := rfl
  sizeLo := rfl
  sizeHi := rfl
  length := by
    rw [lo8_add_hi8 (by omega), List.length_append, frameBytes_length, List.length_cons, List.length_singleton]
    omega

variable {cmd comp p r0 r1} {t : State}

/-- The views of the parsed frame are the command, the flag, the size, the payload and the check that ENCODE put there. -/
theorem Taken.frame_views (h : Taken (frameBytes cmd comp p ++ [r0, r1]) t) (hl : p.length ≤ 65535) :
    t.readView .type = .ok [cmd.toNat] ∧ t.readView .comp = .ok [comp.toNat] ∧ t.readView .dsize = .ok [p.length] ∧
      t.readView .data = .ok (p.map BitVec.toNat) ∧ t.readView .chk = .ok [(frameSum cmd comp p).toNat] := by
  have hview := h.packet_readView (frame_responses_isPacket cmd comp p r0 r1 hl)
  have hsize : (lo8 p.length).toNat + 256 * (hi8 p.length).toNat = p.length := lo8_add_hi8 (by omega)
  rw [hsize, frame_responses_eq] at hview
  refine ⟨hview .type, hview .comp, (hview .dsize).trans ?_, (hview .data).trans ?_, (hview .chk).trans ?_⟩
  · show Except.ok [(le16 (lo8 p.length) (hi8 p.length)).toNat] = _
    rw [le16_toNat, hsize]
  · show Except.ok (((p ++ _).take p.length).map BitVec.toNat) = _
    rw [List.take_left]
  · rw [← frame_responses_eq]
    show Except.ok (viewNumbers .chk ((List.drop (6 + p.length) _).take 2)) = _
    rw [frame_responses_tail]
    show Except.ok [(le16 (lo8 (frameSum cmd comp p).toNat) (hi8 (frameSum cmd comp p).toNat)).toNat] = _
    rw [le16_frameSum]

/-- The parsed frame verifies: its check is the sum of what the parser summed. -/
theorem Taken.frame_verifies (h : Taken (frameBytes cmd comp p ++ [r0, r1]) t) (hl : p.length ≤ 65535) :
    ∃ u, execVerify t = .next u ∧ u.cok = true := by
  have hp := frame_responses_isPacket cmd comp p r0 r1 hl
  have hsize : (lo8 p.length).toNat + 256 * (hi8 p.length).toNat = p.length := lo8_add_hi8 (by omega)
  obtain ⟨hcl, hch⟩ := frameBytes_check cmd comp p
  have hlen := frameBytes_length cmd comp p
  have hr := h.packet_receivedCheck hp (by rw [hsize, List.getElem?_append_left (by omega), hcl])
    (by rw [hsize, List.getElem?_append_left (by omega), hch])
  have hsum : t.rxSum = frameSum cmd comp p := by
    rw [h.packet_rxSum hp, hsize, frame_responses_summed, frameSum]
    simp only [byteSum_cons, Nat.add_assoc]
  refine ⟨_, execVerify_check (by rw [h.packet_complete hp]; rfl) hr, ?_⟩
  show (verifyStat _).getLsbD 1 = true
  rw [verifyStat_bit1, le16_frameSum, hsum, beq_self_eq_true]

end FrameAndResponses

/-- Settles O38: ENCODE's frame and any two responses are a packet, which an EMPTY parser takes whole. -/
theorem encodedFrameParsesAndVerifies : Obligations.EncodedFrameParsesAndVerifies := by
  unfold Obligations.EncodedFrameParsesAndVerifies
  intro s e q p frame r0 r1 hl hp he hframe hq hn hs
  have hlen : p.length = s.txPlen.toNat := Memory.readRange_length hp
  cases he.symm.trans (encodeOp_payload hl hp)
  rw [encodeFrame_txFlen hl, ← hlen, encodeFrame_txf] at hframe
  cases hframe
  obtain ⟨t, ht, htaken, hfault⟩ := feed_packet (frame_responses_isPacket s.txCmd s.txComp p r0 r1 (by omega)) hq hn hs
  obtain ⟨htype, hcomp, hdsize, hdata, hchk⟩ := htaken.frame_views (by omega)
  exact ⟨t, ht, htaken.packet_complete (frame_responses_isPacket _ _ p r0 r1 (by omega)), hfault, htype, hcomp, hdsize,
    hdata, hchk, htaken.frame_verifies (by omega)⟩

end Sys2Proof.Machine

/-! ## The packet parser byte by byte, VERIFY, RX_RESET and the whole packet (R120 to R136) -/

namespace Sys2Proof.Machine

/-! ### A byte stored (R120) -/

/-- Where the byte rule stores RX_IN without summing it, so does ADD_BYTE. -/
theorem exec_addByte_stores {s : State} {q : RxState} (hn : s.rxN.toNat < 65545)
    (hb : rxByte s.rxIn s = .next (State.endOk { rxStore s.rxIn s with rxState := q })) :
    ∃ t, exec .addByte s = .next t ∧ StoresByte s t q s.rxSum :=
  ⟨_, (execAddByte_rxByte hn).trans hb, rfl, rxStore_read_self s.rxIn s, fun _ ha => rxStore_read_ne s.rxIn s ha⟩

/-- Where the byte rule stores and sums RX_IN, so does ADD_BYTE. -/
theorem exec_addByte_sums {s : State} {q : RxState} (hn : s.rxN.toNat < 65545)
    (hb : rxByte s.rxIn s = .next (State.endOk { rxStoreSum s.rxIn s with rxState := q })) :
    ∃ t, exec .addByte s = .next t ∧ StoresByte s t q (s.rxSum + s.rxIn.setWidth 16) :=
  ⟨_, (execAddByte_rxByte hn).trans hb, rfl, rxStore_read_self s.rxIn s, fun _ ha => rxStore_read_ne s.rxIn s ha⟩

/-! ### The preamble (R121, R122) -/

theorem rxByte_empty_magic {s : State} (h : s.rxState = .empty) :
    rxByte 0x88 s = .next (State.endOk { rxStore 0x88 s with rxState := .preamblePartial }) := by
  rw [rxByte, h]
  rfl

theorem rxByte_empty_other {b : Byte} {s : State} (h : s.rxState = .empty) (hb : b ≠ 0x88) :
    rxByte b s = .next (State.endOk s) := by
  rw [rxByte, h]
  exact if_neg hb

theorem rxByte_preamblePartial_magic {s : State} (h : s.rxState = .preamblePartial) :
    rxByte 0x33 s = .next (State.endOk { rxStore 0x33 s with rxState := .preambleDone }) := by
  rw [rxByte, h]
  rfl

theorem rxByte_preamblePartial_other {b : Byte} {s : State} (h : s.rxState = .preamblePartial) (hb : b ≠ 0x33) :
    rxByte b s = .next (State.endOk (rxClear s)) := by
  rw [rxByte, h]
  exact if_neg hb

/-- Settles O29: a magic byte is stored, another one is ignored in EMPTY and clears the parser in PREAMBLE_PARTIAL. -/
theorem addByteHuntsForPreamble : Obligations.AddByteHuntsForPreamble := by
  unfold Obligations.AddByteHuntsForPreamble
  intro s
  refine ⟨fun hq hn => ?_, fun hq hn => ?_⟩
  · have hroom : s.rxN.toNat < 65545 := by rw [hn]; decide
    refine ⟨fun hb => exec_addByte_stores hroom ?_, fun hb => ?_⟩
    · rw [hb]
      exact rxByte_empty_magic hq
    · exact (execAddByte_rxByte hroom).trans (rxByte_empty_other hq hb)
  · have hroom : s.rxN.toNat < 65545 := by rw [hn]; decide
    refine ⟨fun hb => exec_addByte_stores hroom ?_, fun hb => ?_⟩
    · rw [hb]
      exact rxByte_preamblePartial_magic hq
    · exact ⟨_, (execAddByte_rxByte hroom).trans (rxByte_preamblePartial_other hq hb), rfl⟩

/-! ### Header, data, check and responses (R123 to R130) -/

/-- Settles O30: a header byte is stored and summed, and the sixth byte's state is decided by the size it completes. -/
theorem addByteTakesHeader : Obligations.AddByteTakesHeader := by
  unfold Obligations.AddByteTakesHeader
  intro s
  refine ⟨fun hq hn => ?_, fun hq hn => ?_, fun lo hq hn hlo => ?_⟩
  · exact exec_addByte_sums (by rw [hn]; decide) (rxByte_preambleDone _ hq)
  · rcases hn with hn | hn <;>
      exact exec_addByte_sums (by rw [hn]; decide) (rxByte_header hq (by rw [hn]; decide))
  · exact exec_addByte_sums (by rw [hn]; decide) (rxByte_header_last hq hn hlo)

/-- Settles O31: a data byte is stored and summed, and RX_N says whether it is the last of the declared size. -/
theorem addByteTakesData : Obligations.AddByteTakesData := by
  unfold Obligations.AddByteTakesData
  intro s lo hi hlo hhi d
  have hd : s.dataSize = some d := dataSize_of_read hlo hhi
  have hd_lt : d < 65536 := dataSize_lt hd
  refine ⟨fun hq hn _ => ?_, fun hq h7 hle => ?_⟩
  · have hn6 : s.rxN.toNat = 6 := by rw [hn]; rfl
    have hlast : d = 1 ↔ s.rxN.toNat + 1 = 6 + d := by omega
    simp only [hlast]
    exact exec_addByte_sums (by omega) (rxByte_data (.inl hq) (by omega) (by omega) hd)
  · exact exec_addByte_sums (by omega) (rxByte_data (.inr hq) (by omega) (by omega) hd)

/-- Settles O32: past the data a byte is stored only, and the parser moves on by one state. -/
theorem addByteTakesCheckAndResponses : Obligations.AddByteTakesCheckAndResponses := by
  unfold Obligations.AddByteTakesCheckAndResponses
  intro s hroom
  obtain ⟨hdone, hpartial, hcheck, hresp⟩ := @rxByte_tail s.rxIn s
  exact ⟨fun hq => exec_addByte_stores hroom (hdone hq), fun hq => exec_addByte_stores hroom (hpartial hq),
    fun hq => exec_addByte_stores hroom (hcheck hq), fun hq => exec_addByte_stores hroom (hresp hq)⟩

/-! ### COMPLETE, and how ADD_BYTE ends (R120, R131) -/

/-- Settles O33: in COMPLETE the byte rule takes the fault AlreadyComplete. -/
theorem addByteInCompleteFaults : Obligations.AddByteInCompleteFaults := by
  unfold Obligations.AddByteInCompleteFaults
  exact fun _ hq => execAddByte_complete hq

/-- Outside COMPLETE an ADD_BYTE that answers ends `ok`. -/
theorem execAddByte_ok {s t : State} (h : execAddByte s = .next t) (hq : s.rxState ≠ .complete) :
    t.result = some .ok ∧ t.fault = s.fault := by
  rcases rxByte_next (execAddByte_next h) with ⟨-, -, e⟩ | ⟨-, -, e⟩ | ⟨hc, -⟩ | ⟨q, e⟩ | ⟨q, e⟩
  · rw [e]; exact ⟨rfl, rfl⟩
  · rw [e]; exact ⟨rfl, rfl⟩
  · exact absurd hc hq
  · rw [e]; exact ⟨rfl, rfl⟩
  · rw [e]; exact ⟨rfl, rfl⟩

/-- Only the resync to EMPTY touches RX_STAT (R122). -/
theorem execAddByte_rxStat {s t : State} (h : execAddByte s = .next t) (hq : t.rxState ≠ .empty) :
    t.rxStat = s.rxStat := by
  rcases rxByte_next (execAddByte_next h) with ⟨-, -, e⟩ | ⟨-, -, e⟩ | ⟨-, e⟩ | ⟨q, e⟩ | ⟨q, e⟩
  · rw [e]; rfl
  · exact absurd (by rw [e]; rfl) hq
  · rw [e]; rfl
  · rw [e]; rfl
  · rw [e]; rfl

/-- Settles O34: a parser in shape has what its byte rule reads, so ADD_BYTE answers, and the answer is one of its five ends. -/
theorem addByteCompletesInEveryGoodState : Obligations.AddByteCompletesInEveryGoodState := by
  unfold Obligations.AddByteCompletesInEveryGoodState
  intro s h
  obtain ⟨t, ht⟩ := h.execAddByte_answers
  exact ⟨t, ht, execAddByte_ok ht, execAddByte_changes ht, execAddByte_rxStat ht⟩

/-! ### VERIFY (R133) and RX_RESET (R134) -/

theorem RxState.checksumIn_iff {q : RxState} :
    q.checksumIn = true ↔ q = .checksumDone ∨ q = .responsePartial ∨ q = .complete := by
  cases q <;> decide

/-- With the check bytes in, VERIFY changes RX_STAT only, and COK is the comparison of the two numbers. -/
theorem exec_verify_reports {s : State} {cl ch : Byte} (hc : s.rxState.checksumIn = true)
    (hr : s.receivedCheck = some (le16 cl ch)) :
    ∃ t, exec .verify s = .next t ∧
      t = { s with rxStat := t.rxStat, result := some .ok, activity := .idle } ∧
      t.cvalid = true ∧ (t.cok = true ↔ cl.toNat + 256 * ch.toNat = s.rxSum.toNat) := by
  refine ⟨_, execVerify_check hc hr, rfl, verifyStat_bit0 _, ?_⟩
  show (verifyStat _).getLsbD 1 = true ↔ _
  rw [verifyStat_bit1, beq_iff_eq, ← BitVec.toNat_inj, le16_toNat]

/-- Settles O35: before the check bytes are in VERIFY faults, and from then on it compares what RXB holds with RX_SUM. -/
theorem verifyReportsComparison : Obligations.VerifyReportsComparison := by
  unfold Obligations.VerifyReportsComparison
  refine ⟨fun s h1 h2 h3 => ?_, fun s lo hi cl ch hq hlo hhi hcl hch => ?_⟩
  · rcases execVerify_cases s with ⟨-, he⟩ | ⟨hc, -⟩ | ⟨hc, -⟩
    · exact he
    · simp [RxState.checksumIn_iff, h1, h2, h3] at hc
    · simp [RxState.checksumIn_iff, h1, h2, h3] at hc
  · exact exec_verify_reports (RxState.checksumIn_iff.2 hq)
      (receivedCheck_of_read (dataSize_of_read hlo hhi) hcl hch)

/-- While nothing is stored no view is valid (R28). -/
theorem readView_of_rxN_zero {s : State} (hn : s.rxN = 0) (v : View) : s.readView v = .error (.invalidView v) := by
  have hv : s.viewValid v = false := by
    cases v <;> simp [State.viewValid, State.viewNeeds, hn]
  rw [State.readView, hv]
  rfl

/-- Settles O36: RX_RESET clears the parser, and with RX_N = 0 no view is valid. -/
theorem rxResetReturnsToEmpty : Obligations.RxResetReturnsToEmpty := by
  unfold Obligations.RxResetReturnsToEmpty
  exact fun s => ⟨State.endOk (rxClear s), rfl, rfl, readView_of_rxN_zero rfl⟩

/-! ### A whole packet (R136) -/

/-- An EMPTY parser has taken nothing. -/
theorem Taken.nil {s : State} (hq : s.rxState = .empty) (hn : s.rxN = 0) (hs : s.rxSum = 0) : Taken [] s := by
  have h0 : s.rxN.toNat = 0 := by rw [hn]; rfl
  have hsum : summedBytes s = 0 := by rw [summedBytes, h0, if_pos (by omega)]
  exact ⟨.of_empty hn hq, ⟨[], by rw [hsum]; rfl, hs⟩, h0, rfl⟩

/-- Feeding the rest of a packet ends `ok`: each of its bytes moves RX_N on, and in COMPLETE none would. -/
theorem Taken.feed_result {pre post : List Byte} {lo hi : Byte} {s t : State} (h : Taken pre s)
    (hp : IsPacket (pre ++ post) lo hi) (ht : Machine.feed post s = .next t)
    (hr : post = [] → s.result = some .ok) : t.result = some .ok := by
  induction post generalizing pre s with
  | nil =>
    cases ht
    exact hr rfl
  | cons b post ih =>
    obtain ⟨u, hu⟩ := (h.shape.congr (t := { s with rxIn := b }) rfl rfl rfl).execAddByte_answers
    obtain ⟨htaken, -⟩ := h.addByte hp hu
    have hmoved : u.rxN ≠ s.rxN := by
      intro he
      have hcount := htaken.count
      rw [he, h.count, List.length_append, List.length_singleton] at hcount
      omega
    have hok : u.result = some .ok := (execAddByte_ok hu fun hc => hmoved (by
      cases hu.symm.trans (execAddByte_complete hc)
      rfl)).1
    refine ih htaken ?_ (feed_cons hu ▸ ht) fun _ => hok
    rwa [List.append_assoc, List.singleton_append]

/-- A packet as it comes in (R28): the magic, command, flag and size, the data, the check, the two responses. -/
def packetBytes (cmd comp lo hi : Byte) (p : List Byte) (c0 c1 r0 r1 : Byte) : List Byte :=
  [0x88, 0x33, cmd, comp, lo, hi] ++ p ++ [c0, c1, r0, r1]

section PacketBytes
variable (cmd comp lo hi : Byte) (p : List Byte) (c0 c1 r0 r1 : Byte)

/-- What follows the header. -/
theorem packetBytes_drop_header : (packetBytes cmd comp lo hi p c0 c1 r0 r1).drop 6 = p ++ [c0, c1, r0, r1] := rfl

/-- What follows the data. -/
theorem packetBytes_drop_data (k : Nat) :
    (packetBytes cmd comp lo hi p c0 c1 r0 r1).drop (6 + p.length + k) = [c0, c1, r0, r1].drop k := by
  rw [← List.drop_drop, ← List.drop_drop, packetBytes_drop_header, List.drop_left]

/-- The check and response bytes by index. -/
theorem packetBytes_getElem?_tail (k : Nat) :
    (packetBytes cmd comp lo hi p c0 c1 r0 r1)[6 + p.length + k]? = [c0, c1, r0, r1][k]? := by
  rw [← List.head?_drop, packetBytes_drop_data, List.head?_drop]

/-- What the parser sums (R132): the header from the command on, and the data. -/
theorem packetBytes_summed : ((packetBytes cmd comp lo hi p c0 c1 r0 r1).drop 2).take (4 + p.length) =
    cmd :: comp :: lo :: hi :: p := by
  rw [Nat.add_comm]
  show cmd :: comp :: lo :: hi :: (p ++ _).take p.length = _
  rw [List.take_left]

variable {lo hi p}

theorem packetBytes_isPacket (hl : lo.toNat + 256 * hi.toNat = p.length) :
    IsPacket (packetBytes cmd comp lo hi p c0 c1 r0 r1) lo hi where
  magic0 := rfl
  magic1 := rfl
  sizeLo := rfl
  sizeHi := rfl
  length := by
    simp only [packetBytes, List.length_append, List.length_cons, List.length_nil]
    omega

variable {cmd comp c0 c1 r0 r1} {t : State}

/-- Every view of the parsed packet is the field that was fed. -/
theorem Taken.packetBytes_views (h : Taken (packetBytes cmd comp lo hi p c0 c1 r0 r1) t)
    (hl : lo.toNat + 256 * hi.toNat = p.length) :
    t.readView .type = .ok [cmd.toNat] ∧ t.readView .comp = .ok [comp.toNat] ∧ t.readView .dsize = .ok [p.length] ∧
      t.readView .data = .ok (p.map BitVec.toNat) ∧ t.readView .chk = .ok [c0.toNat + 256 * c1.toNat] ∧
      t.readView .resp0 = .ok [r0.toNat] ∧ t.readView .resp1 = .ok [r1.toNat] := by
  have hview := h.packet_readView (packetBytes_isPacket cmd comp c0 c1 r0 r1 hl)
  have htail := packetBytes_drop_data cmd comp lo hi p c0 c1 r0 r1
  rw [hl] at hview
  refine ⟨hview .type, hview .comp, (hview .dsize).trans ?_, (hview .data).trans ?_, (hview .chk).trans ?_,
    (hview .resp0).trans ?_, (hview .resp1).trans ?_⟩
  · show Except.ok [(le16 lo hi).toNat] = _
    rw [le16_toNat, hl]
  · show Except.ok (((p ++ _).take p.length).map BitVec.toNat) = _
    rw [List.take_left]
  · show Except.ok (viewNumbers .chk ((List.drop (6 + p.length + 0) _).take 2)) = _
    rw [htail, ← le16_toNat]
    rfl
  · show Except.ok (viewNumbers .resp0 ((List.drop (8 + p.length) _).take 1)) = _
    rw [show 8 + p.length = 6 + p.length + 2 by omega, htail]
    rfl
  · show Except.ok (viewNumbers .resp1 ((List.drop (9 + p.length) _).take 1)) = _
    rw [show 9 + p.length = 6 + p.length + 3 by omega, htail]
    rfl

/-- VERIFY of the parsed packet compares its check with the frame sum (R63, R133). -/
theorem Taken.packetBytes_verify (h : Taken (packetBytes cmd comp lo hi p c0 c1 r0 r1) t)
    (hl : lo.toNat + 256 * hi.toNat = p.length) :
    ∃ u, exec .verify t = .next u ∧ u.cvalid = true ∧
      (u.cok = true ↔ c0.toNat + 256 * c1.toNat =
        (cmd.toNat + comp.toNat + lo.toNat + hi.toNat + byteSum p) % 65536) := by
  have hp := packetBytes_isPacket cmd comp c0 c1 r0 r1 hl
  have htail := packetBytes_getElem?_tail cmd comp lo hi p c0 c1 r0 r1
  have hr : t.receivedCheck = some (le16 c0 c1) := by
    refine h.packet_receivedCheck hp ?_ ?_ <;> rw [hl]
    · exact htail 0
    · rw [show 7 + p.length = 6 + p.length + 1 by omega]
      exact htail 1
  have hsum : t.rxSum.toNat = (cmd.toNat + comp.toNat + lo.toNat + hi.toNat + byteSum p) % 65536 := by
    rw [h.packet_rxSum hp, hl, packetBytes_summed, BitVec.toNat_ofNat]
    simp only [byteSum_cons, Nat.add_assoc]
  obtain ⟨u, hu, -, hvalid, hcok⟩ := exec_verify_reports (by rw [h.packet_complete hp]; rfl) hr
  exact ⟨u, hu, hvalid, hsum ▸ hcok⟩

end PacketBytes

/-- Settles O37: an EMPTY parser takes the packet whole, each byte ending `ok`; its views and VERIFY are then read off. -/
theorem wholePacketReachesComplete : Obligations.WholePacketReachesComplete := by
  unfold Obligations.WholePacketReachesComplete
  intro s cmd comp p c0 c1 r0 r1 lo hi hq hn hs hl
  have hp := packetBytes_isPacket cmd comp c0 c1 r0 r1 hl
  obtain ⟨t, ht, htaken, hfault⟩ := feed_packet hp hq hn hs
  have hresult : t.result = some .ok := (Taken.nil hq hn hs).feed_result hp ht nofun
  obtain ⟨htype, hcomp, hdsize, hdata, hchk, hresp0, hresp1⟩ := htaken.packetBytes_views hl
  have hcount : t.rxN.toNat = 10 + p.length := by rw [htaken.count, hp.length, hl]
  exact ⟨t, ht, htaken.packet_complete hp, hcount, hfault, hresult, htype, hcomp, hdsize, hdata, hchk, hresp0, hresp1,
    htaken.packetBytes_verify hl⟩

end Sys2Proof.Machine

/-! ## The RLE unit: REP, LIT, and DECOMPRESS as the pure expansion of its input (R150 to R157) -/

namespace Sys2Proof.Machine

/-! ### One run (R151, R152, R154) -/

/-- Bytes emitted and RLE_IP moved past a run is what follows a run, where neither counter wraps. -/
theorem emitsRun {s : State} {bs : List Byte} {len : Nat} (hi : s.rleIp.toNat + len < 131072)
    (ho : s.rleOcnt.toNat + bs.length < 16777216) : EmitsRun s (advanceIp len (emit bs s)) bs len :=
  ⟨rfl, advanceIp_rleIp_toNat hi, emit_rleOcnt_toNat ho, fun _ hk hr => emit_read_inside hk hr,
    fun _ ha => emit_read_outside ha⟩

theorem rleTruncate_truncatedAt (s : State) : TruncatedAt s (rleTruncate s) := rfl

/-- Settles O40: REP with its value byte before RLE_ILEN emits its copies, and is truncated without it. -/
theorem repRunEmitsCopies : Obligations.RepRunEmitsCopies := by
  unfold Obligations.RepRunEmitsCopies
  intro s n v
  have hilen := s.rleIlen.isLt
  have hcount := repCount_le n
  rcases execRep_cases n v s with ⟨hfit, he⟩ | ⟨hshort, he⟩
  · refine ⟨fun _ ho => ⟨_, he, emitsRun (by omega) ?_⟩, fun h => by omega⟩
    rw [List.length_replicate]
    omega
  · exact ⟨fun h => by omega, fun _ => ⟨_, he, rleTruncate_truncatedAt s⟩⟩

/-- Settles O41: LIT with its data bytes before RLE_ILEN emits them, and is truncated without them. -/
theorem litRunCopiesBytes : Obligations.LitRunCopiesBytes := by
  unfold Obligations.LitRunCopiesBytes
  intro s bs hw
  have hilen := s.rleIlen.isLt
  obtain ⟨-, h128⟩ := lit_wf.1 hw
  rcases execLit_cases bs s with ⟨hfit, he⟩ | ⟨hshort, he⟩
  · exact ⟨fun _ ho => ⟨_, he, emitsRun (by omega) (by omega)⟩, fun h => by omega⟩
  · exact ⟨fun h => by omega, fun _ => ⟨_, he, rleTruncate_truncatedAt s⟩⟩

/-! ### One run of the pure expansion (R157) -/

/-- What the run with control byte `c` and the operands `ops` emits (R151, R152). -/
def runOutput (c : Byte) (ops : List Byte) : List Byte :=
  if isRep c then List.replicate (repCount (c.setWidth 7)) (ops.headD 0) else ops

theorem runOutput_rep {c : Byte} (h : isRep c = true) (ops : List Byte) :
    runOutput c ops = List.replicate (repCount (c.setWidth 7)) (ops.headD 0) := if_pos h

theorem runOutput_lit {c : Byte} (h : isRep c = false) (ops : List Byte) : runOutput c ops = ops :=
  if_neg (Bool.eq_false_iff.1 h)

/-- A run emits at least one byte for two of its own, and at most 129 (R156). -/
theorem runOutput_length {c : Byte} {ops : List Byte} (h : ops.length = runOperands c) :
    1 + ops.length ≤ 2 * (runOutput c ops).length ∧ 2 * (runOutput c ops).length ≤ 129 * (1 + ops.length) := by
  cases hc : isRep c with
  | true =>
    have hcount := repCount_le (c.setWidth 7)
    rw [runOutput_rep hc, List.length_replicate, h, runOperands_rep hc]
    unfold repCount at hcount ⊢
    omega
  | false =>
    rw [runOperands_lit hc] at h
    rw [runOutput_lit hc]
    omega

/-- The bytes after a control byte are too few for its run, or they are its operands and what remains. -/
theorem short_or_operands (c : Byte) (rest : List Byte) :
    rest.length < runOperands c ∨ ∃ ops more, rest = ops ++ more ∧ ops.length = runOperands c := by
  by_cases h : rest.length < runOperands c
  · exact .inl h
  · refine .inr ⟨rest.take (runOperands c), rest.drop (runOperands c), (List.take_append_drop _ _).symm, ?_⟩
    rw [List.length_take]
    omega

theorem isRep_true_iff {c : Byte} : isRep c = true ↔ 0x80 ≤ c.toNat := by rw [isRep_iff, decide_eq_true_iff]

/-- The expansion at a repeated run with its value byte (R151). -/
theorem expandFrom_rep (fuel ip : Nat) (out more : List Byte) {c v : Byte} (h : isRep c = true) :
    expandFrom (fuel + 1) ip out (c :: v :: more) =
      expandFrom fuel (ip + 2) (out ++ List.replicate (c.toNat - 0x80 + 2) v) more :=
  if_pos (isRep_true_iff.1 h)

/-- The expansion at a literal run's control byte (R152, R154). -/
theorem expandFrom_lit (fuel ip : Nat) (out rest : List Byte) {c : Byte} (h : isRep c = false) :
    expandFrom (fuel + 1) ip out (c :: rest) =
      if rest.length < c.toNat + 1 then .truncated ip out.length
      else expandFrom fuel (ip + 1 + (c.toNat + 1)) (out ++ rest.take (c.toNat + 1)) (rest.drop (c.toNat + 1)) :=
  if_neg fun hc => Bool.false_ne_true (h.symm.trans (isRep_true_iff.2 hc))

/-- The expansion goes past a complete run with the run's output. -/
theorem expandFrom_run (fuel ip : Nat) (out more : List Byte) {c : Byte} {ops : List Byte}
    (h : ops.length = runOperands c) :
    expandFrom (fuel + 1) ip out (c :: (ops ++ more)) =
      expandFrom fuel (ip + (1 + ops.length)) (out ++ runOutput c ops) more := by
  cases hc : isRep c with
  | true =>
    rw [runOperands_rep hc] at h
    obtain ⟨v, rfl⟩ := List.length_eq_one_iff.1 h
    rw [runOutput_rep hc, repCount, repField_toNat c hc]
    exact expandFrom_rep fuel ip out more hc
  | false =>
    rw [runOperands_lit hc] at h
    rw [expandFrom_lit _ _ _ _ hc, ← h, if_neg (by rw [List.length_append]; omega), List.take_left, List.drop_left,
      Nat.add_assoc, runOutput_lit hc]

/-- The expansion ends at a control byte whose operands are not all there (R154). -/
theorem expandFrom_short (fuel ip : Nat) (out : List Byte) {c : Byte} {rest : List Byte}
    (h : rest.length < runOperands c) : expandFrom (fuel + 1) ip out (c :: rest) = .truncated ip out.length := by
  cases hc : isRep c with
  | true =>
    rw [runOperands_rep hc, Nat.lt_one_iff] at h
    rw [List.eq_nil_of_length_eq_zero h]
    exact if_pos (isRep_true_iff.1 hc)
  | false =>
    rw [runOperands_lit hc] at h
    rw [expandFrom_lit _ _ _ _ hc, if_pos h]

/-- Where an expansion ends in a strip, the bytes it still had to emit bound the input that remained. -/
theorem expandFrom_ok_bounds {fuel ip : Nat} {out rest strip : List Byte} (h : expandFrom fuel ip out rest = .ok strip) :
    strip.length = 640 ∧ rest.length + 2 * out.length ≤ 1280 ∧ 1280 ≤ 129 * rest.length + 2 * out.length := by
  induction fuel generalizing ip out rest with
  | zero => cases h
  | succ fuel ih =>
    cases rest with
    | nil =>
      rw [expandFrom] at h
      split at h <;> cases h
      rename_i hl
      exact ⟨hl, by rw [hl, List.length_nil], by rw [hl]; omega⟩
    | cons c rest =>
      rcases short_or_operands c rest with hs | ⟨ops, more, rfl, hops⟩
      · rw [expandFrom_short _ _ _ hs] at h
        cases h
      · rw [expandFrom_run _ _ _ _ hops] at h
        obtain ⟨hl, hle, hge⟩ := ih h
        have hrun := runOutput_length hops
        rw [List.length_append] at hle hge
        rw [List.length_cons, List.length_append]
        omega

/-- Settles O44: two bytes of a run give between 1 and 129 bytes of output, so the 640 take 10 to 1280 bytes. -/
theorem stripInputHasTenTo1280Bytes : Obligations.StripInputHasTenTo1280Bytes := by
  unfold Obligations.StripInputHasTenTo1280Bytes
  intro input out h
  obtain ⟨hl, hle, hge⟩ := expandFrom_ok_bounds h
  rw [List.length_nil] at hle hge
  omega

/-! ### DECOMPRESS follows the expansion (R150, R157) -/

/-- DECOMPRESS, started in `s`, stands at a run boundary in `u`: `out` is emitted, and `rest` is the input that remains. -/
structure Expanding (s u : State) (out rest : List Byte) : Prop where
  frame : u = { s with rlo := u.rlo, rleIp := u.rleIp, rleOcnt := u.rleOcnt }
  input : s.rli.readRange u.rleIp.toNat rest.length = some rest
  ip : u.rleIp.toNat + rest.length = s.rleIlen.toNat
  /-- RLE_OCNT does not wrap: the input is too short for it (R29, R156). -/
  budget : 2 * out.length ≤ 129 * u.rleIp.toNat
  count : u.rleOcnt.toNat = out.length
  output : ∀ a, a < 640 → a < out.length → u.rlo.read a = out[a]?
  beyond : ∀ a, 640 ≤ a → u.rlo.read a = s.rlo.read a

theorem Expanding.start {s : State} {input : List Byte} (h : s.rli.readRange 0 s.rleIlen.toNat = some input) :
    Expanding s (rleStart s) [] input := by
  have hl := Memory.readRange_length h
  exact ⟨rfl, hl ▸ h, (Nat.zero_add _).trans hl, Nat.zero_le _, rfl, fun _ _ ha => absurd ha (Nat.not_lt_zero _),
    fun _ _ => rfl⟩

section Expanding
variable {s u : State} {out rest : List Byte}

theorem Expanding.rli (h : Expanding s u out rest) : u.rli = s.rli := by rw [h.frame]

theorem Expanding.rleIlen (h : Expanding s u out rest) : u.rleIlen = s.rleIlen := by rw [h.frame]

/-- What follows a run is the next run boundary. -/
theorem Expanding.run {w : State} {run bs : List Byte} (h : Expanding s u out (run ++ rest))
    (e : EmitsRun u w bs run.length) (hb : 2 * bs.length ≤ 129 * run.length) : Expanding s w (out ++ bs) rest := by
  obtain ⟨hw, hip, hocnt, hinside, houtside⟩ := e
  obtain ⟨hframe, hinput, hstart, hbudget, hcount, houtput, hbeyond⟩ := h
  rw [List.length_append] at hstart hinput
  refine ⟨hw.trans (by rw [hframe]), hip ▸ Memory.readRange_drop hinput, by omega, ?_, ?_, fun a ha hlt => ?_,
    fun a ha => ?_⟩
  · rw [List.length_append]
    omega
  · rw [hocnt, hcount, List.length_append]
  · rw [List.length_append] at hlt
    by_cases hold : a < out.length
    · rw [houtside a (.inl (by omega)), houtput a ha hold, List.getElem?_append_left hold]
    · have hread := hinside (a - out.length) (by omega) (by omega)
      rwa [hcount, Nat.add_sub_cancel' (Nat.not_lt.1 hold), ← List.getElem?_append_right (Nat.not_lt.1 hold)] at hread
  · rw [houtside a (.inr (.inr ha)), hbeyond a ha]

/-- A control byte stands at RLE_IP. -/
theorem Expanding.control {c : Byte} (h : Expanding s u out (c :: rest)) :
    u.rleIp.toNat < u.rleIlen.toNat ∧ u.rli.read u.rleIp.toNat = some c := by
  have hip := h.ip
  rw [List.length_cons] at hip
  rw [h.rleIlen, h.rli]
  exact ⟨by omega, Memory.read_of_readRange h.input (k := 0) (Nat.succ_pos _)⟩

/-- A complete run takes one round of the loop. -/
theorem Expanding.rleLoop_run (fuel : Nat) {c : Byte} {ops : List Byte} (h : Expanding s u out (c :: (ops ++ rest)))
    (hops : ops.length = runOperands c) :
    ∃ w, rleLoop (fuel + 1) u = rleLoop fuel w ∧ EmitsRun u w (runOutput c ops) (1 + ops.length) := by
  obtain ⟨hlt, -⟩ := h.control
  have hilen := s.rleIlen.isLt
  have hip := h.ip
  have hbudget := h.budget
  have hcount := h.count
  have hlen := (runOutput_length hops).2
  rw [List.length_cons, List.length_append] at hip
  have hread : u.rli.readRange u.rleIp.toNat (1 + ops.length) = some (c :: ops) := by
    rw [h.rli, Memory.readRange_take h.input (by rw [List.length_cons, List.length_append]; omega), Nat.add_comm,
      List.take_succ_cons, List.take_left]
  have hfetch := fetchRun_of_read hread hops (by rw [h.rleIlen]; omega)
  have hemits : EmitsRun u (advanceIp (1 + ops.length) (emit (runOutput c ops) u)) (runOutput c ops) (1 + ops.length) :=
    emitsRun (by omega) (by omega)
  refine ⟨_, ?_, hemits⟩
  cases hc : isRep c with
  | true =>
    rw [hc] at hfetch
    rw [runOutput_rep hc, hops, runOperands_rep hc]
    exact rleLoop_rep hlt hfetch
  | false =>
    rw [hc] at hfetch
    rw [runOutput_lit hc]
    exact rleLoop_lit hlt hfetch

/-- A run whose operands are not all there ends the loop (R154). -/
theorem Expanding.rleLoop_short (fuel : Nat) {c : Byte} (h : Expanding s u out (c :: rest))
    (hs : rest.length < runOperands c) : rleLoop (fuel + 1) u = .next (rleTruncate u) := by
  obtain ⟨hlt, hc⟩ := h.control
  have hip := h.ip
  rw [List.length_cons] at hip
  exact rleLoop_truncated hlt (fetchRun_truncated hc (by rw [h.rleIlen]; omega))

/-- The loop ends where the expansion ends: at the end of the input, or at the run that is truncated. -/
theorem Expanding.rleLoop_expandFrom {fuel : Nat} (h : Expanding s u out rest) (hf : rest.length < fuel) :
    (∃ v strip, Expanding s v strip [] ∧ rleLoop fuel u = .next (rleFinish v) ∧
      expandFrom fuel u.rleIp.toNat out rest = if strip.length = 640 then .ok strip else .lengthMismatch strip.length) ∨
    (∃ v strip more, Expanding s v strip more ∧ rleLoop fuel u = .next (rleTruncate v) ∧
      expandFrom fuel u.rleIp.toNat out rest = .truncated v.rleIp.toNat strip.length) := by
  induction fuel generalizing u out rest with
  | zero => exact absurd hf (Nat.not_lt_zero _)
  | succ fuel ih =>
    cases rest with
    | nil => exact .inl ⟨u, out, h, rleLoop_end (by rw [h.rleIlen, ← h.ip]; exact Nat.le_refl _), rfl⟩
    | cons c rest =>
      rcases short_or_operands c rest with hs | ⟨ops, more, rfl, hops⟩
      · exact .inr ⟨u, out, c :: rest, h, h.rleLoop_short fuel hs, expandFrom_short _ _ _ hs⟩
      · obtain ⟨w, hloop, he⟩ := h.rleLoop_run fuel hops
        have ⟨_, hip, _⟩ := he
        have hlen := (runOutput_length hops).2
        rw [List.length_cons, List.length_append] at hf
        rw [hloop, expandFrom_run _ _ _ _ hops, ← hip]
        rw [Nat.add_comm, ← List.length_cons (a := c)] at he hlen
        exact ih (Expanding.run (run := c :: ops) h he hlen) (by omega)

/-- What RLO holds of the output is all of it, where the output is no longer than RLO. -/
theorem Expanding.holds (h : Expanding s u out rest) (hl : out.length ≤ 640) : Holds u.rlo 0 out :=
  Memory.readRange_eq_some.2 ⟨rfl, fun k hk => by rw [Nat.zero_add]; exact h.output k (by omega) hk⟩

end Expanding

/-- Settles O42: the loop of DECOMPRESS ends where the expansion of the input ends, and each of the three ends is read off. -/
theorem decompressIsPureExpansion : Obligations.DecompressIsPureExpansion := by
  unfold Obligations.DecompressIsPureExpansion
  intro s input hr
  have hlen := Memory.readRange_length hr
  have hfuel : expand input = expandFrom (s.rleIlen.toNat + 1) 0 [] input := by rw [expand, hlen]
  rcases (Expanding.start hr).rleLoop_expandFrom (fuel := s.rleIlen.toNat + 1) (by omega) with
    ⟨v, strip, hv, hloop, hexp⟩ | ⟨v, strip, more, hv, hloop, hexp⟩
  · refine ⟨_, hloop, ?_⟩
    rw [hfuel, show expandFrom _ 0 [] input = _ from hexp]
    rcases rleFinish_cases v with ⟨h640, he⟩ | ⟨h640, m, he⟩ <;> rw [he]
    · rw [hv.count] at h640
      rw [if_pos h640]
      exact ⟨h640, hv.holds h640.le, hv.beyond, hv.ip, hv.count.trans h640, by rw [hv.frame]; rfl⟩
    · rw [hv.count] at h640 ⊢
      rw [if_neg h640]
      exact ⟨hv.ip, hv.count, by rw [hv.frame]; rfl⟩
  · refine ⟨_, hloop, ?_⟩
    rw [hfuel, show expandFrom _ 0 [] input = _ from hexp]
    exact ⟨rfl, hv.count, by rw [hv.frame]; rfl⟩

/-! ### DECOMPRESS run by run (R157) -/

/-- The state with DECOMPRESS in progress step by step. -/
def State.runByRun (s : State) : State := { s with activity := .decompressing }

theorem rleFinish_runByRun (s : State) : rleFinish s.runByRun = rleFinish s := rfl

/-- One step takes the run of one round of the loop, or ends DECOMPRESS as the round does. -/
theorem step_of_rleLoop {fuel : Nat} {s t : State} (h : rleLoop (fuel + 1) s = .next t) :
    step s.runByRun = .next t ∨ ∃ u, step s.runByRun = .next u.runByRun ∧ rleLoop fuel u = .next t := by
  have hfetch : fetch s.runByRun = fetchRunStep s.runByRun := fetch_decompressing rfl
  have hrun : fetchRun s.runByRun = fetchRun s := rfl
  unfold fetchRunStep at hfetch
  by_cases he : s.rleIlen.toNat ≤ s.rleIp.toNat
  · rw [rleLoop_end he, ← rleFinish_runByRun] at h
    rw [if_pos (show s.runByRun.rleIlen.toNat ≤ s.runByRun.rleIp.toNat from he)] at hfetch
    exact .inl ((step_other hfetch).trans h)
  · have hlt := Nat.not_le.1 he
    rw [if_neg (show ¬ s.runByRun.rleIlen.toNat ≤ s.runByRun.rleIp.toNat from he), hrun] at hfetch
    rcases fetchRun_cases s with ⟨n, v, hf, hfit⟩ | ⟨bs, hf, -, -, hfit⟩ | hf | hf <;> rw [hf] at hfetch
    · rw [rleLoop_rep hlt hf] at h
      refine .inr ⟨_, (step_instr hfetch).trans ?_, h⟩
      exact if_neg (show ¬ s.rleIlen.toNat ≤ s.rleIp.toNat + 1 by omega)
    · rw [rleLoop_lit hlt hf] at h
      refine .inr ⟨_, (step_instr hfetch).trans ?_, h⟩
      exact if_neg (show ¬ s.rleIlen.toNat < s.rleIp.toNat + 1 + bs.length by omega)
    · rw [rleLoop_truncated hlt hf] at h
      exact .inl ((step_other hfetch).trans h)
    · rw [rleLoop_unwritten hlt hf] at h
      cases h

/-- The steps reach the state where the loop ends, within as many steps as the loop has rounds. -/
theorem run_of_rleLoop {fuel : Nat} {s t : State} (h : rleLoop fuel s = .next t) :
    ∃ k, k ≤ fuel ∧ Host.Core.run Sys2Proof.core k s.runByRun = .next t := by
  induction fuel generalizing s with
  | zero => cases h
  | succ fuel ih =>
    rcases step_of_rleLoop h with hs | ⟨u, hs, hu⟩
    · exact ⟨1, by omega, run_one hs⟩
    · obtain ⟨k, hk, hrun⟩ := ih hu
      exact ⟨k + 1, by omega, (run_succ k hs).trans hrun⟩

/-- Settles O43: DECOMPRESS of an input that is there ends, and its steps reach where it ends. -/
theorem decompressStepFormAgrees : Obligations.DecompressStepFormAgrees := by
  unfold Obligations.DecompressStepFormAgrees
  intro s input _ hr
  obtain ⟨t, ht, -⟩ := decompressIsPureExpansion s input hr
  rw [ht, Memory.readRange_length hr]
  exact run_of_rleLoop ht

end Sys2Proof.Machine

/-! ## The TILE unit: PACK and UNPACK as two directions of one relation (R190 to R195) -/

namespace Sys2Proof.Machine

/-! ### Tile bytes and pixels (R74, R192, R194) -/

/-- Lane `i` of the two bytes of eight pixels is pixel `i`. -/
theorem tileRowPixel_tileRowBytes {px : List Pixel} (h : px.length = 8) {i : Nat} (hi : i < 8) :
    ∃ lo hi, tileRowBytes px = [lo, hi] ∧ px[i]? = some (tileRowPixel lo hi i) := by
  obtain ⟨lo, hlo, hbit0⟩ := tileRowBytes_low h hi
  obtain ⟨b, hb, hbit1⟩ := tileRowBytes_high h hi
  cases hlo
  cases hb
  refine ⟨_, _, rfl, ?_⟩
  rw [List.getD_eq_getElem?_getD, List.getElem?_eq_getElem (by omega), Option.getD_some] at hbit0 hbit1
  rw [List.getElem?_eq_getElem (by omega),
    pixel_ext ((tileRowPixel_bit0 ..).trans hbit0) ((tileRowPixel_bit1 ..).trans hbit1)]

/-- A pixel read from tile bytes is the one with the bits that R194 names. -/
theorem unpackPixel_eq_some {m : Memory 8} {y x : Nat} {p : Pixel} :
    unpackPixel m y x = some p ↔ ∃ lo hi, m.read (tileIndex y x) = some lo ∧ m.read (tileIndex y x + 1) = some hi ∧
      p.getLsbD 0 = lo.getLsbD (7 - x % 8) ∧ p.getLsbD 1 = hi.getLsbD (7 - x % 8) := by
  unfold unpackPixel
  constructor
  · intro h
    split at h <;> cases h
    rename_i lo hi hlo hhi
    exact ⟨lo, hi, hlo, hhi, tileRowPixel_bit0 .., tileRowPixel_bit1 ..⟩
  · rintro ⟨lo, hi, hlo, hhi, h0, h1⟩
    rw [hlo, hhi]
    exact congrArg some (pixel_ext ((tileRowPixel_bit0 ..).trans h0.symm) ((tileRowPixel_bit1 ..).trans h1.symm))

/-- Both bytes of every pixel of `rows` rows are there. -/
def tileBytesThere (m : Memory 8) (rows : Nat) : Prop :=
  ∀ y x, y < rows → x < 160 → (m.read (tileIndex y x)).isSome ∧ (m.read (tileIndex y x + 1)).isSome

/-- Every byte of a length of whole bands there: so are both bytes of each pixel of its rows. -/
theorem tileBytesThere_of_reads {m : Memory 8} {len : Nat} (h320 : len % 320 = 0)
    (h : ∀ k, k < len → (m.read k).isSome) : tileBytesThere m (len / 40) := by
  intro y x hy hx
  have hlt := tileIndex_lt (rows := len / 40) (by omega) hy hx
  exact ⟨h _ (by omega), h _ (by omega)⟩

/-- Pixel `i` of the tile row that pixel `(y, x)` lies in. -/
theorem unpackPixel_lane {m : Memory 8} {y x i : Nat} {lo hi : Byte} (hlo : m.read (tileIndex y x) = some lo)
    (hhi : m.read (tileIndex y x + 1) = some hi) (h : i < 8) :
    unpackPixel m y (8 * (x / 8) + i) = some (tileRowPixel lo hi i) := by
  have hindex : tileIndex y (8 * (x / 8) + i) = tileIndex y x := by
    unfold tileIndex
    omega
  rw [unpackPixel, hindex, hlo, hhi, show (8 * (x / 8) + i) % 8 = i by omega]

/-- Eight pixels determine the two bytes they are packed in. -/
theorem tileRow_ext {lo hi lo' hi' : Byte} (h : ∀ i, i < 8 → tileRowPixel lo hi i = tileRowPixel lo' hi' i) :
    lo = lo' ∧ hi = hi' := by
  have hbits : ∀ i, i < 8 → lo.getLsbD i = lo'.getLsbD i ∧ hi.getLsbD i = hi'.getLsbD i := by
    intro i hi8
    have hp := h (7 - i) (by omega)
    have h0 := congrArg (·.getLsbD 0) hp
    have h1 := congrArg (·.getLsbD 1) hp
    simp only [tileRowPixel_bit0, tileRowPixel_bit1, show 7 - (7 - i) = i by omega] at h0 h1
    exact ⟨h0, h1⟩
  exact ⟨BitVec.eq_of_getLsbD_eq fun i hi => (hbits i hi).1, BitVec.eq_of_getLsbD_eq fun i hi => (hbits i hi).2⟩

/-! ### The relation -/

/-- A tile buffer and a matrix hold the same picture of `rows` rows: each pixel is there in both, in the matrix at its row
and column and in the buffer in the two bytes R194 names. -/
def SamePicture (til : Memory 8) (pix : Memory 2) (rows : Nat) : Prop :=
  ∀ y x, y < rows → x < 160 → ∃ p, unpackPixel til y x = some p ∧ pix.read (160 * y + x) = some p

section SamePicture
variable {til til' : Memory 8} {pix pix' : Memory 2} {rows : Nat}

theorem SamePicture.pixelsThere (h : SamePicture til pix rows) : pixelsThere pix rows := by
  intro y x hy hx
  obtain ⟨p, -, hp⟩ := h y x hy hx
  rw [hp]
  rfl

theorem SamePicture.tileBytesThere (h : SamePicture til pix rows) : tileBytesThere til rows := by
  intro y x hy hx
  obtain ⟨p, hp, -⟩ := h y x hy hx
  obtain ⟨lo, hi, hlo, hhi, -⟩ := unpackPixel_eq_some.1 hp
  exact ⟨by rw [hlo]; rfl, by rw [hhi]; rfl⟩

/-- The tile bytes determine the matrix. -/
theorem SamePicture.pix_read_eq (h : SamePicture til pix rows) (h' : SamePicture til pix' rows) {a : Nat}
    (ha : a < 160 * rows) : pix.read a = pix'.read a := by
  obtain ⟨p, hp, hr⟩ := h (a / 160) (a % 160) (by omega) (by omega)
  obtain ⟨p', hp', hr'⟩ := h' (a / 160) (a % 160) (by omega) (by omega)
  cases hp.symm.trans hp'
  rw [Nat.div_add_mod] at hr hr'
  rw [hr, hr']

/-- The matrix determines both bytes of each tile row. -/
theorem SamePicture.tileRow_eq (h : SamePicture til pix rows) (h' : SamePicture til' pix rows) {y x : Nat}
    (hy : y < rows) (hx : x < 160) :
    til.read (tileIndex y x) = til'.read (tileIndex y x) ∧
      til.read (tileIndex y x + 1) = til'.read (tileIndex y x + 1) := by
  obtain ⟨_, hp, -⟩ := h y x hy hx
  obtain ⟨_, hp', -⟩ := h' y x hy hx
  obtain ⟨lo, b, hlo, hb, -⟩ := unpackPixel_eq_some.1 hp
  obtain ⟨lo', b', hlo', hb', -⟩ := unpackPixel_eq_some.1 hp'
  have hlane : ∀ i, i < 8 → tileRowPixel lo b i = tileRowPixel lo' b' i := by
    intro i hi
    obtain ⟨p, hp, hr⟩ := h y (8 * (x / 8) + i) hy (by omega)
    obtain ⟨p', hp', hr'⟩ := h' y (8 * (x / 8) + i) hy (by omega)
    rw [unpackPixel_lane hlo hb hi] at hp
    rw [unpackPixel_lane hlo' hb' hi] at hp'
    exact Option.some.inj (hp.trans (hr.symm.trans (hr'.trans hp'.symm)))
  obtain ⟨rfl, rfl⟩ := tileRow_ext hlane
  exact ⟨hlo.trans hlo'.symm, hb.trans hb'.symm⟩

/-- The matrix determines the tile bytes. -/
theorem SamePicture.til_read_eq {len : Nat} (h320 : len % 320 = 0) (h : SamePicture til pix (len / 40))
    (h' : SamePicture til' pix (len / 40)) {a : Nat} (ha : a < len) : til.read a = til'.read a := by
  obtain ⟨y, x, hy, hx, rfl | rfl⟩ := tile_byte_of_pixel h320 ha
  · exact (h.tileRow_eq h' hy hx).1
  · exact (h.tileRow_eq h' hy hx).2

end SamePicture

/-! ### Each operation makes the other side's picture (R191, R192) -/

/-- Tile bytes stored by PACK hold the picture they were made from. -/
theorem packBytes_samePicture {pix : Memory 2} {til : Memory 8} {bands : Nat} (h : pixelsThere pix (8 * bands)) :
    ∃ bytes, packBytes pix bands = some bytes ∧ SamePicture (til.splice 0 bytes) pix (8 * bands) := by
  obtain ⟨bytes, hbytes, hlen, hpiece⟩ := packBytes_pieces h
  refine ⟨bytes, hbytes, fun y x hy hx => ?_⟩
  obtain ⟨px, hrange, h8, -⟩ := packTileRow_some (m := pix) (s := y / 8) (t := x / 8) (r := y % 8) (by
    intro i hi
    rw [Nat.add_assoc]
    exact h _ _ (by omega) (by omega))
  obtain ⟨lo, hi, hrow, hpixel⟩ := tileRowPixel_tileRowBytes h8 (i := x % 8) (by omega)
  have hread : ∀ j, j < 2 → (til.splice 0 bytes).read (tileIndex y x + j) = [lo, hi][j]? := by
    intro j hj
    have hlt := tileIndex_lt (rows := 8 * bands) (by omega) hy hx
    rw [Memory.read_splice, if_pos (by omega), Nat.sub_zero, tileIndex,
      hpiece (y / 8) (x / 8) (y % 8) j (by omega) (by omega) (by omega) hj, rowBytes, hrange, Option.getD_some, hrow]
  have hlo : (til.splice 0 bytes).read (tileIndex y x) = some lo := hread 0 (by omega)
  have hhi : (til.splice 0 bytes).read (tileIndex y x + 1) = some hi := hread 1 (by omega)
  refine ⟨tileRowPixel lo hi (x % 8), ?_, ?_⟩
  · rw [unpackPixel, hlo, hhi]
  · rw [← hpixel, ← Memory.read_of_readRange hrange (by omega)]
    congr 1
    unfold pixIndex
    omega

/-- Pixels stored by UNPACK hold the picture of the tile bytes they were made from. -/
theorem unpackPixels_samePicture {til : Memory 8} {pix : Memory 2} {rows : Nat} (h : tileBytesThere til rows) :
    ∃ px, unpackPixels til rows = some px ∧ SamePicture til (pix.splice 0 px) rows := by
  obtain ⟨px, hpx, hlen, hpixel⟩ := unpackPixels_pieces h
  refine ⟨px, hpx, fun y x hy hx => ?_⟩
  have hk : 160 * y + x < px.length := by omega
  have hread := Memory.read_splice_inside (m := pix) (i := 0) hk
  rw [Nat.zero_add] at hread
  exact ⟨_, (hpixel y x hy hx).symm.trans (List.getElem?_eq_getElem hk), hread⟩

/-- TILE_LEN after PACK (R30, R191): forty bytes a row fit its 24 bits. -/
theorem tileLen_of_tileH (h : BitVec 16) : (BitVec.ofNat 24 (40 * h.toNat)).toNat = 40 * h.toNat := by
  have := h.isLt
  rw [BitVec.toNat_ofNat]
  omega

/-- TILE_H after UNPACK of a legal length fits its 16 bits (R30, R192; log 9). -/
theorem tileH_of_tileLen {len : Nat} (hmax : len ≤ 40 * Config.hMax) : (BitVec.ofNat 16 (len / 40)).toNat = len / 40 := by
  obtain ⟨-, -, hh⟩ := hMax_bounds
  rw [BitVec.toNat_ofNat]
  omega

/-- From `s`, PACK ended in `t`: the tile buffer took the picture of the matrix, and beyond it is as before (R191). -/
structure Packed (s t : State) : Prop where
  frame : t = { s with til := t.til, tileLen := t.tileLen, result := some .ok, activity := .idle }
  size : t.tileLen.toNat = 40 * s.tileH.toNat
  picture : SamePicture t.til s.pix s.tileH.toNat
  beyond : ∀ a, 40 * s.tileH.toNat ≤ a → t.til.read a = s.til.read a

/-- From `s`, UNPACK ended in `t`: the matrix took the picture of the tile buffer, and beyond it is as before (R192). -/
structure Unpacked (s t : State) : Prop where
  frame : t = { s with pix := t.pix, tileH := t.tileH, result := some .ok, activity := .idle }
  size : t.tileH.toNat = s.tileLen.toNat / 40
  picture : SamePicture s.til t.pix (s.tileLen.toNat / 40)
  beyond : ∀ a, 160 * (s.tileLen.toNat / 40) ≤ a → t.pix.read a = s.pix.read a

/-- PACK of a legal height with its pixels there completes. -/
theorem execPack_packed {s : State} (h8 : s.tileH.toNat % 8 = 0) (hmax : s.tileH.toNat ≤ Config.hMax)
    (hp : pixelsThere s.pix s.tileH.toNat) : ∃ t, execPack s = .next t ∧ Packed s t := by
  have hbands : 8 * (s.tileH.toNat / 8) = s.tileH.toNat := by omega
  obtain ⟨bytes, hbytes, hpic⟩ := packBytes_samePicture (til := s.til) (hbands ▸ hp)
  refine ⟨_, by rw [execPack, if_pos (heightLegal_iff.2 ⟨h8, hmax⟩), hbytes],
    rfl, tileLen_of_tileH s.tileH, hbands ▸ hpic, fun a ha => Memory.read_splice_outside (.inr ?_)⟩
  rw [packBytes_length hbytes]
  omega

/-- UNPACK of a legal length with its bytes there completes. -/
theorem execUnpack_unpacked {s : State} (h320 : s.tileLen.toNat % 320 = 0) (hmax : s.tileLen.toNat ≤ 40 * Config.hMax)
    (hb : tileBytesThere s.til (s.tileLen.toNat / 40)) : ∃ t, execUnpack s = .next t ∧ Unpacked s t := by
  obtain ⟨px, hpx, hpic⟩ := unpackPixels_samePicture (pix := s.pix) hb
  refine ⟨_, by rw [execUnpack, if_pos (lengthLegal_iff.2 ⟨h320, hmax⟩), hpx],
    rfl, tileH_of_tileLen hmax, hpic, fun a ha => Memory.read_splice_outside (.inr ?_)⟩
  rw [unpackPixels_length hpx]
  omega

/-! ### The statements -/

/-- Settles O45: PACK leaves the picture of the matrix in TIL, and a picture's pixel has the bits R194 names. -/
theorem packPlacesEveryPixel : Obligations.PackPlacesEveryPixel := by
  unfold Obligations.PackPlacesEveryPixel
  intro s h8 hmax hp
  obtain ⟨t, ht, hpacked⟩ := execPack_packed h8 hmax hp
  refine ⟨t, ht, hpacked.frame, hpacked.size, fun y x hy hx => ?_, hpacked.beyond⟩
  obtain ⟨p, hunpack, hread⟩ := hpacked.picture y x hy hx
  obtain ⟨lo, hi, hbits⟩ := unpackPixel_eq_some.1 hunpack
  exact ⟨p, lo, hi, hread, hbits⟩

/-- Settles O46: UNPACK leaves the picture of TIL in the matrix, and R192's row and column of an even index name it again. -/
theorem unpackReadsEveryPixel : Obligations.UnpackReadsEveryPixel := by
  unfold Obligations.UnpackReadsEveryPixel
  intro s h320 hmax hb
  obtain ⟨t, ht, hunpacked⟩ := execUnpack_unpacked h320 hmax (tileBytesThere_of_reads h320 hb)
  refine ⟨t, ht, hunpacked.frame, hunpacked.size, fun k i hk heven hi => ?_, hunpacked.beyond⟩
  obtain ⟨p, hunpack, hread⟩ :=
    hunpacked.picture (8 * (k / 320) + k % 16 / 2) (8 * (k % 320 / 16) + i) (by omega) (by omega)
  obtain ⟨lo, b, hlo, hb, hbit0, hbit1⟩ := unpackPixel_eq_some.1 hunpack
  rw [tileIndex_inverse heven hi] at hlo hb
  rw [show (8 * (k % 320 / 16) + i) % 8 = i by omega] at hbit0 hbit1
  exact ⟨p, lo, b, hlo, hb, hread, hbit0, hbit1⟩

/-- Settles O47: the matrix before PACK and the one after UNPACK hold the picture of the same tile bytes. -/
theorem unpackOfPackRestoresMatrix : Obligations.UnpackOfPackRestoresMatrix := by
  unfold Obligations.UnpackOfPackRestoresMatrix
  intro s h8 hmax hp
  obtain ⟨t, ht, hpacked⟩ := execPack_packed h8 hmax hp
  have hsize := hpacked.size
  have hrows : t.tileLen.toNat / 40 = s.tileH.toNat := by omega
  obtain ⟨u, hu, hunpacked⟩ :=
    execUnpack_unpacked (s := t) (by omega) (by omega) (hrows ▸ hpacked.picture.tileBytesThere)
  refine ⟨t, u, ht, hu, BitVec.eq_of_toNat_eq (hunpacked.size.trans hrows), fun a => ?_⟩
  by_cases ha : a < 160 * s.tileH.toNat
  · exact (hrows ▸ hunpacked.picture).pix_read_eq hpacked.picture ha
  · rw [hunpacked.beyond a (by omega), hpacked.frame]

/-- Settles O48: the tile bytes before UNPACK and those after PACK hold the picture of the same matrix. -/
theorem packOfUnpackRestoresTiles : Obligations.PackOfUnpackRestoresTiles := by
  unfold Obligations.PackOfUnpackRestoresTiles
  intro s h320 hmax hb
  obtain ⟨t, ht, hunpacked⟩ := execUnpack_unpacked h320 hmax (tileBytesThere_of_reads h320 hb)
  have hrows := hunpacked.size
  obtain ⟨u, hu, hpacked⟩ := execPack_packed (s := t) (by omega) (by omega) (hrows ▸ hunpacked.picture.pixelsThere)
  have hsize := hpacked.size
  refine ⟨t, u, ht, hu, BitVec.eq_of_toNat_eq (by omega), fun a => ?_⟩
  by_cases ha : a < s.tileLen.toNat
  · exact (hrows ▸ hpacked.picture).til_read_eq h320 hunpacked.picture ha
  · rw [hpacked.beyond a (by omega), hunpacked.frame]

/-- PACK of an illegal height takes the fault and does nothing else (R195, R223). -/
theorem execPack_illegal {s : State} (h : s.tileH.toNat % 8 ≠ 0 ∨ Config.hMax < s.tileH.toNat) :
    execPack s = .next (State.raise .badHeight (some s.tileH.toNat) s) := by
  rw [execPack, if_neg]
  rw [heightLegal_iff]
  omega

/-- UNPACK of an illegal length takes the fault and does nothing else (R195, R224). -/
theorem execUnpack_illegal {s : State} (h : s.tileLen.toNat % 320 ≠ 0 ∨ 40 * Config.hMax < s.tileLen.toNat) :
    execUnpack s = .next (State.raise .badLength (some s.tileLen.toNat) s) := by
  rw [execUnpack, if_neg]
  rw [lengthLegal_iff]
  omega

/-- Settles O49: the legality test fails, and what is left is the raise of the fault. -/
theorem illegalTileSizesWriteNothing : Obligations.IllegalTileSizesWriteNothing := by
  unfold Obligations.IllegalTileSizesWriteNothing
  exact ⟨fun _ h => execPack_illegal h, fun _ h => execUnpack_illegal h⟩

end Sys2Proof.Machine

/-! ## FAULT gates no operation (R14, R216, R232, R237) -/

namespace Sys2Proof.Machine

open Host (Outcome)

/-! ### Two states that differ in FAULT -/

/-- The state with another FAULT. -/
def State.withFault (f : BitVec 8) (s : State) : State := { s with fault := f }

/-- The operation does from a state with another FAULT what it does from the state itself, up to FAULT. -/
def FaultBlind (op : State → Outcome State Fault Refusal) : Prop :=
  ∀ (f : BitVec 8) (s t : State), op s = .next t → ∃ g, op (s.withFault f) = .next (t.withFault g)

section WithFault
variable (f : BitVec 8) (s : State)

@[simp] theorem withFault_rxN : (s.withFault f).rxN = s.rxN := rfl
@[simp] theorem withFault_rxIn : (s.withFault f).rxIn = s.rxIn := rfl
@[simp] theorem withFault_rxState : (s.withFault f).rxState = s.rxState := rfl
@[simp] theorem withFault_dataSize : (s.withFault f).dataSize = s.dataSize := rfl
@[simp] theorem withFault_fetchRun : fetchRun (s.withFault f) = fetchRun s := rfl

end WithFault

/-! ### The TX unit -/

/-- A payload longer than the length field is not encoded (R90, R218). -/
theorem encodeOp_tooLarge {s : State} (h : 65535 < s.txPlen.toNat) : encodeOp s = .next (encodeTooLarge s) := if_pos h

theorem encodeOp_faultBlind : FaultBlind encodeOp := by
  intro f s t h
  rcases encodeOp_cases s with ⟨hl, he⟩ | ⟨hl, p, hp, he⟩ | ⟨-, -, he⟩ <;> rw [he] at h <;> cases h
  · exact ⟨_, encodeOp_tooLarge (s := s.withFault f) hl⟩
  · exact ⟨_, encodeOp_payload (s := s.withFault f) hl hp⟩

/-- The two exchanges after the frame are the same ones, with the same replies. -/
theorem exchangeReplies_withFault (f : BitVec 8) (s : State) :
    ∃ g, exchangeReplies (s.withFault f) = (exchangeReplies s).withFault g := by
  unfold exchangeReplies
  cases h0 : s.nextReply with
  | timeout =>
    rw [linkXfer_timeout 0x00 h0, linkXfer_timeout 0x00 (s := s.withFault f) h0]
    exact ⟨_, rfl⟩
  | reply r0 =>
    rw [linkXfer_reply 0x00 h0, linkXfer_reply 0x00 (s := s.withFault f) h0]
    dsimp only
    cases h1 : (bumpIdx (linkXfer 0x00 s).2).nextReply with
    | timeout =>
      rw [linkXfer_timeout 0x00 h1, linkXfer_timeout 0x00 (s := bumpIdx (linkXfer 0x00 (s.withFault f)).2) h1]
      exact ⟨_, rfl⟩
    | reply r1 =>
      rw [linkXfer_reply 0x00 h1, linkXfer_reply 0x00 (s := bumpIdx (linkXfer 0x00 (s.withFault f)).2) h1]
      exact ⟨_, rfl⟩

/-- EXCHANGE of the same bytes meets the same replies, so it ends at the same place. -/
theorem exchangeBytes_withFault (bs : List Byte) (f : BitVec 8) (s : State) :
    ∃ g, exchangeBytes bs (s.withFault f) = (exchangeBytes bs s).withFault g := by
  induction bs generalizing s with
  | nil => exact exchangeReplies_withFault f s
  | cons b bs ih =>
    rw [exchangeBytes, exchangeBytes]
    cases h : s.nextReply with
    | timeout =>
      rw [linkXfer_timeout b h, linkXfer_timeout b (s := s.withFault f) h]
      exact ⟨_, rfl⟩
    | reply r =>
      rw [linkXfer_reply b h, linkXfer_reply b (s := s.withFault f) h]
      exact ih (bumpIdx (linkXfer b s).2)

/-- Without a frame EXCHANGE faults (R91, R226). -/
theorem exchangeOp_notReady {s : State} (h : s.fvalid = false) : exchangeOp s = .next (State.raise .notReady none s) :=
  if_neg (by rw [h]; exact Bool.false_ne_true)

theorem exchangeOp_faultBlind : FaultBlind exchangeOp := by
  intro f s t h
  rcases exchangeOp_cases s with ⟨hv, he⟩ | ⟨hv, frame, hr, he⟩ | ⟨-, -, he⟩ <;> rw [he] at h <;> cases h
  · exact ⟨_, exchangeOp_notReady (s := s.withFault f) hv⟩
  · obtain ⟨g, hg⟩ := exchangeBytes_withFault frame f (exchangeStart s)
    exact ⟨g, (exchangeOp_frame (s := s.withFault f) hv hr).trans (congrArg _ hg)⟩

theorem sendFrame_faultBlind (cmd comp : Byte) (p : List Byte) : FaultBlind (sendFrame cmd comp p) := by
  intro f s t h
  obtain ⟨hl, rfl⟩ := sendFrame_next h
  obtain ⟨g, hg⟩ := exchangeBytes_withFault (frameBytes cmd comp p) f (exchangeStart (sendEncoded cmd comp p s))
  exact ⟨g, (sendFrame_exchanges (s := s.withFault f) hl).trans (congrArg _ hg)⟩

theorem exec_wire_faultBlind {i : Instr} (hi : i.family = .frame) : FaultBlind (exec i) := by
  obtain ⟨⟨cmd, comp, p⟩, hw⟩ := Option.isSome_iff_exists.1 (wireFields_isSome hi)
  rw [funext (exec_wireFields hw)]
  exact sendFrame_faultBlind cmd comp p

theorem execDecodeStatus_faultBlind : FaultBlind execDecodeStatus := by
  intro f s t h
  cases hv : s.rvalid with
  | true =>
    rw [execDecodeStatus_pair hv] at h
    cases h
    exact ⟨_, execDecodeStatus_pair (s := s.withFault f) hv⟩
  | false =>
    rw [execDecodeStatus_notReady hv] at h
    cases h
    exact ⟨_, execDecodeStatus_notReady (s := s.withFault f) hv⟩

/-! ### The RX unit -/

theorem rxHeaderByte_faultBlind : FaultBlind rxHeaderByte := by
  intro f s t h
  unfold rxHeaderByte at h ⊢
  rw [withFault_rxN, withFault_dataSize]
  split at h <;> rename_i hn
  · rw [if_pos hn]
    split at h <;> cases h <;> exact ⟨_, rfl⟩
  · rw [if_neg hn]
    cases h
    exact ⟨_, rfl⟩

theorem rxDataByte_faultBlind : FaultBlind rxDataByte := by
  intro f s t h
  unfold rxDataByte at h ⊢
  rw [withFault_rxN, withFault_dataSize]
  split at h
  · split at h <;> rename_i hn <;> cases h
    · exact ⟨_, if_pos hn⟩
    · exact ⟨_, if_neg hn⟩
  · cases h

theorem rxByte_faultBlind (b : Byte) : FaultBlind (rxByte b) := by
  intro f s t h
  unfold rxByte at h ⊢
  rw [withFault_rxState]
  cases hq : s.rxState with
  | empty | preamblePartial =>
    rw [hq] at h
    dsimp only at h ⊢
    split at h <;> rename_i hb <;> cases h
    · exact ⟨_, if_pos hb⟩
    · exact ⟨_, if_neg hb⟩
  | headerPartial => rw [hq] at h; exact rxHeaderByte_faultBlind f _ t h
  | headerDone | dataPartial => rw [hq] at h; exact rxDataByte_faultBlind f _ t h
  | preambleDone | dataDone | checksumPartial | checksumDone | responsePartial | complete =>
    rw [hq] at h
    cases h
    exact ⟨_, rfl⟩

theorem execAddByte_faultBlind : FaultBlind execAddByte := by
  intro f s t h
  unfold execAddByte at h ⊢
  rw [withFault_rxN, withFault_rxIn, withFault_rxState]
  split at h <;> rename_i hroom
  · rw [if_pos hroom]
    exact rxByte_faultBlind s.rxIn f s t h
  · cases h

/-- Before the check bytes are in VERIFY faults (R133, R226). -/
theorem execVerify_notReady {s : State} (h : s.rxState.checksumIn = false) :
    execVerify s = .next (State.raise .notReady none s) := if_neg (by rw [h]; exact Bool.false_ne_true)

theorem execVerify_faultBlind : FaultBlind execVerify := by
  intro f s t h
  rcases execVerify_cases s with ⟨hc, he⟩ | ⟨hc, chk, hr, he⟩ | ⟨-, -, he⟩ <;> rw [he] at h <;> cases h
  · exact ⟨_, execVerify_notReady (s := s.withFault f) hc⟩
  · exact ⟨_, execVerify_check (s := s.withFault f) hc hr⟩

/-! ### The RLE unit -/

theorem rleFinish_withFault (f : BitVec 8) (s : State) : ∃ g, rleFinish (s.withFault f) = (rleFinish s).withFault g := by
  unfold rleFinish
  by_cases h : s.rleOcnt.toNat = Config.stripBytes
  · rw [if_pos h]
    exact ⟨_, if_pos h⟩
  · rw [if_neg h]
    exact ⟨_, if_neg h⟩

/-- DECOMPRESS takes the same runs to the same end. -/
theorem rleLoop_faultBlind (fuel : Nat) : FaultBlind (rleLoop fuel) := by
  intro f s t h
  induction fuel generalizing s with
  | zero => cases h
  | succ fuel ih =>
    by_cases hend : s.rleIlen.toNat ≤ s.rleIp.toNat
    · rw [rleLoop_end hend] at h
      cases h
      obtain ⟨g, hg⟩ := rleFinish_withFault f s
      exact ⟨g, (rleLoop_end (s := s.withFault f) hend).trans (congrArg _ hg)⟩
    · have hlt := Nat.not_le.1 hend
      cases hf : fetchRun s with
      | rep n v =>
        rw [rleLoop_rep hlt hf] at h
        rw [rleLoop_rep (s := s.withFault f) hlt hf]
        exact ih (repRun n v s) h
      | lit bs =>
        rw [rleLoop_lit hlt hf] at h
        rw [rleLoop_lit (s := s.withFault f) hlt hf]
        exact ih (litRun bs s) h
      | truncated =>
        rw [rleLoop_truncated hlt hf] at h
        cases h
        exact ⟨_, rleLoop_truncated (s := s.withFault f) hlt hf⟩
      | unwritten =>
        rw [rleLoop_unwritten hlt hf] at h
        cases h

theorem execDecompress_faultBlind : FaultBlind execDecompress := fun f s t h =>
  rleLoop_faultBlind _ f (rleStart s) t h

theorem execRep_faultBlind (n : BitVec 7) (v : Byte) : FaultBlind (execRep n v) := by
  intro f s t h
  rcases execRep_cases n v s with ⟨hfit, he⟩ | ⟨hshort, he⟩ <;> rw [he] at h <;> cases h
  · exact ⟨_, if_neg (Nat.not_le.2 hfit)⟩
  · exact ⟨_, if_pos hshort⟩

theorem execLit_faultBlind (bs : List Byte) : FaultBlind (execLit bs) := by
  intro f s t h
  rcases execLit_cases bs s with ⟨hfit, he⟩ | ⟨hshort, he⟩ <;> rw [he] at h <;> cases h
  · exact ⟨_, if_neg (Nat.not_lt.2 hfit)⟩
  · exact ⟨_, if_pos hshort⟩

/-! ### The TILE unit -/

theorem execPack_legal {s : State} {bytes : List Byte} (hl : heightLegal s.tileH.toNat = true)
    (hp : packBytes s.pix (s.tileH.toNat / 8) = some bytes) :
    execPack s = .next (State.endOk
      { s with til := s.til.splice 0 bytes, tileLen := BitVec.ofNat 24 (40 * s.tileH.toNat) }) := by
  rw [execPack, if_pos hl, hp]

theorem execPack_faultBlind : FaultBlind execPack := by
  intro f s t h
  rcases execPack_cases s with ⟨hl, he⟩ | ⟨hl, bytes, hp, he⟩ | ⟨-, -, he⟩ <;> rw [he] at h <;> cases h
  · exact ⟨_, if_neg (Bool.eq_false_iff.1 hl)⟩
  · exact ⟨_, execPack_legal (s := s.withFault f) hl hp⟩

theorem execUnpack_legal {s : State} {px : List Pixel} (hl : lengthLegal s.tileLen.toNat = true)
    (hp : unpackPixels s.til (s.tileLen.toNat / 40) = some px) :
    execUnpack s = .next (State.endOk
      { s with pix := s.pix.splice 0 px, tileH := BitVec.ofNat 16 (s.tileLen.toNat / 40) }) := by
  rw [execUnpack, if_pos hl, hp]

theorem execUnpack_faultBlind : FaultBlind execUnpack := by
  intro f s t h
  rcases execUnpack_cases s with ⟨hl, he⟩ | ⟨hl, px, hp, he⟩ | ⟨-, -, he⟩ <;> rw [he] at h <;> cases h
  · exact ⟨_, if_neg (Bool.eq_false_iff.1 hl)⟩
  · exact ⟨_, execUnpack_legal (s := s.withFault f) hl hp⟩

/-! ### Every instruction -/

theorem exec_faultBlind (i : Instr) : FaultBlind (exec i) := by
  cases i with
  | encode => exact encodeOp_faultBlind
  | exchange => exact exchangeOp_faultBlind
  | decodeStatus => exact execDecodeStatus_faultBlind
  | addByte => exact execAddByte_faultBlind
  | verify => exact execVerify_faultBlind
  | decompress => exact execDecompress_faultBlind
  | pack => exact execPack_faultBlind
  | unpack => exact execUnpack_faultBlind
  | rxReset | faultClear =>
    intro f s t h
    cases h
    exact ⟨_, rfl⟩
  | init | print | data | brk | status => exact exec_wire_faultBlind rfl
  | rep n v => exact execRep_faultBlind n v
  | lit bs => exact execLit_faultBlind bs

/-- Settles O17: each instruction's meaning reads every field but FAULT, which it only writes. -/
theorem faultRegisterGatesNoOperation : Obligations.FaultRegisterGatesNoOperation := by
  unfold Obligations.FaultRegisterGatesNoOperation
  intro i s t f h
  obtain ⟨g, hg⟩ := exec_faultBlind i f s t h
  exact ⟨t.withFault g, hg, rfl⟩

end Sys2Proof.Machine

/-! ## The faults of the TX unit, a reserved operation, and FAULT_CLEAR (R91, R218, R219, R225, R226, R232) -/

namespace Sys2Proof.Machine

/-- What the answered bytes and the one without an answer leave of the replies fixed beforehand. -/
theorem afterTimeout_peer {bs rs : List Byte} {b : Byte} {more : List LinkReply} {s : State}
    (hl : bs.length = rs.length) (hp : s.peer = rs.map LinkReply.reply ++ .timeout :: more) :
    (afterTimeout b (afterXfers bs s)).peer = more := by
  show (s.peer.drop bs.length).tail = more
  rw [hp, List.drop_left' (by rw [List.length_map, hl])]
  rfl

/-- Settles O24: EXCHANGE ends at the exchange that got no answer, after the ones before it were answered. -/
theorem exchangeTimeoutStopsAtItsIndex : Obligations.ExchangeTimeoutStopsAtItsIndex := by
  unfold Obligations.ExchangeTimeoutStopsAtItsIndex
  intro s frame rs more hv hl hr hi hp
  have hframe : frame.length ≤ 65543 := (Memory.readRange_length hr).trans_le hl
  obtain ⟨b, hb, hx⟩ := exchangeBytes_timeout (s := exchangeStart s) hi hp
  obtain ⟨-, -, -, hsent, hend⟩ := afterTimeout_ends s hframe hi hb
  obtain ⟨hrvalid, hresult, hidx⟩ :=
    hend.resolve_left fun ⟨_, hpair, _⟩ => Bool.false_ne_true ((exchangeStart_rvalid s).symm.trans hpair)
  exact ⟨_, (exchangeOp_frame hv hr).trans (congrArg _ hx), hidx, hrvalid, rfl, (exchangeStart_fvalid s).trans hv, rfl,
    hresult, hsent, afterTimeout_peer (s := exchangeStart s) (by simp; omega) hp⟩

/-- The numbers R76 gives no operation are the reserved ones (R77). -/
theorem decodeOp_reserved {w : BitVec 4} (h : w = 0x0 ∨ 0xB ≤ w) : decodeOp w = .error .reservedOp := by
  unfold decodeOp
  split
  case h_11 => rfl
  all_goals bv_omega

/-- Settles O9: a reserved number is decoded as no operation, and the write of OP takes the fault. -/
theorem reservedOpFaultsIllegalOp : Obligations.ReservedOpFaultsIllegalOp := by
  unfold Obligations.ReservedOpFaultsIllegalOp
  intro s w rest ha hh hw
  have hf : fetchAction (.opWrite w) { s with host := rest } =
      .other (.next (State.raise .illegalOp none { s with host := rest })) := by
    rw [fetchAction, fetchOp, decodeOp_reserved hw]
  exact step_host ha hh hf

/-- Settles O15: FAULT_CLEAR is `clearFault`, which writes FAULT alone, and the end `ok`. -/
theorem faultClearZeroesOnlyFault : Obligations.FaultClearZeroesOnlyFault := by
  unfold Obligations.FaultClearZeroesOnlyFault
  exact fun s => rfl

/-- Settles O18: each of the three tests its input first, and what is left is the raise of the fault. -/
theorem operationsWithoutInputAreNotReady : Obligations.OperationsWithoutInputAreNotReady := by
  unfold Obligations.OperationsWithoutInputAreNotReady
  refine fun s => ⟨fun h => exchangeOp_notReady h, fun h => execDecodeStatus_notReady h, fun h1 h2 h3 => ?_⟩
  have hc : s.rxState.checksumIn = false := Bool.eq_false_iff.2 (by simp [RxState.checksumIn_iff, h1, h2, h3])
  exact execVerify_notReady hc

/-- Settles O21: what ENCODE leaves without a frame is `encodeTooLarge`. -/
theorem encodeTooLargeGivesNoFrame : Obligations.EncodeTooLargeGivesNoFrame := by
  unfold Obligations.EncodeTooLargeGivesNoFrame
  exact fun s h => ⟨encodeTooLarge s, encodeOp_tooLarge h, encodeTooLarge_fvalid s, rfl, rfl, rfl⟩

end Sys2Proof.Machine
